-- ==== Sys2Proof/Word.lean ====
section
/-! DEFINITION. The words of the limg decode core: bytes, 32-bit registers and the narrowing `trunc_N` of rule R8. -/

namespace Sys2Proof

/-- A byte, a value in `[0, 255]` (rule R9). -/
abbrev Byte := BitVec 8

/-- The contents of a host-visible register, `REGW = 32` bits (rule R6). -/
abbrev Word := BitVec 32

/-- `trunc_8` (rule R8). -/
abbrev trunc8 (v : Nat) : Byte := BitVec.ofNat 8 v

/-- `trunc_32` (rule R8): the only narrowing of a natural to a register. -/
abbrev trunc32 (v : Nat) : Word := BitVec.ofNat 32 v

end Sys2Proof
end

