-- ==== Sys2Proof/Config.lean ====
section
/-! DEFINITION. What an implementation fixes: the open parameters of rule R7 and the replaceable `EXPAND5` of rule
R166, held as plain data that State carries (logs 2, 14), and the fixed parameters of rule R6 that are numbers. The bit
order of rule R6 is a function, `readBitsMSB` (Decode.lean). -/

namespace Sys2Proof

/-- `BF_PROD_BITS` (rules R7, R168): the width of the product in the BitFields scaling formula. -/
inductive ProdBits where
  | bits32
  | unbounded
  deriving DecidableEq, Repr

/-- A function from 5-bit channels to bytes, as its table: entry `c` is what the channel `c` expands to. -/
abbrev Expansion := Vector Byte 32

/-- `EXPAND5(c) = (c << 3) | 7`, the reading rules R6 and R166 choose in conflict C2. -/
def Expansion.orOnes : Expansion := Vector.ofFn fun c => trunc8 (c.val <<< 3 ||| 7)

/-- `(c << 3) | (c >> 2)`, the other reading of conflict C2, which rule R166 wants to be substitutable. -/
def Expansion.replicate : Expansion := Vector.ofFn fun c => trunc8 (c.val <<< 3 ||| c.val >>> 2)

/-- The open parameters of rule R7, and `EXPAND5`, "a replaceable function with a fixed default" (U9; log 14). -/
structure Config where
  SRC_CAP : Nat
  CBUF_CAP : Nat
  OBUF_CAP : Nat
  SINK_CAP : Nat
  WMAX : Nat
  BF_PROD_BITS : ProdBits
  EXPAND5 : Expansion := .orOnes
  deriving DecidableEq, Repr

namespace Config

/-- A capacity is admissible when it lies in `[1, 2^32 - 1]` (rule R7). -/
def capOk (c : Nat) : Bool := 1 ≤ c && c < 2 ^ 32

/-- The values rule R7 admits; any `EXPAND5` is one (rule R166). -/
def admissible (c : Config) : Bool :=
  capOk c.SRC_CAP && capOk c.CBUF_CAP && capOk c.OBUF_CAP && capOk c.SINK_CAP && 9 ≤ c.WMAX

/-- The parameter values `State.reset` stands on. DESIGN CHOICE (log 2), unsafe: the spec leaves every one of them
open (rule R7); these are the ones 95_test_vectors.md presumes. `EXPAND5` has its fixed default (rule R6; log 14). -/
def default : Config where
  SRC_CAP := 2 ^ 32 - 1
  CBUF_CAP := 2 ^ 32 - 1
  OBUF_CAP := 2 ^ 32 - 1
  SINK_CAP := 2 ^ 32 - 1
  WMAX := 12
  BF_PROD_BITS := .unbounded
  EXPAND5 := .orOnes

end Config

/-- `NMIN` (rule R6). -/
def NMIN : Nat := 2

/-- `NMAX` (rule R6). -/
def NMAX : Nat := 8

/-- `CELL` (rule R6): bytes per Pixel Sink cell. -/
def CELL : Nat := 4

/-- `PAL_STRIDE` (rule R6): bytes between BMP palette entries. -/
def PAL_STRIDE : Nat := 4

/-- `ROW_ALIGN` (rule R6): a BMP row occupies a multiple of this many bytes. -/
def ROW_ALIGN : Nat := 4

end Sys2Proof
end

