-- ==== Sys2Proof/Syntax.lean ====
section
/-! DEFINITION. The instructions of the limg decode core, in the three meanings rule R2 gives the word: host commands, LZW
codes, container elements and pixel modes; one constructor per row of spec/opcode_table.json. With them the places
an instruction is fetched from (`Site`), since rule R92 and rules R99, R102 make the reading of the same bits
depend on where they stand. -/

namespace Sys2Proof

/-- One row of spec/opcode_table.json each. -/
inductive Instr where
  /-- `NOP`, rule R135. -/
  | nop
  /-- `GIF_OPEN`, rule R136. -/
  | gifOpen
  /-- `GIF_CONCAT`, rule R137. -/
  | gifConcat
  /-- `LZW_RUN`, rule R138. -/
  | lzwRun
  /-- `BMP_RENDER`, rule R139. -/
  | bmpRender
  /-- `CMD.RESERVED`, rule R140: a command word above 4. -/
  | cmdReserved (c : Word)
  /-- `LZW.CLEAR`, rule R227: the code `2^n`. -/
  | lzwClear
  /-- `LZW.EOI`, rule R228: the code `2^n + 1`. -/
  | lzwEoi
  /-- `LZW.FIRST`, rule R229: a literal code with no previous code. -/
  | lzwFirst (v : Nat)
  /-- `LZW.DICT`, rule R230: a code in the dictionary. -/
  | lzwDict (v : Nat)
  /-- `LZW.KWKWK`, rule R231: the next assignable code. -/
  | lzwKwkwk
  /-- `LZW.RANGE`, rule R233: a code out of bounds. -/
  | lzwRange (v : Nat)
  /-- `GIF.IMAGE`, rule R198: the separator `0x2C`. -/
  | gifImage
  /-- `GIF.TRAILER`, rule R203: the separator `0x3B`. -/
  | gifTrailer
  /-- `GIF.BADSEP`, rule R204: any other separator byte. -/
  | gifBadsep (b : Byte)
  /-- `GIF.SUBBLOCK`, rules R201 and R212: a length byte in `[1, 255]`. -/
  | gifSubblock (len : Byte)
  /-- `GIF.TERMINATOR`, rules R201 and R212: the length byte 0. -/
  | gifTerminator
  /-- `BMP.P1`, rule R160. -/
  | bmpP1
  /-- `BMP.P4`, rule R161. -/
  | bmpP4
  /-- `BMP.P8`, rule R162. -/
  | bmpP8
  /-- `BMP.RGB555`, rule R165. -/
  | bmpRgb555
  /-- `BMP.BF16`, rule R167. -/
  | bmpBf16
  /-- `BMP.BGR24`, rule R169. -/
  | bmpBgr24
  /-- `BMP.BGRA32`, rule R170. -/
  | bmpBgra32
  /-- `BMP.BF32`, rule R171. -/
  | bmpBf32
  /-- `BMP.ILLEGAL`, rule R151 checks 1 to 4: a pair `(BMP_BPP, BMP_COMP)` that selects no mode. -/
  | bmpIllegal (bpp comp : Word)
  deriving DecidableEq, Repr

/-- What the reading of an LZW code depends on beside its bits (rule R92): the initial code size `n`, the code
width `w`, the next assignable code, whether there is a previous code, and the bit of the code's byte window at
which the code starts (`p mod 8`, rule R66). -/
structure CodeCtx where
  n : Nat
  w : Nat
  next : Nat
  hasPrev : Bool
  off : Nat
  deriving DecidableEq, Repr

namespace CodeCtx

/-- `CLEAR = 2^n` (rule R223). -/
def clear (c : CodeCtx) : Nat := 2 ^ c.n

/-- `EOI = CLEAR + 1` (rule R223). -/
def eoi (c : CodeCtx) : Nat := 2 ^ c.n + 1

/-- How many bytes the code's window has: `S[p div 8]` to `S[(p + w - 1) div 8]` (rule R66). -/
def windowLen (c : CodeCtx) : Nat := (c.off + c.w + 7) / 8

/-- The contexts a run meets (rules R93 and R237 (a)). -/
def ok (c : CodeCtx) : Bool :=
  NMIN ≤ c.n && c.n ≤ NMAX && c.n + 1 ≤ c.w && c.clear + 2 ≤ c.next && c.next < 2 ^ c.w && c.off < 8

end CodeCtx

/-- Where an instruction is fetched from: a write to `CMD`, a GIF separator position, a sub-block length position,
the code stream of `CBUF`, or the mode registers of `BPD`. -/
inductive Site where
  /-- The 32-bit word written to `CMD` (rule R91), as four bytes, lowest first (log 16). -/
  | command
  /-- One byte at a separator position (rule R99). -/
  | separator
  /-- One byte at a sub-block length position (rule R102). -/
  | length
  /-- The byte window of one code (rules R66, R92). -/
  | code (c : CodeCtx)
  /-- `BMP_BPP, BMP_COMP, BMP_MASK_R, BMP_MASK_G, BMP_MASK_B` (rule R104), four bytes each, lowest first (log 16). -/
  | mode
  deriving DecidableEq, Repr

/-- How many bytes an instruction at this site has. -/
def Site.byteLen : Site → Nat
  | .command => 4
  | .separator => 1
  | .length => 1
  | .code c => c.windowLen
  | .mode => 20

end Sys2Proof
end

