-- ==== Sys2Proof/WellFormed.lean ====
section
/-! DEFINITION. Which instructions can stand at which site, with which operands: the conditions of spec/opcode_table.json
(rules R91, R92, R99, R102, R104). -/

namespace Sys2Proof

/-- The pairs `(BMP_BPP, BMP_COMP)` that select a pixel mode (the table of rule R104). -/
def modePairLegal (bpp comp : Word) : Bool :=
  (comp == 0 && (bpp == 1 || bpp == 4 || bpp == 8 || bpp == 16 || bpp == 24 || bpp == 32)) ||
    (comp == 1 && (bpp == 16 || bpp == 32))

/-- An instruction of format `CMD` (rule R91): it is read from a `CMD` write. -/
def Site.isCommand : Site → Bool
  | .command => true
  | .separator => false
  | .length => false
  | .code _ => false
  | .mode => false

/-- A separator position (rule R99). -/
def Site.isSeparator : Site → Bool
  | .command => false
  | .separator => true
  | .length => false
  | .code _ => false
  | .mode => false

/-- A length position (rule R102). -/
def Site.isLength : Site → Bool
  | .command => false
  | .separator => false
  | .length => true
  | .code _ => false
  | .mode => false

/-- The mode registers (rule R104). -/
def Site.isMode : Site → Bool
  | .command => false
  | .separator => false
  | .length => false
  | .code _ => false
  | .mode => true

/-- A code position whose context satisfies `p` (rule R92). -/
def Site.isCode (p : CodeCtx → Bool) : Site → Bool
  | .command => false
  | .separator => false
  | .length => false
  | .code c => c.ok && p c
  | .mode => false

/-- `i` can be read at `site`: it has the site's format, and its operands satisfy the row's conditions. -/
def Instr.wf (site : Site) (i : Instr) : Bool :=
  match i with
  | .nop => site.isCommand
  | .gifOpen => site.isCommand
  | .gifConcat => site.isCommand
  | .lzwRun => site.isCommand
  | .bmpRender => site.isCommand
  | .cmdReserved c => site.isCommand && 4 < c.toNat
  | .lzwClear => site.isCode fun _ => true
  | .lzwEoi => site.isCode fun _ => true
  | .lzwFirst v => site.isCode fun c => !c.hasPrev && v < c.clear
  | .lzwDict v => site.isCode fun c => c.hasPrev && v < c.next && v != c.clear && v != c.eoi
  | .lzwKwkwk => site.isCode fun c => c.hasPrev
  | .lzwRange v => site.isCode fun c => v < 2 ^ c.w && (if c.hasPrev then c.next < v else c.eoi < v)
  | .gifImage => site.isSeparator
  | .gifTrailer => site.isSeparator
  | .gifBadsep b => site.isSeparator && b != 0x2C && b != 0x3B
  | .gifSubblock len => site.isLength && len != 0
  | .gifTerminator => site.isLength
  | .bmpP1 => site.isMode
  | .bmpP4 => site.isMode
  | .bmpP8 => site.isMode
  | .bmpRgb555 => site.isMode
  | .bmpBf16 => site.isMode
  | .bmpBgr24 => site.isMode
  | .bmpBgra32 => site.isMode
  | .bmpBf32 => site.isMode
  | .bmpIllegal bpp comp => site.isMode && !modePairLegal bpp comp

end Sys2Proof
end

