-- ==== Sys2Proof/Decode.lean ====
section
/-! DEFINITION. The decoder: from the bytes that stand at a site to an instruction, total on any bytes and rejecting by
name; after it the encoder, written from the same tables (30_encoding.md). -/

namespace Sys2Proof

/-- Why bytes are no instruction. Every value of every format is some instruction (rules R91, R92, R99, R102,
R104), so only a byte string of the wrong length is rejected. -/
inductive DecodeReject where
  /-- The site needs `want` bytes and was given `got`. -/
  | wrongLength (want got : Nat)
  deriving DecidableEq, Repr

/-! ### Bit and byte order -/

/-- Stream bit `k` of a byte string: bit `7 - (k mod 8)` of byte `k div 8` (rule R66). -/
def streamBit (bs : List Byte) (k : Nat) : Nat :=
  ((bs.getD (k / 8) 0).toNat >>> (7 - k % 8)) % 2

/-- `ReadBitsMSB` on a byte string (rule R66): the `w`-bit number whose most significant bit is stream bit `p` and
whose least significant bit is stream bit `p + w - 1`. The one place the bit order is decided (rule R6,
`CODE_BIT_ORDER`). -/
def readBitsMSB (bs : List Byte) (p : Nat) : Nat → Nat
  | 0 => 0
  | w + 1 => 2 * readBitsMSB bs p w + streamBit bs (p + w)

/-- A little-endian number (rule R67): the first byte is the least significant. -/
def leNat : List Byte → Nat
  | [] => 0
  | b :: bs => b.toNat + 256 * leNat bs

/-- The `m` low bytes of a number, least significant first (rule R67). -/
def leBytes : Nat → Nat → List Byte
  | 0, _ => []
  | m + 1, v => trunc8 v :: leBytes m (v / 256)

/-- The `m` low bytes of a number, most significant first: the window a code is packed into (rule R118). -/
def beBytes : Nat → Nat → List Byte
  | 0, _ => []
  | m + 1, v => trunc8 (v / 256 ^ m) :: beBytes m v

/-! ### The decoder -/

/-- Format `CMD` (rule R91). -/
def decodeCommand (c : Word) : Instr :=
  if c = 0 then .nop
  else if c = 1 then .gifOpen
  else if c = 2 then .gifConcat
  else if c = 3 then .lzwRun
  else if c = 4 then .bmpRender
  else .cmdReserved c

/-- A separator byte (rule R99). -/
def decodeSeparator (b : Byte) : Instr :=
  if b = 0x2C then .gifImage
  else if b = 0x3B then .gifTrailer
  else .gifBadsep b

/-- A sub-block length byte (rule R102). -/
def decodeLength (b : Byte) : Instr :=
  if b = 0 then .gifTerminator else .gifSubblock b

/-- The class of a code value, tested in the order of rules R92 and R225. -/
def decodeCode (c : CodeCtx) (v : Nat) : Instr :=
  if v = c.clear then .lzwClear
  else if v = c.eoi then .lzwEoi
  else if !c.hasPrev then
    if v < c.clear then .lzwFirst v else .lzwRange v
  else if v < c.next then .lzwDict v
  else if v = c.next then .lzwKwkwk
  else .lzwRange v

/-- Pixel mode selection (the table of rule R104); a pair outside it is `BMP.ILLEGAL`. -/
def decodeMode (bpp comp maskR maskG maskB : Word) : Instr :=
  if comp = 0 then
    if bpp = 1 then .bmpP1
    else if bpp = 4 then .bmpP4
    else if bpp = 8 then .bmpP8
    else if bpp = 16 then .bmpRgb555
    else if bpp = 24 then .bmpBgr24
    else if bpp = 32 then .bmpBgra32
    else .bmpIllegal bpp comp
  else if comp = 1 then
    if bpp = 16 then .bmpBf16
    else if bpp = 32 then
      if maskR = 0 ∨ maskG = 0 ∨ maskB = 0 then .bmpBgra32 else .bmpBf32
    else .bmpIllegal bpp comp
  else .bmpIllegal bpp comp

/-- The 32-bit field number `k` of a byte string of 32-bit little-endian fields. -/
def wordField (bs : List Byte) (k : Nat) : Word := trunc32 (leNat ((bs.drop (4 * k)).take 4))

/-- The instruction the bytes at a site are, once there are as many as the site needs. -/
def decodeAt (site : Site) (bs : List Byte) : Instr :=
  match site with
  | .command => decodeCommand (wordField bs 0)
  | .separator => decodeSeparator (bs.getD 0 0)
  | .length => decodeLength (bs.getD 0 0)
  | .code c => decodeCode c (readBitsMSB bs c.off c.w)
  | .mode => decodeMode (wordField bs 0) (wordField bs 1) (wordField bs 2) (wordField bs 3) (wordField bs 4)

/-- The decoder, total on any bytes. -/
def decode (site : Site) (bs : List Byte) : Except DecodeReject Instr :=
  if bs.length = site.byteLen then .ok (decodeAt site bs)
  else .error (.wrongLength site.byteLen bs.length)

/-! ### The encoder -/

/-- The four bytes of a command word (rule R91; log 16). -/
def encodeWord (c : Nat) : List Byte := leBytes 4 c

/-- The byte window of the code `v`: `w` bits, most significant first, from bit `off` of the window's first byte, the
other bits zero (rules R66, R92, R118). -/
def encodeCode (site : Site) (value : CodeCtx → Nat) : List Byte :=
  match site with
  | .command => []
  | .separator => []
  | .length => []
  | .code c => beBytes c.windowLen (value c * 2 ^ (8 * c.windowLen - (c.off + c.w)))
  | .mode => []

/-- The register image that selects a mode (rule R104): `BMP_BPP, BMP_COMP, BMP_MASK_R, BMP_MASK_G, BMP_MASK_B`. -/
def encodeMode (bpp comp maskR maskG maskB : Nat) : List Byte :=
  leBytes 4 bpp ++ leBytes 4 comp ++ leBytes 4 maskR ++ leBytes 4 maskG ++ leBytes 4 maskB

/-- The bytes of an instruction at a site where it is well-formed. A mode has many register images; the one given
here has `BMP_COMP = 0` where the mode allows it (log 16). -/
def encode (site : Site) (i : Instr) : List Byte :=
  match i with
  | .nop => encodeWord 0
  | .gifOpen => encodeWord 1
  | .gifConcat => encodeWord 2
  | .lzwRun => encodeWord 3
  | .bmpRender => encodeWord 4
  | .cmdReserved c => encodeWord c.toNat
  | .lzwClear => encodeCode site CodeCtx.clear
  | .lzwEoi => encodeCode site CodeCtx.eoi
  | .lzwFirst v => encodeCode site fun _ => v
  | .lzwDict v => encodeCode site fun _ => v
  | .lzwKwkwk => encodeCode site CodeCtx.next
  | .lzwRange v => encodeCode site fun _ => v
  | .gifImage => [0x2C]
  | .gifTrailer => [0x3B]
  | .gifBadsep b => [b]
  | .gifSubblock len => [len]
  | .gifTerminator => [0x00]
  | .bmpP1 => encodeMode 1 0 0 0 0
  | .bmpP4 => encodeMode 4 0 0 0 0
  | .bmpP8 => encodeMode 8 0 0 0 0
  | .bmpRgb555 => encodeMode 16 0 0 0 0
  | .bmpBf16 => encodeMode 16 1 0xF800 0x07E0 0x001F
  | .bmpBgr24 => encodeMode 24 0 0 0 0
  | .bmpBgra32 => encodeMode 32 0 0 0 0
  | .bmpBf32 => encodeMode 32 1 0x00FF0000 0x0000FF00 0x000000FF
  | .bmpIllegal bpp comp => encodeMode bpp.toNat comp.toNat 0 0 0

/-! ### The opcode table's words -/

/-- Where a word of spec/opcode_table.json with `nbits` bits stands (log 15): 32 bits is a command word; a byte that is
a separator of a fixed row (`0x2C`, `0x3B`) stands at a separator position and every other byte at a length
position. The 16-bit row is `BMP.RGB555`, whose word is a pixel sample and whose selection is by registers. -/
def tableSite (nbits w : Nat) : Option Site :=
  if nbits = 32 then some .command
  else if nbits = 8 then if w = 0x2C ∨ w = 0x3B then some .separator else some .length
  else if nbits = 16 then some .mode
  else none

/-- The bytes of a table word as its site lays them out. -/
def tableBytes (nbits w : Nat) : List Byte :=
  if nbits = 32 then encodeWord w
  else if nbits = 8 then [trunc8 w]
  else if nbits = 16 then encodeMode 16 0 0 0 0
  else []

/-- The instruction the decoder reads from a word of spec/opcode_table.json. -/
def decodeTableWord (nbits w : Nat) : Option Instr :=
  match tableSite nbits w with
  | none => none
  | some site =>
    match decode site (tableBytes nbits w) with
    | .ok i => some i
    | .error _ => none

end Sys2Proof
end

