-- ==== Sys2Proof/Machine/State.lean ====
section
/-! DEFINITION. The state of the limg decode core: every register of 10_state.md section 8, the four memories, the
dictionary, the place of the running unit in its loop, the parameters of rule R7 and the host's script. Registers
carry the spec's own names. -/

namespace Sys2Proof.Machine

/-! ### Names -/

/-- The four memory spaces (rule R60). -/
inductive Space where
  | src
  | cbuf
  | obuf
  | sink
  deriving DecidableEq, Repr

/-- Where a running unit stands in its loop; between two elements nothing else is remembered but registers and the
fields of State below. -/
inductive Phase where
  /-- Command start (rule R133): no unit has begun. No step leaves it behind (log 20). -/
  | start
  /-- `GSC` in `GIF_OPEN`, at a separator position (rule R197). -/
  | scan
  /-- `GSC` in `GIF_OPEN`, at a length position of a sub-block chain (rule R201). -/
  | skip
  /-- `GSC` in `GIF_CONCAT`, at a length position (rule R212). -/
  | concat
  /-- `LZWD` in its fetch loop (rule R225). -/
  | lzw
  /-- `BPD` in its pixel loop (rule R153). -/
  | bmp
  deriving DecidableEq, Repr

/-- `STATUS.STATE` (rule R22); while `BUSY` it carries which unit runs and where, which the host cannot see. -/
inductive RunState where
  | idle
  | busy (ph : Phase)
  | done
  | fault
  deriving DecidableEq, Repr

/-- The fields of `STATUS` (rule R22). Reserved bits are held by nothing: `Status.word` (Machine/Flags.lean) gives the
register as the host reads it (log 23). -/
structure Status where
  STATE : RunState
  STICKY_FAULT : Bool
  GIF_READY : Bool
  MULTIFRAME : Bool
  EOI_SEEN : Bool
  LAST_CMD : BitVec 4
  deriving DecidableEq, Repr

/-- The fault record (rule R23). -/
structure FaultRecord where
  FAULT_KIND : Word
  FAULT_CAUSE : Word
  FAULT_INFO : Word
  deriving DecidableEq, Repr

/-- The logical-screen record and the scan cursor (rule R26). -/
structure GifRegs where
  GIF_VERSION : Word
  GIF_SCREEN_W : Word
  GIF_SCREEN_H : Word
  GIF_FLAGS : Word
  GIF_BG : Word
  GIF_ASPECT : Word
  GIF_GCT_COLORS : Word
  GIF_GCT_OFF : Word
  GIF_FRAME_COUNT : Word
  GIF_POS : Word
  deriving DecidableEq, Repr

/-- The frame-0 record (rule R27). -/
structure Frame0Regs where
  F0_LEFT : Word
  F0_TOP : Word
  F0_W : Word
  F0_H : Word
  F0_FLAGS : Word
  F0_LCT_COLORS : Word
  F0_LCT_OFF : Word
  F0_CODESIZE : Word
  F0_DATA_OFF : Word
  deriving DecidableEq, Repr

/-- The LZW registers (rules R28, R29). -/
structure LzwRegs where
  LZW_N : Word
  LZW_CLEN : Word
  LZW_OLEN : Word
  LZW_BITPOS : Word
  LZW_W : Word
  LZW_NEXT : Word
  LZW_PREV : Word
  deriving DecidableEq, Repr

/-- The BMP parameter, mask, viewport and sink registers (rules R31 to R33). -/
structure BmpRegs where
  BMP_DATA_OFF : Word
  BMP_WIDTH : Word
  BMP_HEIGHT : Word
  BMP_BPP : Word
  BMP_COMP : Word
  BMP_PAL_BASE : Word
  BMP_PAL_COUNT : Word
  BMP_MASK_R : Word
  BMP_MASK_G : Word
  BMP_MASK_B : Word
  BMP_MASK_A : Word
  BMP_HAS_AMASK : Word
  VIEW_W : Word
  VIEW_H : Word
  SINK_STRIDE : Word
  deriving DecidableEq, Repr

/-- The BMP working registers (rule R34). -/
structure BmpWork where
  BMP_CUR : Word
  BMP_X : Word
  BMP_ROW : Word
  deriving DecidableEq, Repr

/-- A non-empty byte string: what the dictionary maps codes to (rule R30). -/
structure Str where
  head : Byte
  tail : List Byte
  deriving DecidableEq, Repr

/-- One action of the host, the agent outside the block (rules R16, R17; log 1). -/
inductive HostAction where
  /-- Write a register by index (rule R20); index 0 is `CMD` (rule R21). -/
  | writeReg (index : Nat) (v : Word)
  /-- Read a register by index (rule R20). -/
  | readReg (index : Nat)
  /-- Write one byte of a memory space (rule R61). -/
  | writeMem (sp : Space) (off : Nat) (b : Byte)
  /-- Read one byte of a memory space (rule R61). -/
  | readMem (sp : Space) (off : Nat)
  /-- Read `STATUS` until its `STATE` is not `BUSY` (rule R293). -/
  | poll
  /-- Do nothing while a running unit performs one element. -/
  | wait
  /-- Assert reset (rule R290). -/
  | reset
  deriving DecidableEq, Repr

/-- The causes of hardware faults (the table of rule R261). `Cause.code` and `Cause.kind` are in Machine/Flags.lean. -/
inductive Cause where
  | U_BAD_CMD
  | U_SRC_LEN
  | U_NOT_READY
  | U_CLEN
  | G_SHORT
  | G_BAD_SIGNATURE
  | G_BAD_VERSION
  | G_NO_TRAILER
  | G_ZERO_GEOMETRY
  | G_BAD_SEPARATOR
  | G_NO_FRAME
  | C_CBUF_FULL
  | L_BAD_CODE_SIZE
  | L_CODE_RANGE
  | L_WIDTH_CAP
  | L_OBUF_FULL
  | B_BAD_DEPTH
  | B_BAD_COMP
  | B_DEPTH_COMP
  | B_COMPRESSED
  | B_ZERO_GEOMETRY
  | B_GEOMETRY_OVERFLOW
  | B_NO_PALETTE
  | B_PALETTE_SIZE
  | B_DATA_REGION
  | B_PALETTE_INDEX
  | B_SRC_BOUNDS
  | B_SINK_BOUNDS
  deriving DecidableEq, Repr

/-- The error kinds (rule R260). -/
inductive Kind where
  | None
  | IoError
  | FormatError
  | TruncatedData
  | DecodeRangeError
  | Unsupported
  | ResourceLimit
  | UsageError
  deriving DecidableEq, Repr

/-! ### Reasons to stop

A fault of the hardware (rule R270) is not among them: it is recorded in registers and the machine goes on. -/

/-- Why the model's machine stops. Each is raised only in a state or by an access that rules exclude; safe. -/
inductive Fault where
  /-- The host accesses an offset at or beyond the space's capacity, where rule R60 says there is no byte. Raised by
  the host actions `readMem` and `writeMem`; safe (log 8). -/
  | noSuchOffset (sp : Space) (off : Nat)
  /-- A code class looked up a code that is not in `DICT`'s domain. Raised by `LZW.DICT` and `LZW.KWKWK` in states that
  break rule R237 (b) or (e), which no run reaches; safe (log 7). -/
  | dictAbsent (code : Nat)
  /-- `STATUS.STATE` is `BUSY` and no unit runs. Raised by a step from a state no run reaches; safe (log 20). -/
  | noUnit
  deriving DecidableEq, Repr

/-- Why the model gives no meaning. -/
inductive Refusal where
  /-- An instruction whose meaning is not written yet. Raised by refused arms of `exec` only; safe. -/
  | notModelled (mnemonic : String)
  /-- A command, or the host, reads a memory byte that nothing has written since reset: rule R38 asks for a refusal,
  "never as a read of 0". Raised by every memory read; safe (log 5). -/
  | unwrittenByte (sp : Space) (off : Nat)
  /-- The host accesses memory, or reads a register other than `STATUS`, while `BUSY`: "the model gives the host no such
  step" (rule R75, U3). Raised by the host actions `readMem`, `writeMem`, `readReg`; safe (log 9). -/
  | hostAccessWhileBusy
  /-- The fetched bytes are no instruction. Raised by a step whose fetch delivers the wrong number of bytes, which none
  does; safe. -/
  | undecodable (why : DecodeReject)
  /-- `BMP.ILLEGAL` with a pair of rule R104's table: no decoder gives it. Raised by `BMP.ILLEGAL`; safe (log 22). -/
  | illFormed
  deriving DecidableEq, Repr

/-! ### The state -/

/-- The state of the machine. -/
structure State where
  /-- The parameters of rule R7 and `EXPAND5`: fixed for the machine, every step keeps them (logs 2, 14). -/
  cfg : Config
  /-- `STATUS`, index `0x01` (rule R22). -/
  status : Status
  /-- `FAULT_KIND`, `FAULT_CAUSE`, `FAULT_INFO`, indices `0x02` to `0x04` (rule R23). -/
  fault : FaultRecord
  /-- `SRC_LEN`, index `0x05` (rule R25). -/
  SRC_LEN : Word
  /-- Indices `0x10` to `0x19` (rule R26). -/
  gif : GifRegs
  /-- Indices `0x20` to `0x28` (rule R27). -/
  frame0 : Frame0Regs
  /-- Indices `0x30` to `0x36` (rules R28, R29). -/
  lzw : LzwRegs
  /-- Indices `0x40` to `0x4E` (rules R31 to R33). -/
  bmp : BmpRegs
  /-- Indices `0x4F` to `0x51` (rule R34). -/
  bmpWork : BmpWork
  /-- `SRC` (rule R60): the bytes written since reset, by rising offset. -/
  src : List Host.Cell
  /-- `CBUF` (rule R60). -/
  cbuf : List Host.Cell
  /-- `OBUF` (rule R60). -/
  obuf : List Host.Cell
  /-- `SINK` (rule R60). -/
  sink : List Host.Cell
  /-- `DICT` (rule R30): a partial function from codes to non-empty byte strings, by rising code. -/
  dict : List (Nat × Str)
  /-- The cursor `p`, `q` of 42_gif_container.md, an unbounded natural: the offset of the next separator or length byte.
  `GIF_POS` is rule R24's register view of it (log 4). -/
  gscPos : Nat
  /-- The count `k` of rule R212: bytes copied to `CBUF` so far (log 4). -/
  gscCount : Nat
  /-- The host's next actions (log 1). -/
  host : List HostAction
  /-- What the host's last read returned (log 10). -/
  hostData : Word
  /-- `STATUS` as it stood before the last command: what a host that reads `STATUS` while `BUSY` sees beside `BUSY`, since
  it never observes a state in between (rule R132; log 25). -/
  statusBefore : Status
  deriving DecidableEq, Repr

/-- The machine with parameters `cfg` right after reset (rules R37, R290, R291): every register 0, no memory byte
written, `DICT` empty (log 6), no command. -/
def State.resetWith (cfg : Config) : State where
  cfg := cfg
  status :=
    { STATE := .idle, STICKY_FAULT := false, GIF_READY := false, MULTIFRAME := false, EOI_SEEN := false, LAST_CMD := 0 }
  fault := { FAULT_KIND := 0, FAULT_CAUSE := 0, FAULT_INFO := 0 }
  SRC_LEN := 0
  gif :=
    { GIF_VERSION := 0, GIF_SCREEN_W := 0, GIF_SCREEN_H := 0, GIF_FLAGS := 0, GIF_BG := 0, GIF_ASPECT := 0,
      GIF_GCT_COLORS := 0, GIF_GCT_OFF := 0, GIF_FRAME_COUNT := 0, GIF_POS := 0 }
  frame0 :=
    { F0_LEFT := 0, F0_TOP := 0, F0_W := 0, F0_H := 0, F0_FLAGS := 0, F0_LCT_COLORS := 0, F0_LCT_OFF := 0,
      F0_CODESIZE := 0, F0_DATA_OFF := 0 }
  lzw :=
    { LZW_N := 0, LZW_CLEN := 0, LZW_OLEN := 0, LZW_BITPOS := 0, LZW_W := 0, LZW_NEXT := 0, LZW_PREV := 0 }
  bmp :=
    { BMP_DATA_OFF := 0, BMP_WIDTH := 0, BMP_HEIGHT := 0, BMP_BPP := 0, BMP_COMP := 0, BMP_PAL_BASE := 0,
      BMP_PAL_COUNT := 0, BMP_MASK_R := 0, BMP_MASK_G := 0, BMP_MASK_B := 0, BMP_MASK_A := 0, BMP_HAS_AMASK := 0,
      VIEW_W := 0, VIEW_H := 0, SINK_STRIDE := 0 }
  bmpWork := { BMP_CUR := 0, BMP_X := 0, BMP_ROW := 0 }
  src := []
  cbuf := []
  obuf := []
  sink := []
  dict := []
  gscPos := 0
  gscCount := 0
  host := []
  hostData := 0
  statusBefore :=
    { STATE := .idle, STICKY_FAULT := false, GIF_READY := false, MULTIFRAME := false, EOI_SEEN := false, LAST_CMD := 0 }

/-- The machine right after reset, with the parameters of `Config.default` (log 2). -/
def State.reset : State := State.resetWith Config.default

/-- What a meaning answers. -/
abbrev Out := Host.Outcome State Fault Refusal

end Sys2Proof.Machine
end

