-- ==== Sys2Proof/Machine/Flags.lean ====
section
/-! DEFINITION. `STATUS` as the host reads it, the numbers of fault kinds and causes, and what sets and clears each flag
(rules R22, R35, R260, R261). -/

namespace Sys2Proof.Machine

/-! ### `STATUS` -/

/-- Bits `[1:0]` of `STATUS` (rule R22). -/
def RunState.code : RunState → BitVec 2
  | .idle => 0
  | .busy _ => 1
  | .done => 2
  | .fault => 3

/-- Is a command running? -/
def RunState.isBusy : RunState → Bool
  | .idle => false
  | .busy _ => true
  | .done => false
  | .fault => false

/-- The `STATUS` register (rule R22): `[31:12]` zero, `[11:8] LAST_CMD`, `7` zero, `6 EOI_SEEN`, `5 MULTIFRAME`,
`4 GIF_READY`, `3 STICKY_FAULT`, `2` zero, `[1:0] STATE`. -/
def Status.word (st : Status) : Word :=
  0#20 ++ st.LAST_CMD ++ 0#1 ++ BitVec.ofBool st.EOI_SEEN ++ BitVec.ofBool st.MULTIFRAME ++
    BitVec.ofBool st.GIF_READY ++ BitVec.ofBool st.STICKY_FAULT ++ 0#1 ++ st.STATE.code

/-- `STATUS.STATE = BUSY`. -/
def State.busy (s : State) : Bool := s.status.STATE.isBusy

/-- `STATUS` as the host sees it while a command runs: `BUSY` (rule R75), and beside it the fields as they stood before the
command (rule R132; log 25). -/
def State.statusWhileBusy (s : State) : Word := { s.statusBefore with STATE := s.status.STATE }.word

/-- Keep `STATUS` as it stands before a command, for `State.statusWhileBusy`. -/
def State.keepStatus (s : State) : State := { s with statusBefore := s.status }

/-- `STATUS.STATE <- v` (rule R35). -/
def State.setState (v : RunState) (s : State) : State := { s with status := { s.status with STATE := v } }

/-- `STATUS.GIF_READY <- v` (rules R25, R190, R205). -/
def State.setReady (v : Bool) (s : State) : State := { s with status := { s.status with GIF_READY := v } }

/-- `STATUS.MULTIFRAME <- v` (rules R190, R202). -/
def State.setMultiframe (v : Bool) (s : State) : State := { s with status := { s.status with MULTIFRAME := v } }

/-- `STATUS.EOI_SEEN <- v` (rules R224, R228). -/
def State.setEoi (v : Bool) (s : State) : State := { s with status := { s.status with EOI_SEEN := v } }

/-! ### Kinds and causes -/

/-- The value of `FAULT_KIND` (rule R260). -/
def Kind.code : Kind → Word
  | .None => 0
  | .IoError => 1
  | .FormatError => 2
  | .TruncatedData => 3
  | .DecodeRangeError => 4
  | .Unsupported => 5
  | .ResourceLimit => 6
  | .UsageError => 7

/-- The value of `FAULT_CAUSE` (the table of rule R261, column "code"). -/
def Cause.code : Cause → Word
  | .U_BAD_CMD => 0x01
  | .U_SRC_LEN => 0x02
  | .U_NOT_READY => 0x03
  | .U_CLEN => 0x04
  | .G_SHORT => 0x10
  | .G_BAD_SIGNATURE => 0x11
  | .G_BAD_VERSION => 0x12
  | .G_NO_TRAILER => 0x13
  | .G_ZERO_GEOMETRY => 0x14
  | .G_BAD_SEPARATOR => 0x15
  | .G_NO_FRAME => 0x16
  | .C_CBUF_FULL => 0x17
  | .L_BAD_CODE_SIZE => 0x20
  | .L_CODE_RANGE => 0x21
  | .L_WIDTH_CAP => 0x22
  | .L_OBUF_FULL => 0x23
  | .B_BAD_DEPTH => 0x30
  | .B_BAD_COMP => 0x31
  | .B_DEPTH_COMP => 0x32
  | .B_COMPRESSED => 0x33
  | .B_ZERO_GEOMETRY => 0x34
  | .B_GEOMETRY_OVERFLOW => 0x35
  | .B_NO_PALETTE => 0x36
  | .B_PALETTE_SIZE => 0x37
  | .B_DATA_REGION => 0x38
  | .B_PALETTE_INDEX => 0x39
  | .B_SRC_BOUNDS => 0x3A
  | .B_SINK_BOUNDS => 0x3B

/-- The one kind a cause belongs to (the table of rule R261, column "kind"). -/
def Cause.kind : Cause → Kind
  | .U_BAD_CMD => .UsageError
  | .U_SRC_LEN => .UsageError
  | .U_NOT_READY => .UsageError
  | .U_CLEN => .UsageError
  | .G_SHORT => .TruncatedData
  | .G_BAD_SIGNATURE => .FormatError
  | .G_BAD_VERSION => .FormatError
  | .G_NO_TRAILER => .FormatError
  | .G_ZERO_GEOMETRY => .FormatError
  | .G_BAD_SEPARATOR => .FormatError
  | .G_NO_FRAME => .FormatError
  | .C_CBUF_FULL => .ResourceLimit
  | .L_BAD_CODE_SIZE => .FormatError
  | .L_CODE_RANGE => .DecodeRangeError
  | .L_WIDTH_CAP => .ResourceLimit
  | .L_OBUF_FULL => .ResourceLimit
  | .B_BAD_DEPTH => .FormatError
  | .B_BAD_COMP => .FormatError
  | .B_DEPTH_COMP => .FormatError
  | .B_COMPRESSED => .Unsupported
  | .B_ZERO_GEOMETRY => .FormatError
  | .B_GEOMETRY_OVERFLOW => .FormatError
  | .B_NO_PALETTE => .FormatError
  | .B_PALETTE_SIZE => .FormatError
  | .B_DATA_REGION => .TruncatedData
  | .B_PALETTE_INDEX => .DecodeRangeError
  | .B_SRC_BOUNDS => .TruncatedData
  | .B_SINK_BOUNDS => .ResourceLimit

end Sys2Proof.Machine
end

