-- ==== Sys2Proof/Machine/Ops.lean ====
section
/-! DEFINITION. The operations the meanings share: tables by rising key (memories and the dictionary), command start,
normal completion, fault entry, and the memory primitives of rules R62 to R67. A primitive that can end the
command takes what follows it as its last argument: it runs the rest, or it answers fault entry or a refusal. -/

namespace Sys2Proof.Machine

/-! ### Tables: the canonical form of memories and of the dictionary -/

/-- What a table holds at a key; `none` where nothing is listed. -/
def Table.get {α : Type} : List (Nat × α) → Nat → Option α
  | [], _ => none
  | (k, v) :: t, a => if k = a then some v else Table.get t a

/-- Put a value at a key, keeping the keys rising. -/
def Table.set {α : Type} : List (Nat × α) → Nat → α → List (Nat × α)
  | [], a, x => [(a, x)]
  | (k, v) :: t, a, x =>
    if a < k then (a, x) :: (k, v) :: t
    else if a = k then (a, x) :: t
    else (k, v) :: Table.set t a x

/-- The canonical form: keys strictly rising. -/
abbrev Table.Rising {α : Type} (t : List (Nat × α)) : Prop := t.Pairwise fun x y => x.1 < y.1

/-- The canonical form of a memory. An unlisted offset reads as nothing (rule R38), so no entry can equal it. -/
abbrev Memory.wf (m : List Host.Cell) : Prop := Table.Rising m

/-- The capacity of a space (rule R60). -/
def capacity (c : Config) : Space → Nat
  | .src => c.SRC_CAP
  | .cbuf => c.CBUF_CAP
  | .obuf => c.OBUF_CAP
  | .sink => c.SINK_CAP

/-- A memory space's contents. -/
def State.mem (s : State) : Space → List Host.Cell
  | .src => s.src
  | .cbuf => s.cbuf
  | .obuf => s.obuf
  | .sink => s.sink

/-- The byte of a space at an offset; `none` where nothing has written since reset (rule R38). -/
def State.byteAt (s : State) (sp : Space) (off : Nat) : Option Byte := Table.get (s.mem sp) off

/-- Write one byte of a space (rule R70). -/
def State.writeByte (sp : Space) (off : Nat) (b : Byte) (s : State) : State :=
  match sp with
  | .src => { s with src := Table.set s.src off b }
  | .cbuf => { s with cbuf := Table.set s.cbuf off b }
  | .obuf => { s with obuf := Table.set s.obuf off b }
  | .sink => { s with sink := Table.set s.sink off b }

/-! ### Commands and faults -/

/-- Command start on the command word `c` (rule R133, its first five assignments). -/
def commandStart (c : Word) (s : State) : State :=
  { s with
    status := { s.status with STATE := .busy .start, LAST_CMD := c.setWidth 4 }
    fault := { FAULT_KIND := 0, FAULT_CAUSE := 0, FAULT_INFO := 0 } }

/-- Normal completion, `stop(DONE)` (rule R134). -/
def stop (s : State) : State := s.setState .done

/-- Fault entry, `raise Kind(CAUSE, info)` (rule R270): the kind is the cause's (rule R261). There is no return from
it: the next command start clears the record (rule R271). -/
def faultEntry (c : Cause) (info : Nat) (s : State) : State :=
  { s with
    status := { s.status with STATE := .fault, STICKY_FAULT := true }
    fault := { FAULT_KIND := c.kind.code, FAULT_CAUSE := c.code, FAULT_INFO := trunc32 info } }

/-- `raise`: the machine goes on, in the state of fault entry. -/
def raise (c : Cause) (info : Nat) (s : State) : Out := .next (faultEntry c info s)

/-- The check of `SRC_LEN` at command start, for the commands that read `SRC` (rule R133). -/
def checkSrcLen (s : State) (k : State → Out) : Out :=
  if s.cfg.SRC_CAP < s.SRC_LEN.toNat then raise .U_SRC_LEN s.SRC_LEN.toNat s else k s

/-! ### Memory primitives -/

/-- `SrcRead(a)` with the calling rule's cause (rule R62). -/
def srcRead (c : Cause) (a : Nat) (s : State) (k : Byte → Out) : Out :=
  if s.SRC_LEN.toNat ≤ a then raise c a s
  else
    match s.byteAt .src a with
    | none => .refused (.unwrittenByte .src a)
    | some b => k b

/-- `le16(SRC, a)`: two reads in ascending offset order (rule R67). -/
def srcRead16 (c : Cause) (a : Nat) (s : State) (k : Nat → Out) : Out :=
  srcRead c a s fun b0 => srcRead c (a + 1) s fun b1 => k (leNat [b0, b1])

/-- `le32(SRC, a)`: four reads in ascending offset order (rule R67). -/
def srcRead32 (c : Cause) (a : Nat) (s : State) (k : Nat → Out) : Out :=
  srcRead c a s fun b0 => srcRead c (a + 1) s fun b1 =>
    srcRead c (a + 2) s fun b2 => srcRead c (a + 3) s fun b3 => k (leNat [b0, b1, b2, b3])

/-- The bytes of `CBUF` from offset `a`, in ascending order; the first unwritten offset where there is one. -/
def cbufBytes (s : State) (a : Nat) : Nat → Except Nat (List Byte)
  | 0 => .ok []
  | m + 1 =>
    match s.byteAt .cbuf a with
    | none => .error a
    | some b =>
      match cbufBytes s (a + 1) m with
      | .error e => .error e
      | .ok bs => .ok (b :: bs)

/-- `MemWrite(CBUF, k, 1, b)` (rule R63). -/
def cbufWrite (off : Nat) (b : Byte) (s : State) (k : State → Out) : Out :=
  if s.cfg.CBUF_CAP ≤ off then raise .C_CBUF_FULL off s else k (s.writeByte .cbuf off b)

/-- What `ObufAppend(b)` does when it fits (rule R64). -/
def obufPut (b : Byte) (s : State) : State :=
  let t := s.writeByte .obuf s.lzw.LZW_OLEN.toNat b
  { t with lzw := { t.lzw with LZW_OLEN := trunc32 (t.lzw.LZW_OLEN.toNat + 1) } }

/-- `ObufAppend(b)` (rule R64). -/
def obufAppend (b : Byte) (s : State) (k : State → Out) : Out :=
  if s.cfg.OBUF_CAP ≤ s.lzw.LZW_OLEN.toNat then raise .L_OBUF_FULL s.lzw.LZW_OLEN.toNat s else k (obufPut b s)

/-- `Emit(s)`: the bytes are appended in order, and those before an overflow stay (rule R234). -/
def emit : List Byte → State → (State → Out) → Out
  | [], s, k => k s
  | b :: bs, s, k => obufAppend b s fun t => emit bs t k

/-- The four bytes of a Pixel Sink cell (rule R115). -/
structure Cell where
  r : Byte
  g : Byte
  b : Byte
  a : Byte
  deriving DecidableEq, Repr

/-- The offset of the cell `(x, y)` (rules R65, R115), in unbounded arithmetic. -/
def sinkOffset (s : State) (x y : Nat) : Nat := (y * s.bmp.SINK_STRIDE.toNat + x) * CELL

/-- The four byte writes of a cell, in the order R, G, B, A (rules R65, R70). -/
def sinkPut (off : Nat) (px : Cell) (s : State) : State :=
  (((s.writeByte .sink off px.r).writeByte .sink (off + 1) px.g).writeByte .sink (off + 2) px.b).writeByte .sink
    (off + 3) px.a

/-- `SinkWrite(x, y, R, G, B, A)` (rule R65). -/
def sinkWrite (x y : Nat) (px : Cell) (s : State) (k : State → Out) : Out :=
  let off := sinkOffset s x y
  if s.cfg.SINK_CAP < off + CELL then raise .B_SINK_BOUNDS off s else k (sinkPut off px s)

/-! ### The dictionary -/

/-- The value `NONE` of `LZW_PREV` (rule R29). -/
def NONE : Word := 0xFFFFFFFF

/-- The byte string of a dictionary entry (rule R30). -/
def Str.toList (x : Str) : List Byte := x.head :: x.tail

/-- `x ++ [b]`. -/
def Str.snoc (x : Str) (b : Byte) : Str := { head := x.head, tail := x.tail ++ [b] }

/-- The one-byte string of a literal code. -/
def Str.literal (c : Nat) : Str := { head := trunc8 c, tail := [] }

/-- The function with domain `[0, m)` that maps a literal code to its one-byte string (rule R224). -/
def literals (m : Nat) : List (Nat × Str) := (List.range m).map fun c => (c, Str.literal c)

/-- `DICT[c]`; a code outside the domain stops the model (log 7). -/
def dictRead (c : Nat) (s : State) (k : Str → Out) : Out :=
  match Table.get s.dict c with
  | none => .fault (.dictAbsent c)
  | some x => k x

/-- `DictReset` (rule R224). -/
def dictReset (s : State) : State :=
  let n := s.lzw.LZW_N.toNat
  { s with
    dict := literals (2 ^ n)
    lzw := { s.lzw with LZW_W := trunc32 (n + 1), LZW_NEXT := trunc32 (2 ^ n + 2), LZW_PREV := NONE } }

/-- `Insert(x)` and width growth (rule R232). -/
def dictInsert (x : Str) (s : State) : State :=
  let next := s.lzw.LZW_NEXT.toNat + 1
  let w := s.lzw.LZW_W.toNat
  { s with
    dict := Table.set s.dict s.lzw.LZW_NEXT.toNat x
    lzw := { s.lzw with
      LZW_NEXT := trunc32 next
      LZW_W := if next = 2 ^ w then trunc32 (w + 1) else s.lzw.LZW_W } }

end Sys2Proof.Machine
end

