-- ==== Sys2Proof/Machine/Operands.lean ====
section
/-! DEFINITION. Operands and addresses: table sizes, the reading context of an LZW code, the BMP stride and address
formulas, palette lookup, channel expansion and scaling, and the pixel each mode reads (rules R66, R98, R105 to R116,
R152, R160 to R171). -/

namespace Sys2Proof.Machine

/-! ### GIF operands -/

/-- Bit 7 of a flags byte: a colour table follows (rules R97, R101). -/
def hasTable (flags : Byte) : Bool := flags.getLsbD 7

/-- `2^(e+1)` colours, `e` the flags byte's bits `[2:0]` (rules R97, R98, R101, R116). -/
def tableColors (flags : Byte) : Nat := 2 ^ (flags.toNat % 8 + 1)

/-- The bytes of a colour table (rule R98). -/
def tableBytesLen (flags : Byte) : Nat := 3 * tableColors flags

/-- A digit of the version rule (rule R95). -/
def isDigit (b : Byte) : Bool := 0x30 ≤ b.toNat && b.toNat ≤ 0x39

/-- A letter of the version rule (rule R95). -/
def isLetter (b : Byte) : Bool := (0x41 ≤ b.toNat && b.toNat ≤ 0x5A) || (0x61 ≤ b.toNat && b.toNat ≤ 0x7A)

/-- `GIF_VERSION` for the three version bytes; `none` where they are no version (rule R192). -/
def versionCode (v0 v1 v2 : Byte) : Option Word :=
  if v0 = 0x38 ∧ v1 = 0x37 ∧ v2 = 0x61 then some 1
  else if v0 = 0x38 ∧ v1 = 0x39 ∧ v2 = 0x61 then some 2
  else if isDigit v0 && isDigit v1 && isLetter v2 then some 3
  else none

/-! ### LZW operands -/

/-- What the class of the next code depends on (rule R92), and where in its first byte the code starts. -/
def codeCtx (s : State) : CodeCtx where
  n := s.lzw.LZW_N.toNat
  w := s.lzw.LZW_W.toNat
  next := s.lzw.LZW_NEXT.toNat
  hasPrev := s.lzw.LZW_PREV != NONE
  off := s.lzw.LZW_BITPOS.toNat % 8

/-! ### BMP addresses -/

/-- The stride of a file row in bytes, unbounded (rules R113, R152). -/
def stride (s : State) : Nat := (s.bmp.BMP_BPP.toNat * s.bmp.BMP_WIDTH.toNat + 31) / 32 * ROW_ALIGN

/-- The offset of the file row `fr` (rules R113, R153). -/
def rowBase (s : State) (fr : Nat) : Nat := s.bmp.BMP_DATA_OFF.toNat + fr * stride s

/-- The offset of the byte that holds the first sample bit of column `col` (rules R153, R155). -/
def sampleOffset (s : State) (fr col : Nat) : Nat := rowBase s fr + s.bmp.BMP_BPP.toNat * col / 8

/-- The offset of a palette entry (rules R72, R114, R163). -/
def paletteOffset (s : State) (index : Nat) : Nat := s.bmp.BMP_PAL_BASE.toNat + index * PAL_STRIDE

/-! ### Channels -/

/-- `EXPAND5` of the low five bits of `c`, by the machine's configuration (rules R6, R166; conflict C2; log 14). -/
def expand5 (cfg : Config) (c : Nat) : Byte := cfg.EXPAND5[c % 32]

/-- `bfscale(raw, mask)` for `mask ≠ 0` (rule R168). -/
def bfscale (pb : ProdBits) (raw mask : Nat) : Byte :=
  let t := raw &&& mask
  let prod :=
    match pb with
    | .unbounded => t * 255
    | .bits32 => t * 255 % 2 ^ 32
  trunc8 (prod / mask)

/-- A BitFields channel: scaled by its mask when the mask is nonzero, else `absent` (rules R167, R171). -/
def channel (pb : ProdBits) (raw : Nat) (mask : Word) (absent : Byte) : Byte :=
  if mask = 0 then absent else bfscale pb raw mask.toNat

/-- The BitFields alpha channel: present when `BMP_HAS_AMASK[0] = 1` and the mask is nonzero, else 255 (rules R167, R171,
R172). -/
def alphaChannel (s : State) (raw : Nat) : Byte :=
  if s.bmp.BMP_HAS_AMASK.getLsbD 0 then channel s.cfg.BF_PROD_BITS raw s.bmp.BMP_MASK_A 255 else 255

/-- The cell of a BitFields word (rules R167, R171). A zero colour mask gives 0 (rule R167); `BMP.BF32` is selected only
when none is (rule R104; log 13). -/
def maskedCell (s : State) (raw : Nat) : Cell where
  r := channel s.cfg.BF_PROD_BITS raw s.bmp.BMP_MASK_R 0
  g := channel s.cfg.BF_PROD_BITS raw s.bmp.BMP_MASK_G 0
  b := channel s.cfg.BF_PROD_BITS raw s.bmp.BMP_MASK_B 0
  a := alphaChannel s raw

/-- The cell of an RGB555 word (rules R108, R165). -/
def rgb555Cell (s : State) (v : Nat) : Cell where
  r := expand5 s.cfg (v / 1024)
  g := expand5 s.cfg (v / 32)
  b := expand5 s.cfg v
  a := 255

/-! ### The pixel of each mode -/

/-- `PalColour(index)`: the index check, then the three bytes in the order B, G, R (rules R163, R164). -/
def palColour (index : Nat) (s : State) (k : Cell → Out) : Out :=
  if s.bmp.BMP_PAL_COUNT ≠ 0 ∧ s.bmp.BMP_PAL_COUNT.toNat ≤ index then raise .B_PALETTE_INDEX index s
  else
    let e := paletteOffset s index
    srcRead .B_SRC_BOUNDS e s fun b => srcRead .B_SRC_BOUNDS (e + 1) s fun g =>
      srcRead .B_SRC_BOUNDS (e + 2) s fun r => k { r := r, g := g, b := b, a := 255 }

/-- Rule R160: bit `7 - (col mod 8)` of byte `rowbase + col div 8` (layout R105). -/
def pixelP1 (base col : Nat) (s : State) (k : Cell → Out) : Out :=
  srcRead .B_SRC_BOUNDS (base + col / 8) s fun b => palColour ((b.toNat >>> (7 - col % 8)) % 2) s k

/-- Rule R161: the high nibble of byte `rowbase + col div 2` for even `col`, else the low one (layout R106). -/
def pixelP4 (base col : Nat) (s : State) (k : Cell → Out) : Out :=
  srcRead .B_SRC_BOUNDS (base + col / 2) s fun b =>
    palColour (if col % 2 = 0 then b.toNat / 16 else b.toNat % 16) s k

/-- Rule R162: the byte `rowbase + col` (layout R107). -/
def pixelP8 (base col : Nat) (s : State) (k : Cell → Out) : Out :=
  srcRead .B_SRC_BOUNDS (base + col) s fun b => palColour b.toNat s k

/-- Rule R165: the word at `rowbase + 2 * col` (layout R108). -/
def pixelRgb555 (base col : Nat) (s : State) (k : Cell → Out) : Out :=
  srcRead16 .B_SRC_BOUNDS (base + 2 * col) s fun v => k (rgb555Cell s v)

/-- Rule R167: the word at `rowbase + 2 * col` through the masks (layout R109). -/
def pixelBf16 (base col : Nat) (s : State) (k : Cell → Out) : Out :=
  srcRead16 .B_SRC_BOUNDS (base + 2 * col) s fun v => k (maskedCell s v)

/-- Rule R169: the bytes B, G, R at `rowbase + 3 * col` (layout R110). -/
def pixelBgr24 (base col : Nat) (s : State) (k : Cell → Out) : Out :=
  let a := base + 3 * col
  srcRead .B_SRC_BOUNDS a s fun b => srcRead .B_SRC_BOUNDS (a + 1) s fun g =>
    srcRead .B_SRC_BOUNDS (a + 2) s fun r => k { r := r, g := g, b := b, a := 255 }

/-- Rule R170: the bytes B, G, R, A at `rowbase + 4 * col` (layout R111). -/
def pixelBgra32 (base col : Nat) (s : State) (k : Cell → Out) : Out :=
  let a := base + 4 * col
  srcRead .B_SRC_BOUNDS a s fun b => srcRead .B_SRC_BOUNDS (a + 1) s fun g =>
    srcRead .B_SRC_BOUNDS (a + 2) s fun r => srcRead .B_SRC_BOUNDS (a + 3) s fun al =>
      k { r := r, g := g, b := b, a := al }

/-- Rule R171: the word at `rowbase + 4 * col` through the masks (layout R112). -/
def pixelBf32 (base col : Nat) (s : State) (k : Cell → Out) : Out :=
  srcRead32 .B_SRC_BOUNDS (base + 4 * col) s fun v => k (maskedCell s v)

end Sys2Proof.Machine
end

