-- ==== Sys2Proof/Machine/Bmp.lean ====
section
/-! DEFINITION. The unit `BPD`: the command `BMP_RENDER` up to its first pixel, and the eight pixel modes, one pixel a step
(41_bmp_pixel_plane.md; rule R132 allows the small steps, log 3). -/

namespace Sys2Proof.Machine

/-! ### Start -/

/-- Start checks (1) to (4): depth, method, their agreement, compressed methods (rule R151). -/
def modeFault (bpp comp : Nat) : Option (Cause × Nat) :=
  if bpp ≠ 1 ∧ bpp ≠ 4 ∧ bpp ≠ 8 ∧ bpp ≠ 16 ∧ bpp ≠ 24 ∧ bpp ≠ 32 then some (.B_BAD_DEPTH, bpp)
  else if 6 < comp then some (.B_BAD_COMP, comp)
  else if (comp = 1 ∧ bpp ≠ 16 ∧ bpp ≠ 32) ∨ (comp = 2 ∧ bpp ≠ 4) ∨ (comp = 3 ∧ bpp ≠ 8) then
    some (.B_DEPTH_COMP, comp)
  else if 2 ≤ comp then some (.B_COMPRESSED, comp)
  else none

/-- Start checks (5) to (9): geometry, palette, pixel region (rule R151). -/
def geometryFault (s : State) : Option (Cause × Nat) :=
  let w := s.bmp.BMP_WIDTH.toNat
  let h := s.bmp.BMP_HEIGHT.toNat
  let bpp := s.bmp.BMP_BPP.toNat
  let count := s.bmp.BMP_PAL_COUNT.toNat
  if w = 0 ∨ h = 0 then some (.B_ZERO_GEOMETRY, 0)
  else if 2 ^ 32 ≤ w * h then some (.B_GEOMETRY_OVERFLOW, 0)
  else if bpp = 1 ∧ count = 0 then some (.B_NO_PALETTE, 0)
  else if (bpp = 1 ∨ bpp = 4 ∨ bpp = 8) ∧ 2 ^ bpp < count then some (.B_PALETTE_SIZE, count)
  else if s.SRC_LEN.toNat < s.bmp.BMP_DATA_OFF.toNat + stride s * h then
    some (.B_DATA_REGION, s.bmp.BMP_DATA_OFF.toNat)
  else none

/-- The first start check of `BMP_RENDER` that fails, with its information word (rule R151). -/
def bmpStartFault (s : State) : Option (Cause × Nat) :=
  match modeFault s.bmp.BMP_BPP.toNat s.bmp.BMP_COMP.toNat with
  | some f => some f
  | none => geometryFault s

/-- The working registers at the pixel of column `col` of file row `fr` (rule R153). -/
def bmpAt (fr col : Nat) (s : State) : State :=
  { s with bmpWork :=
      { BMP_CUR := trunc32 (sampleOffset s fr col), BMP_X := trunc32 col, BMP_ROW := trunc32 fr } }

/-- `BMP_RENDER`: command start, the start checks, the first pixel's place (rules R150 to R153); the pixels are the next
steps. -/
def execBmpRender (s : State) : Out :=
  checkSrcLen (commandStart 4 s) fun s =>
    match bmpStartFault s with
    | some (c, info) => raise c info s
    | none => .next (bmpAt 0 0 (s.setState (.busy .bmp)))

/-- `BMP.ILLEGAL`: the fault of checks (1) to (4) of rule R151 for the pair; a pair of rule R104's table is no such
instruction (log 22). -/
def execBmpIllegal (bpp comp : Word) (s : State) : Out :=
  match modeFault bpp.toNat comp.toNat with
  | some (c, info) => raise c info s
  | none => .refused .illFormed

/-! ### The pixel loop -/

/-- After the pixel at `(fr, col)`: the next column, else the next file row, else the end of the command (rule R153). -/
def bmpNext (fr col : Nat) (s : State) : State :=
  if col + 1 < s.bmp.BMP_WIDTH.toNat then bmpAt fr (col + 1) s
  else if fr + 1 < s.bmp.BMP_HEIGHT.toNat then bmpAt (fr + 1) 0 s
  else
    stop { s with bmpWork :=
      { BMP_CUR := trunc32 (s.bmp.BMP_DATA_OFF.toNat + stride s * s.bmp.BMP_HEIGHT.toNat)
        BMP_X := 0, BMP_ROW := s.bmp.BMP_HEIGHT } }

/-- The display row of a file row: bottom-up storage (rules R16, R153). -/
def displayRow (s : State) (fr : Nat) : Nat := s.bmp.BMP_HEIGHT.toNat - 1 - fr

/-- Is the pixel inside the viewport (rule R154)? -/
def inViewport (s : State) (fr col : Nat) : Bool :=
  col < s.bmp.VIEW_W.toNat && displayRow s fr < s.bmp.VIEW_H.toNat

/-- One pixel of the loop of rule R153, in the mode whose rule is `pixel`: decode it, write it if it is inside the
viewport, go on. -/
def renderPixel (pixel : Nat → Nat → State → (Cell → Out) → Out) (s : State) : Out :=
  let fr := s.bmpWork.BMP_ROW.toNat
  let col := s.bmpWork.BMP_X.toNat
  pixel (rowBase s fr) col s fun px =>
    if inViewport s fr col then sinkWrite col (displayRow s fr) px s fun s => .next (bmpNext fr col s)
    else .next (bmpNext fr col s)

/-- `BMP.P1` (rule R160). -/
def execBmpP1 (s : State) : Out := renderPixel pixelP1 s

/-- `BMP.P4` (rule R161). -/
def execBmpP4 (s : State) : Out := renderPixel pixelP4 s

/-- `BMP.P8` (rule R162). -/
def execBmpP8 (s : State) : Out := renderPixel pixelP8 s

/-- `BMP.RGB555` (rule R165). -/
def execBmpRgb555 (s : State) : Out := renderPixel pixelRgb555 s

/-- `BMP.BF16` (rule R167). -/
def execBmpBf16 (s : State) : Out := renderPixel pixelBf16 s

/-- `BMP.BGR24` (rule R169). -/
def execBmpBgr24 (s : State) : Out := renderPixel pixelBgr24 s

/-- `BMP.BGRA32` (rule R170). -/
def execBmpBgra32 (s : State) : Out := renderPixel pixelBgra32 s

/-- `BMP.BF32` (rule R171). -/
def execBmpBf32 (s : State) : Out := renderPixel pixelBf32 s

end Sys2Proof.Machine
end

