-- ==== Sys2Proof/Machine/Command.lean ====
section
/-! DEFINITION. The host commands that run no unit: `NOP` and the reserved command words (40_host_commands.md). -/

namespace Sys2Proof.Machine

/-- `NOP`: command start, then `stop(DONE)` (rule R135). -/
def execNop (s : State) : Out := .next (stop (commandStart 0 s))

/-- A command word above 4: command start, then the fault (rules R133, R140). -/
def execCmdReserved (c : Word) (s : State) : Out := raise .U_BAD_CMD c.toNat (commandStart c s)

end Sys2Proof.Machine
end

