-- ==== Sys2Proof/Machine/Gif.lean ====
section
/-! DEFINITION. The unit `GSC`: the commands `GIF_OPEN` and `GIF_CONCAT` up to the first element of their loops, and the
container elements, one step each (42_gif_container.md; rule R132 allows the small steps, log 3). -/

namespace Sys2Proof.Machine

/-- `p <- q`, shown by `GIF_POS` (head of 42_gif_container.md), with the unit at the place `ph` of its loop. -/
def gscAt (ph : Phase) (p : Nat) (s : State) : State :=
  let t := s.setState (.busy ph)
  { t with gscPos := p, gif := { t.gif with GIF_POS := trunc32 p } }

/-! ### `GIF_OPEN` -/

/-- Update the logical-screen record. -/
def State.modifyGif (f : GifRegs → GifRegs) (s : State) : State := { s with gif := f s.gif }

/-- The flags and records `GIF_OPEN` clears (rule R190). -/
def gifClear (s : State) : State :=
  let t := (s.setReady false).setMultiframe false
  { t with gif := (State.resetWith s.cfg).gif, frame0 := (State.resetWith s.cfg).frame0 }

/-- Signature (rule R191). -/
def gifSignature (s : State) (k : State → Out) : Out :=
  srcRead .G_SHORT 0 s fun s0 => srcRead .G_SHORT 1 s fun s1 => srcRead .G_SHORT 2 s fun s2 =>
    if s0 = 0x47 ∧ s1 = 0x49 ∧ s2 = 0x46 then k s else raise .G_BAD_SIGNATURE (leNat [s0, s1, s2]) s

/-- Version (rule R192). -/
def gifVersion (s : State) (k : State → Out) : Out :=
  srcRead .G_SHORT 3 s fun v0 => srcRead .G_SHORT 4 s fun v1 => srcRead .G_SHORT 5 s fun v2 =>
    match versionCode v0 v1 v2 with
    | some c => k (s.modifyGif fun g => { g with GIF_VERSION := c })
    | none => raise .G_BAD_VERSION (leNat [v0, v1, v2]) s

/-- Trailer: the file's last byte (rule R193). -/
def gifTrailerCheck (s : State) (k : State → Out) : Out :=
  srcRead .G_SHORT (s.SRC_LEN.toNat - 1) s fun t => if t = 0x3B then k s else raise .G_NO_TRAILER t.toNat s

/-- Logical screen descriptor: each register is written as its bytes are read (rules R96, R194). -/
def gifScreen (s : State) (k : Byte → State → Out) : Out :=
  srcRead16 .G_SHORT 6 s fun w =>
    let s := s.modifyGif fun g => { g with GIF_SCREEN_W := trunc32 w }
    srcRead16 .G_SHORT 8 s fun h =>
      let s := s.modifyGif fun g => { g with GIF_SCREEN_H := trunc32 h }
      srcRead .G_SHORT 10 s fun fl =>
        let s := s.modifyGif fun g => { g with GIF_FLAGS := fl.setWidth 32 }
        srcRead .G_SHORT 11 s fun bg =>
          let s := s.modifyGif fun g => { g with GIF_BG := bg.setWidth 32 }
          srcRead .G_SHORT 12 s fun asp => k fl (s.modifyGif fun g => { g with GIF_ASPECT := asp.setWidth 32 })

/-- Screen geometry (rule R195). -/
def gifGeometry (s : State) (k : State → Out) : Out :=
  if s.gif.GIF_SCREEN_W = 0 ∨ s.gif.GIF_SCREEN_H = 0 then raise .G_ZERO_GEOMETRY 0 s else k s

/-- Global colour table: stepped over, not read (rule R196); then the scan begins (rule R197). -/
def gifGlobalTable (fl : Byte) (s : State) : State :=
  if hasTable fl then
    let t := { s with gif := { s.gif with GIF_GCT_COLORS := trunc32 (tableColors fl), GIF_GCT_OFF := 13 } }
    gscAt .scan (13 + tableBytesLen fl) t
  else gscAt .scan 13 s

/-- `GIF_OPEN`: command start, then rules R190 to R196 in order; the scan loop's elements are the next steps. -/
def execGifOpen (s : State) : Out :=
  checkSrcLen (commandStart 1 s) fun s =>
    gifSignature (gifClear s) fun s => gifVersion s fun s => gifTrailerCheck s fun s =>
      gifScreen s fun fl s => gifGeometry s fun s => .next (gifGlobalTable fl s)

/-! ### The elements at a separator position -/

/-- Is the descriptor at hand the first (rule R198)? -/
def isFirstFrame (s : State) : Bool := s.gif.GIF_FRAME_COUNT == 0

/-- The five descriptor registers, for frame 0 only (rule R198). -/
def frameGeometry (left top wd ht : Nat) (fl : Byte) (s : State) : State :=
  if isFirstFrame s then
    { s with frame0 := { s.frame0 with
        F0_LEFT := trunc32 left, F0_TOP := trunc32 top, F0_W := trunc32 wd, F0_H := trunc32 ht
        F0_FLAGS := fl.setWidth 32 } }
  else s

/-- The local colour table at `q`: stepped over (rule R199); where it is frame 0's, recorded. -/
def frameTable (fl : Byte) (q : Nat) (s : State) : State :=
  if hasTable fl && isFirstFrame s then
    { s with frame0 := { s.frame0 with F0_LCT_COLORS := trunc32 (tableColors fl), F0_LCT_OFF := trunc32 q } }
  else s

/-- Where the code-size byte is, given the offset after the descriptor (rule R198). -/
def frameCodePos (fl : Byte) (q : Nat) : Nat := if hasTable fl then q + tableBytesLen fl else q

/-- The code-size byte `cs`, read at `q` (rule R200), and the offset of the first sub-block, for frame 0 only. -/
def frameCode (cs : Byte) (q : Nat) (s : State) : State :=
  if isFirstFrame s then
    { s with frame0 := { s.frame0 with F0_CODESIZE := cs.setWidth 32, F0_DATA_OFF := trunc32 (q + 1) } }
  else s

/-- `GIF.IMAGE`, the descriptor at `p` up to its first sub-block (rules R198 to R200). The sub-blocks are the elements
that follow; `GIF_FRAME_COUNT` and `GIF_POS` move at their terminator, as rule R198 orders. -/
def execGifImage (s : State) : Out :=
  let p := s.gscPos
  srcRead16 .G_SHORT (p + 1) s fun left => srcRead16 .G_SHORT (p + 3) s fun top =>
    srcRead16 .G_SHORT (p + 5) s fun wd => srcRead16 .G_SHORT (p + 7) s fun ht =>
      srcRead .G_SHORT (p + 9) s fun fl =>
        let s := frameTable fl (p + 10) (frameGeometry left top wd ht fl s)
        let q := frameCodePos fl (p + 10)
        srcRead .G_SHORT q s fun cs =>
          let s := frameCode cs q s
          .next { s.setState (.busy .skip) with gscPos := q + 1 }

/-- `GIF.TRAILER`: the scan ends and `GIF_OPEN` completes (rules R203, R205). -/
def execGifTrailer (s : State) : Out :=
  .next (stop ({ s with gif := { s.gif with GIF_POS := trunc32 s.gscPos } }.setReady true))

/-- `GIF.BADSEP` (rule R204). -/
def execGifBadsep (b : Byte) (s : State) : Out := raise .G_BAD_SEPARATOR b.toNat s

/-! ### The elements at a length position -/

/-- Copy `m` data bytes from `SRC` offset `a` to `CBUF` offset `k`: read one, write one (rule R212). -/
def copyData : Nat → Nat → Nat → State → (State → Out) → Out
  | 0, _, _, s, cont => cont s
  | m + 1, a, k, s, cont =>
    srcRead .G_SHORT a s fun b => cbufWrite k b s fun s => copyData m (a + 1) (k + 1) s cont

/-- Is the running command `GIF_CONCAT`? -/
def isConcat (s : State) : Bool := s.status.STATE == .busy .concat

/-- `GIF.SUBBLOCK` with `len` data bytes, its length byte at `GSC`'s cursor: copied by `GIF_CONCAT` (rule R212), else
stepped over unread (rule R201). -/
def execGifSubblock (len : Byte) (s : State) : Out :=
  let p := s.gscPos + 1
  let L := len.toNat
  if isConcat s then
    copyData L p s.gscCount s fun s => .next (gscAt .concat (p + L) { s with gscCount := s.gscCount + L })
  else .next { s with gscPos := p + L }

/-- The end of a chain in the scan: the frame is counted and the scan goes on (rules R198, R201, R202). -/
def frameEnd (p : Nat) (s : State) : State :=
  let t := { s with gif := { s.gif with GIF_FRAME_COUNT := trunc32 (s.gif.GIF_FRAME_COUNT.toNat + 1) } }
  gscAt .scan p (if t.gif.GIF_FRAME_COUNT = 2 then t.setMultiframe true else t)

/-- Completion of `GIF_CONCAT` (rule R213). -/
def concatEnd (p : Nat) (s : State) : State :=
  stop { s with
    lzw := { s.lzw with LZW_CLEN := trunc32 s.gscCount, LZW_N := s.frame0.F0_CODESIZE }
    gif := { s.gif with GIF_POS := trunc32 p } }

/-- `GIF.TERMINATOR`, at `GSC`'s cursor: the chain ends (rules R201, R212). -/
def execGifTerminator (s : State) : Out :=
  let p := s.gscPos + 1
  if isConcat s then .next (concatEnd p s) else .next (frameEnd p s)

/-! ### `GIF_CONCAT` -/

/-- `GIF_CONCAT`: command start, the checks of rule R211, and the loop's first line (rule R212); its elements are the
next steps. -/
def execGifConcat (s : State) : Out :=
  checkSrcLen (commandStart 2 s) fun s =>
    if s.status.GIF_READY = false then raise .U_NOT_READY 0 s
    else if s.gif.GIF_FRAME_COUNT = 0 then raise .G_NO_FRAME 0 s
    else .next (gscAt .concat s.frame0.F0_DATA_OFF.toNat { s with gscCount := 0 })

end Sys2Proof.Machine
end

