-- ==== Sys2Proof/Machine/Lzw.lean ====
section
/-! DEFINITION. The unit `LZWD`: the command `LZW_RUN` up to its fetch loop, and the six code classes, one step each
(43_lzw.md; rule R132 allows the small steps, log 3). The loop's own test for exhaustion and for the width cap is in
Machine/Fetch.lean (rule R225). -/

namespace Sys2Proof.Machine

/-- The initialisation of `LZW_RUN` (rule R224). -/
def lzwInit (s : State) : State :=
  dictReset ({ s with lzw := { s.lzw with LZW_BITPOS := 0, LZW_OLEN := 0 } }.setEoi false)

/-- The first start check of `LZW_RUN` that fails, with its information word (rules R221, R222). -/
def lzwStartFault (s : State) : Option (Cause × Nat) :=
  let clen := s.lzw.LZW_CLEN.toNat
  let n := s.lzw.LZW_N.toNat
  if s.cfg.CBUF_CAP < clen ∨ 2 ^ 29 ≤ clen then some (.U_CLEN, clen)
  else if n < NMIN ∨ NMAX < n then some (.L_BAD_CODE_SIZE, n)
  else none

/-- `LZW_RUN`: command start, the start checks, the initialisation (rules R220 to R224); the codes are the next steps. -/
def execLzwRun (s : State) : Out :=
  let s := commandStart 3 s
  match lzwStartFault s with
  | some (c, info) => raise c info s
  | none => .next ((lzwInit s).setState (.busy .lzw))

/-- `x[LZW_PREV] <- v` (rules R229 to R231). -/
def lzwRemember (v : Nat) (s : State) : State := { s with lzw := { s.lzw with LZW_PREV := trunc32 v } }

/-- `LZW.CLEAR` (rule R227). -/
def execLzwClear (s : State) : Out := .next (dictReset s)

/-- `LZW.EOI` (rule R228). -/
def execLzwEoi (s : State) : Out := .next (stop (s.setEoi true))

/-- `LZW.FIRST` (rule R229). -/
def execLzwFirst (v : Nat) (s : State) : Out := emit [trunc8 v] s fun s => .next (lzwRemember v s)

/-- `LZW.DICT` (rule R230). -/
def execLzwDict (v : Nat) (s : State) : Out :=
  dictRead v s fun cur => emit cur.toList s fun s => dictRead s.lzw.LZW_PREV.toNat s fun prev =>
    .next (lzwRemember v (dictInsert (prev.snoc cur.head) s))

/-- `LZW.KWKWK`: the code is `LZW_NEXT` (rule R231). -/
def execLzwKwkwk (s : State) : Out :=
  let v := s.lzw.LZW_NEXT.toNat
  dictRead s.lzw.LZW_PREV.toNat s fun prev =>
    let cur := prev.snoc prev.head
    emit cur.toList s fun s => .next (lzwRemember v (dictInsert (prev.snoc cur.head) s))

/-- `LZW.RANGE` (rule R233). -/
def execLzwRange (v : Nat) (s : State) : Out := raise .L_CODE_RANGE v s

end Sys2Proof.Machine
end

