-- ==== Sys2Proof/Machine/Dispatch.lean ====
section
/-! DEFINITION. The meaning of each instruction, one arm a constructor. -/

namespace Sys2Proof.Machine

-- One step of the machine on one decoded instruction.
def exec (i : Instr) (s : State) : Host.Outcome State Fault Refusal :=
  match i with
  | .nop => Sys2Proof.Machine.execNop s
  | .gifOpen => Sys2Proof.Machine.execGifOpen s
  | .gifConcat => Sys2Proof.Machine.execGifConcat s
  | .lzwRun => Sys2Proof.Machine.execLzwRun s
  | .bmpRender => Sys2Proof.Machine.execBmpRender s
  | .cmdReserved c => Sys2Proof.Machine.execCmdReserved c s
  | .lzwClear => Sys2Proof.Machine.execLzwClear s
  | .lzwEoi => Sys2Proof.Machine.execLzwEoi s
  | .lzwFirst v => Sys2Proof.Machine.execLzwFirst v s
  | .lzwDict v => Sys2Proof.Machine.execLzwDict v s
  | .lzwKwkwk => Sys2Proof.Machine.execLzwKwkwk s
  | .lzwRange v => Sys2Proof.Machine.execLzwRange v s
  | .gifImage => Sys2Proof.Machine.execGifImage s
  | .gifTrailer => Sys2Proof.Machine.execGifTrailer s
  | .gifBadsep b => Sys2Proof.Machine.execGifBadsep b s
  | .gifSubblock len => Sys2Proof.Machine.execGifSubblock len s
  | .gifTerminator => Sys2Proof.Machine.execGifTerminator s
  | .bmpP1 => Sys2Proof.Machine.execBmpP1 s
  | .bmpP4 => Sys2Proof.Machine.execBmpP4 s
  | .bmpP8 => Sys2Proof.Machine.execBmpP8 s
  | .bmpRgb555 => Sys2Proof.Machine.execBmpRgb555 s
  | .bmpBf16 => Sys2Proof.Machine.execBmpBf16 s
  | .bmpBgr24 => Sys2Proof.Machine.execBmpBgr24 s
  | .bmpBgra32 => Sys2Proof.Machine.execBmpBgra32 s
  | .bmpBf32 => Sys2Proof.Machine.execBmpBf32 s
  | .bmpIllegal bpp comp => Sys2Proof.Machine.execBmpIllegal bpp comp s

end Sys2Proof.Machine
end

