-- ==== Sys2Proof/Machine/RegFile.lean ====
section
/-! DEFINITION. The register file as the host sees it: which index is which register, its access class, and what a host
read and a host write do (rules R20 to R34, the table of 10_state.md section 8). -/

namespace Sys2Proof.Machine

/-- The access classes of rule R20. -/
inductive Access where
  | RW
  | RO
  | WO
  deriving DecidableEq, Repr

/-- The registers of 10_state.md section 8. -/
inductive Reg where
  | CMD
  | STATUS
  | FAULT_KIND
  | FAULT_CAUSE
  | FAULT_INFO
  | SRC_LEN
  | GIF_VERSION
  | GIF_SCREEN_W
  | GIF_SCREEN_H
  | GIF_FLAGS
  | GIF_BG
  | GIF_ASPECT
  | GIF_GCT_COLORS
  | GIF_GCT_OFF
  | GIF_FRAME_COUNT
  | GIF_POS
  | F0_LEFT
  | F0_TOP
  | F0_W
  | F0_H
  | F0_FLAGS
  | F0_LCT_COLORS
  | F0_LCT_OFF
  | F0_CODESIZE
  | F0_DATA_OFF
  | LZW_N
  | LZW_CLEN
  | LZW_OLEN
  | LZW_BITPOS
  | LZW_W
  | LZW_NEXT
  | LZW_PREV
  | BMP_DATA_OFF
  | BMP_WIDTH
  | BMP_HEIGHT
  | BMP_BPP
  | BMP_COMP
  | BMP_PAL_BASE
  | BMP_PAL_COUNT
  | BMP_MASK_R
  | BMP_MASK_G
  | BMP_MASK_B
  | BMP_MASK_A
  | BMP_HAS_AMASK
  | VIEW_W
  | VIEW_H
  | SINK_STRIDE
  | BMP_CUR
  | BMP_X
  | BMP_ROW
  deriving DecidableEq, Repr

/-- The register at an index; `none` at a reserved index (rule R20). -/
def Reg.ofIndex (i : Nat) : Option Reg :=
  if i = 0x00 then some .CMD
  else if i = 0x01 then some .STATUS
  else if i = 0x02 then some .FAULT_KIND
  else if i = 0x03 then some .FAULT_CAUSE
  else if i = 0x04 then some .FAULT_INFO
  else if i = 0x05 then some .SRC_LEN
  else if i = 0x10 then some .GIF_VERSION
  else if i = 0x11 then some .GIF_SCREEN_W
  else if i = 0x12 then some .GIF_SCREEN_H
  else if i = 0x13 then some .GIF_FLAGS
  else if i = 0x14 then some .GIF_BG
  else if i = 0x15 then some .GIF_ASPECT
  else if i = 0x16 then some .GIF_GCT_COLORS
  else if i = 0x17 then some .GIF_GCT_OFF
  else if i = 0x18 then some .GIF_FRAME_COUNT
  else if i = 0x19 then some .GIF_POS
  else if i = 0x20 then some .F0_LEFT
  else if i = 0x21 then some .F0_TOP
  else if i = 0x22 then some .F0_W
  else if i = 0x23 then some .F0_H
  else if i = 0x24 then some .F0_FLAGS
  else if i = 0x25 then some .F0_LCT_COLORS
  else if i = 0x26 then some .F0_LCT_OFF
  else if i = 0x27 then some .F0_CODESIZE
  else if i = 0x28 then some .F0_DATA_OFF
  else if i = 0x30 then some .LZW_N
  else if i = 0x31 then some .LZW_CLEN
  else if i = 0x32 then some .LZW_OLEN
  else if i = 0x33 then some .LZW_BITPOS
  else if i = 0x34 then some .LZW_W
  else if i = 0x35 then some .LZW_NEXT
  else if i = 0x36 then some .LZW_PREV
  else if i = 0x40 then some .BMP_DATA_OFF
  else if i = 0x41 then some .BMP_WIDTH
  else if i = 0x42 then some .BMP_HEIGHT
  else if i = 0x43 then some .BMP_BPP
  else if i = 0x44 then some .BMP_COMP
  else if i = 0x45 then some .BMP_PAL_BASE
  else if i = 0x46 then some .BMP_PAL_COUNT
  else if i = 0x47 then some .BMP_MASK_R
  else if i = 0x48 then some .BMP_MASK_G
  else if i = 0x49 then some .BMP_MASK_B
  else if i = 0x4A then some .BMP_MASK_A
  else if i = 0x4B then some .BMP_HAS_AMASK
  else if i = 0x4C then some .VIEW_W
  else if i = 0x4D then some .VIEW_H
  else if i = 0x4E then some .SINK_STRIDE
  else if i = 0x4F then some .BMP_CUR
  else if i = 0x50 then some .BMP_X
  else if i = 0x51 then some .BMP_ROW
  else none

/-- A register's access class (rules R21 to R34). -/
def Reg.access : Reg → Access
  | .CMD => .WO
  | .STATUS => .RO
  | .FAULT_KIND => .RO
  | .FAULT_CAUSE => .RO
  | .FAULT_INFO => .RO
  | .SRC_LEN => .RW
  | .GIF_VERSION => .RO
  | .GIF_SCREEN_W => .RO
  | .GIF_SCREEN_H => .RO
  | .GIF_FLAGS => .RO
  | .GIF_BG => .RO
  | .GIF_ASPECT => .RO
  | .GIF_GCT_COLORS => .RO
  | .GIF_GCT_OFF => .RO
  | .GIF_FRAME_COUNT => .RO
  | .GIF_POS => .RO
  | .F0_LEFT => .RO
  | .F0_TOP => .RO
  | .F0_W => .RO
  | .F0_H => .RO
  | .F0_FLAGS => .RO
  | .F0_LCT_COLORS => .RO
  | .F0_LCT_OFF => .RO
  | .F0_CODESIZE => .RO
  | .F0_DATA_OFF => .RO
  | .LZW_N => .RW
  | .LZW_CLEN => .RW
  | .LZW_OLEN => .RO
  | .LZW_BITPOS => .RO
  | .LZW_W => .RO
  | .LZW_NEXT => .RO
  | .LZW_PREV => .RO
  | .BMP_DATA_OFF => .RW
  | .BMP_WIDTH => .RW
  | .BMP_HEIGHT => .RW
  | .BMP_BPP => .RW
  | .BMP_COMP => .RW
  | .BMP_PAL_BASE => .RW
  | .BMP_PAL_COUNT => .RW
  | .BMP_MASK_R => .RW
  | .BMP_MASK_G => .RW
  | .BMP_MASK_B => .RW
  | .BMP_MASK_A => .RW
  | .BMP_HAS_AMASK => .RW
  | .VIEW_W => .RW
  | .VIEW_H => .RW
  | .SINK_STRIDE => .RW
  | .BMP_CUR => .RO
  | .BMP_X => .RO
  | .BMP_ROW => .RO

/-- What a register reads as; `CMD` reads 0 (rule R20). -/
def State.reg (s : State) : Reg → Word
  | .CMD => 0
  | .STATUS => s.status.word
  | .FAULT_KIND => s.fault.FAULT_KIND
  | .FAULT_CAUSE => s.fault.FAULT_CAUSE
  | .FAULT_INFO => s.fault.FAULT_INFO
  | .SRC_LEN => s.SRC_LEN
  | .GIF_VERSION => s.gif.GIF_VERSION
  | .GIF_SCREEN_W => s.gif.GIF_SCREEN_W
  | .GIF_SCREEN_H => s.gif.GIF_SCREEN_H
  | .GIF_FLAGS => s.gif.GIF_FLAGS
  | .GIF_BG => s.gif.GIF_BG
  | .GIF_ASPECT => s.gif.GIF_ASPECT
  | .GIF_GCT_COLORS => s.gif.GIF_GCT_COLORS
  | .GIF_GCT_OFF => s.gif.GIF_GCT_OFF
  | .GIF_FRAME_COUNT => s.gif.GIF_FRAME_COUNT
  | .GIF_POS => s.gif.GIF_POS
  | .F0_LEFT => s.frame0.F0_LEFT
  | .F0_TOP => s.frame0.F0_TOP
  | .F0_W => s.frame0.F0_W
  | .F0_H => s.frame0.F0_H
  | .F0_FLAGS => s.frame0.F0_FLAGS
  | .F0_LCT_COLORS => s.frame0.F0_LCT_COLORS
  | .F0_LCT_OFF => s.frame0.F0_LCT_OFF
  | .F0_CODESIZE => s.frame0.F0_CODESIZE
  | .F0_DATA_OFF => s.frame0.F0_DATA_OFF
  | .LZW_N => s.lzw.LZW_N
  | .LZW_CLEN => s.lzw.LZW_CLEN
  | .LZW_OLEN => s.lzw.LZW_OLEN
  | .LZW_BITPOS => s.lzw.LZW_BITPOS
  | .LZW_W => s.lzw.LZW_W
  | .LZW_NEXT => s.lzw.LZW_NEXT
  | .LZW_PREV => s.lzw.LZW_PREV
  | .BMP_DATA_OFF => s.bmp.BMP_DATA_OFF
  | .BMP_WIDTH => s.bmp.BMP_WIDTH
  | .BMP_HEIGHT => s.bmp.BMP_HEIGHT
  | .BMP_BPP => s.bmp.BMP_BPP
  | .BMP_COMP => s.bmp.BMP_COMP
  | .BMP_PAL_BASE => s.bmp.BMP_PAL_BASE
  | .BMP_PAL_COUNT => s.bmp.BMP_PAL_COUNT
  | .BMP_MASK_R => s.bmp.BMP_MASK_R
  | .BMP_MASK_G => s.bmp.BMP_MASK_G
  | .BMP_MASK_B => s.bmp.BMP_MASK_B
  | .BMP_MASK_A => s.bmp.BMP_MASK_A
  | .BMP_HAS_AMASK => s.bmp.BMP_HAS_AMASK
  | .VIEW_W => s.bmp.VIEW_W
  | .VIEW_H => s.bmp.VIEW_H
  | .SINK_STRIDE => s.bmp.SINK_STRIDE
  | .BMP_CUR => s.bmpWork.BMP_CUR
  | .BMP_X => s.bmpWork.BMP_X
  | .BMP_ROW => s.bmpWork.BMP_ROW

/-- A host write to a register while not `BUSY`: an `RW` register stores all 32 bits as given, and a write to `SRC_LEN`
clears `GIF_READY` (rule R25); a write to an `RO` register is ignored (rule R20). A write to `CMD` is no store: it
is the fetch of a command (Machine/Fetch.lean). -/
def State.setReg (s : State) (r : Reg) (v : Word) : State :=
  match r with
  | .CMD => s
  | .STATUS => s
  | .FAULT_KIND => s
  | .FAULT_CAUSE => s
  | .FAULT_INFO => s
  | .SRC_LEN => { s with SRC_LEN := v }.setReady false
  | .GIF_VERSION => s
  | .GIF_SCREEN_W => s
  | .GIF_SCREEN_H => s
  | .GIF_FLAGS => s
  | .GIF_BG => s
  | .GIF_ASPECT => s
  | .GIF_GCT_COLORS => s
  | .GIF_GCT_OFF => s
  | .GIF_FRAME_COUNT => s
  | .GIF_POS => s
  | .F0_LEFT => s
  | .F0_TOP => s
  | .F0_W => s
  | .F0_H => s
  | .F0_FLAGS => s
  | .F0_LCT_COLORS => s
  | .F0_LCT_OFF => s
  | .F0_CODESIZE => s
  | .F0_DATA_OFF => s
  | .LZW_N => { s with lzw := { s.lzw with LZW_N := v } }
  | .LZW_CLEN => { s with lzw := { s.lzw with LZW_CLEN := v } }
  | .LZW_OLEN => s
  | .LZW_BITPOS => s
  | .LZW_W => s
  | .LZW_NEXT => s
  | .LZW_PREV => s
  | .BMP_DATA_OFF => { s with bmp := { s.bmp with BMP_DATA_OFF := v } }
  | .BMP_WIDTH => { s with bmp := { s.bmp with BMP_WIDTH := v } }
  | .BMP_HEIGHT => { s with bmp := { s.bmp with BMP_HEIGHT := v } }
  | .BMP_BPP => { s with bmp := { s.bmp with BMP_BPP := v } }
  | .BMP_COMP => { s with bmp := { s.bmp with BMP_COMP := v } }
  | .BMP_PAL_BASE => { s with bmp := { s.bmp with BMP_PAL_BASE := v } }
  | .BMP_PAL_COUNT => { s with bmp := { s.bmp with BMP_PAL_COUNT := v } }
  | .BMP_MASK_R => { s with bmp := { s.bmp with BMP_MASK_R := v } }
  | .BMP_MASK_G => { s with bmp := { s.bmp with BMP_MASK_G := v } }
  | .BMP_MASK_B => { s with bmp := { s.bmp with BMP_MASK_B := v } }
  | .BMP_MASK_A => { s with bmp := { s.bmp with BMP_MASK_A := v } }
  | .BMP_HAS_AMASK => { s with bmp := { s.bmp with BMP_HAS_AMASK := v } }
  | .VIEW_W => { s with bmp := { s.bmp with VIEW_W := v } }
  | .VIEW_H => { s with bmp := { s.bmp with VIEW_H := v } }
  | .SINK_STRIDE => { s with bmp := { s.bmp with SINK_STRIDE := v } }
  | .BMP_CUR => s
  | .BMP_X => s
  | .BMP_ROW => s

/-- A host read by index; a reserved index reads 0 (rule R20). -/
def State.readIndex (s : State) (i : Nat) : Word :=
  match Reg.ofIndex i with
  | none => 0
  | some r => s.reg r

/-- A host write by index, other than to `CMD`, while not `BUSY`; a reserved index ignores it (rule R20). -/
def State.writeIndex (s : State) (i : Nat) (v : Word) : State :=
  match Reg.ofIndex i with
  | none => s
  | some r => s.setReg r v

end Sys2Proof.Machine
end

