-- ==== Sys2Proof/Machine/Fetch.lean ====
section
/-! DEFINITION. What a step does before and instead of an instruction: whose turn it is, the host's actions (rules R20,
R61, R75, R130, R132, R290, R298), the fetch of each unit's next element (rules R197, R201, R212, R225, R104), and how
a word of the opcode table is laid where the next step fetches it. -/

namespace Sys2Proof.Machine

/-- What a fetch delivers: an instruction's bytes, their site, and the state in which it runs; or an outcome without an
instruction. -/
inductive Fetched where
  | instr (site : Site) (bytes : List Byte) (s : State)
  | effect (o : Out)

/-! ### Units -/

/-- The byte at `GSC`'s cursor, read as rule R62 reads it with cause `G_SHORT`. -/
def fetchGsc (site : Site) (s : State) : Fetched :=
  if s.SRC_LEN.toNat ≤ s.gscPos then .effect (raise .G_SHORT s.gscPos s)
  else
    match s.byteAt .src s.gscPos with
    | none => .effect (.refused (.unwrittenByte .src s.gscPos))
    | some b => .instr site [b] s

/-- One iteration of the fetch loop up to the class tests: exhaustion, the width cap, the code's byte window, and the
bit cursor's advance, which comes before the class rule runs (rules R225, R226). -/
def fetchCode (s : State) : Fetched :=
  let w := s.lzw.LZW_W.toNat
  let p := s.lzw.LZW_BITPOS.toNat
  if 8 * s.lzw.LZW_CLEN.toNat < p + w then .effect (.next (stop s))
  else if s.cfg.WMAX < w then .effect (raise .L_WIDTH_CAP w s)
  else
    match cbufBytes s (p / 8) (codeCtx s).windowLen with
    | .error a => .effect (.refused (.unwrittenByte .cbuf a))
    | .ok bs => .instr (.code (codeCtx s)) bs { s with lzw := { s.lzw with LZW_BITPOS := trunc32 (p + w) } }

/-- The register image that selects the pixel mode (rule R104). -/
def modeBytes (s : State) : List Byte :=
  encodeMode s.bmp.BMP_BPP.toNat s.bmp.BMP_COMP.toNat s.bmp.BMP_MASK_R.toNat s.bmp.BMP_MASK_G.toNat
    s.bmp.BMP_MASK_B.toNat

/-- The next element of the running unit. -/
def fetchUnit (ph : Phase) (s : State) : Fetched :=
  match ph with
  | .start => .effect (.fault .noUnit)
  | .scan => fetchGsc .separator s
  | .skip => fetchGsc .length s
  | .concat => fetchGsc .length s
  | .lzw => fetchCode s
  | .bmp => .instr .mode (modeBytes s) s

/-- The running unit's next element, or, when no command runs, `s` itself: the hardware waits (rule R291; log 19). -/
def fetchRunning (s : State) : Fetched :=
  match s.status.STATE with
  | .idle => .effect (.next s)
  | .busy ph => fetchUnit ph s
  | .done => .effect (.next s)
  | .fault => .effect (.next s)

/-! ### The host -/

/-- A host write to a register; one to `CMD` delivers a command word (rules R20, R21, R130), with `STATUS` kept as it stands
before the command, and while `BUSY` it is ignored (rule R132). -/
def hostWriteReg (index : Nat) (v : Word) (s : State) : Fetched :=
  if s.busy then .effect (.next s)
  else if index = 0 then .instr .command (encodeWord v.toNat) s.keepStatus
  else .effect (.next (s.writeIndex index v))

/-- A host read of a register (rule R20). While `BUSY` the host may read `STATUS` and nothing else (rule R75), and sees in it
no state between the one before the command and the one after (rule R132). -/
def hostReadReg (index : Nat) (s : State) : Out :=
  if s.busy then
    if index = 1 then .next { s with hostData := s.statusWhileBusy } else .refused .hostAccessWhileBusy
  else .next { s with hostData := s.readIndex index }

/-- A host write of one memory byte (rules R60, R61, R75). -/
def hostWriteMem (sp : Space) (off : Nat) (b : Byte) (s : State) : Out :=
  if s.busy then .refused .hostAccessWhileBusy
  else if capacity s.cfg sp ≤ off then .fault (.noSuchOffset sp off)
  else .next (s.writeByte sp off b)

/-- A host read of one memory byte (rules R38, R60, R61, R75). -/
def hostReadMem (sp : Space) (off : Nat) (s : State) : Out :=
  if s.busy then .refused .hostAccessWhileBusy
  else if capacity s.cfg sp ≤ off then .fault (.noSuchOffset sp off)
  else
    match s.byteAt sp off with
    | none => .refused (.unwrittenByte sp off)
    | some b => .next { s with hostData := b.setWidth 32 }

/-- Reset, in any state (rules R290, R291). What is not the block's stays: its parameters, the host's further actions and
what the host last read (log 11). -/
def hostReset (s : State) : State := { State.resetWith s.cfg with host := s.host, hostData := s.hostData }

/-- The turn of this step. The host's next action is taken at once, `BUSY` or not; `wait` lets a running unit perform one
element, and `poll` keeps letting it until it has ended, then reads `STATUS`; with no action left the unit runs on. -/
def fetch (s : State) : Fetched :=
  match s.host with
  | [] => fetchRunning s
  | .wait :: rest => fetchRunning { s with host := rest }
  | .poll :: rest =>
    if s.busy then fetchRunning s
    else .effect (.next { s with host := rest, hostData := s.status.word })
  | .writeReg i v :: rest => hostWriteReg i v { s with host := rest }
  | .readReg i :: rest => .effect (hostReadReg i { s with host := rest })
  | .writeMem sp off b :: rest => .effect (hostWriteMem sp off b { s with host := rest })
  | .readMem sp off :: rest => .effect (hostReadMem sp off { s with host := rest })
  | .reset :: rest => .effect (.next (hostReset { s with host := rest }))

/-! ### A table word where the next step fetches it (log 15) -/

/-- Write a byte string to `SRC` from offset `a`. -/
def placeSrc (bs : List Byte) (a : Nat) (s : State) : State :=
  match bs with
  | [] => s
  | b :: bs => placeSrc bs (a + 1) (s.writeByte .src a b)

/-- A command word: the host's next action writes it to `CMD`, and no command is running. -/
def placeCommand (w : Nat) (s : State) : State :=
  let t := if s.busy then s.setState .idle else s
  { t with host := .writeReg 0 (trunc32 w) :: s.host }

/-- A GIF byte: `GSC` stands at offset 0 of `SRC`, which holds the byte and zeros for the rest of the longest element (ten
descriptor bytes and a code-size byte), and the next turn is the unit's. -/
def placeGif (ph : Phase) (b : Byte) (s : State) : State :=
  let t := placeSrc (b :: List.replicate 10 0) 0 (gscPlace s)
  { t.setState (.busy ph) with host := .wait :: s.host }
where
  /-- The cursor and the length register the fetch needs. -/
  gscPlace (s : State) : State := { s with SRC_LEN := 11, gscPos := 0 }

/-- An RGB555 sample: `BPD` stands at the one pixel of a 1 x 1 image whose data begins at offset 0 of `SRC`, and the next
turn is the unit's. -/
def placeSample (v : Nat) (s : State) : State :=
  let t := placeSrc (leBytes 4 (v % 65536)) 0 s
  { t.setState (.busy .bmp) with
    SRC_LEN := 4
    bmp := { t.bmp with BMP_DATA_OFF := 0, BMP_WIDTH := 1, BMP_HEIGHT := 1, BMP_BPP := 16, BMP_COMP := 0 }
    bmpWork := { BMP_CUR := 0, BMP_X := 0, BMP_ROW := 0 }
    host := .wait :: s.host }

/-- Lay a table word where the next step fetches it; a width the table does not use changes nothing. -/
def placeWord (nbits w : Nat) (s : State) : State :=
  match tableSite nbits w with
  | none => s
  | some .command => placeCommand w s
  | some .separator => placeGif .scan (trunc8 w) s
  | some .length => placeGif .skip (trunc8 w) s
  | some (.code _) => s
  | some .mode => placeSample w s

end Sys2Proof.Machine
end

