-- ==== Sys2Proof/Machine/Step.lean ====
section
/-! DEFINITION. One step: fetch, decode, run. -/

namespace Sys2Proof.Machine

/-- One step of the machine: the turn's own outcome, or the decoded instruction's meaning. -/
def step (s : State) : Host.Outcome State Fault Refusal :=
  match fetch s with
  | .effect o => o
  | .instr site bs t =>
    match decode site bs with
    | .error e => .refused (.undecodable e)
    | .ok i => exec i t

/-- `s` with a word of spec/opcode_table.json laid where `step` fetches its next instruction (log 15). A program comes to
run from `State.reset` by the host's script and the bytes the host writes, for which this stands (log 17). -/
def State.withFetchWord (s : State) (nbits w : Nat) : State := placeWord nbits w s

end Sys2Proof.Machine
end

