-- ==== Sys2Proof/Safety.lean ====
section
/-! DEFINITION. What the spec says of every state a run meets, as one invariant of decidable parts, and the bound on the
elements a running command has left (rules R207, R236, R304). -/

namespace Sys2Proof.Machine

/-! ### Memories -/

/-- A memory space in canonical form, with no byte beyond its capacity (rules R60, R38). -/
abbrev spaceOk (s : State) (sp : Space) : Prop :=
  Memory.wf (s.mem sp) ∧ ∀ x ∈ s.mem sp, x.1 < capacity s.cfg sp

/-- The four memory spaces (rule R60). -/
abbrev memOk (s : State) : Prop := spaceOk s .src ∧ spaceOk s .cbuf ∧ spaceOk s .obuf ∧ spaceOk s .sink

/-! ### `STATUS`, the fault record and the GIF records between commands -/

/-- What holds of `STATUS` and the fault record in every state: the record is 0 unless the last command faulted (rules
R133, R134), a fault leaves its mark in `STICKY_FAULT` (rule R270), `MULTIFRAME` says two or more frames (rule R22), and
`GIF_READY` says an accepted screen of a file that fits `SRC` (rules R133, R195, R205, R25). -/
abbrev statusOk (s : State) : Prop :=
  (s.status.STATE = .fault → s.status.STICKY_FAULT = true ∧ s.fault.FAULT_KIND ≠ 0) ∧
  (s.status.STATE ≠ .fault → s.fault = { FAULT_KIND := 0, FAULT_CAUSE := 0, FAULT_INFO := 0 }) ∧
  (s.status.MULTIFRAME = true ↔ 2 ≤ s.gif.GIF_FRAME_COUNT.toNat) ∧
  (s.status.GIF_READY = true →
    s.SRC_LEN.toNat ≤ s.cfg.SRC_CAP ∧ s.gif.GIF_SCREEN_W ≠ 0 ∧ s.gif.GIF_SCREEN_H ≠ 0)

/-! ### `GSC` -/

/-- `GSC` at a separator position of the scan (rule R197): the cursor is shown by `GIF_POS`, lies past the screen
descriptor, and every counted frame took at least one byte. -/
abbrev scanOk (s : State) : Prop :=
  s.SRC_LEN.toNat ≤ s.cfg.SRC_CAP ∧ s.status.GIF_READY = false ∧ 13 ≤ s.gscPos ∧
    s.gif.GIF_POS = trunc32 s.gscPos ∧ s.gif.GIF_FRAME_COUNT.toNat ≤ s.gscPos ∧
    s.gif.GIF_SCREEN_W ≠ 0 ∧ s.gif.GIF_SCREEN_H ≠ 0

/-- `GSC` at a length position of the scan (rule R201): `GIF_POS` still names the frame's separator. -/
abbrev skipOk (s : State) : Prop :=
  s.SRC_LEN.toNat ≤ s.cfg.SRC_CAP ∧ s.status.GIF_READY = false ∧ 13 ≤ s.gscPos ∧
    s.gif.GIF_FRAME_COUNT.toNat ≤ s.gscPos ∧ s.gif.GIF_SCREEN_W ≠ 0 ∧ s.gif.GIF_SCREEN_H ≠ 0

/-- `GSC` at a length position of the concatenation (rule R212). -/
abbrev concatOk (s : State) : Prop :=
  s.SRC_LEN.toNat ≤ s.cfg.SRC_CAP ∧ s.status.GIF_READY = true ∧ s.gif.GIF_FRAME_COUNT ≠ 0 ∧
    s.gif.GIF_POS = trunc32 s.gscPos ∧ s.gscCount ≤ s.gscPos ∧ s.gscCount ≤ s.cfg.CBUF_CAP

/-! ### `LZWD` -/

/-- The last byte of a string. -/
def Str.last (x : Str) : Byte := x.tail.getLastD x.head

/-- An entry of the dictionary is a literal's, or was built from the entry of an earlier code and one more byte (rules
R30, R237 (b) to (d), R238). -/
abbrev entryOk (n next : Nat) (d : List (Nat × Str)) (x : Nat × Str) : Prop :=
  (x.1 < 2 ^ n ∧ x.2 = Str.literal x.1) ∨
    (2 ^ n + 2 ≤ x.1 ∧ x.1 < next ∧ x.2.last.toNat < 2 ^ n ∧
      ∃ y ∈ d, y.1 < x.1 ∧ x.2 = y.2.snoc x.2.last)

/-- The domain of `DICT` is `[0, 2^n)` together with `[2^n + 2, next)` (rules R30, R237 (b)). -/
abbrev dictOk (n next : Nat) (d : List (Nat × Str)) : Prop :=
  Table.Rising d ∧ (∀ x ∈ d, entryOk n next d x) ∧
    ∀ c < next, (c < 2 ^ n ∨ 2 ^ n + 2 ≤ c) → (Table.get d c).isSome = true

/-- The invariants of rule R237 that hold at every fetch, with the bounds of rules R221, R236 and R240: `next` has at most
one code inserted per `n + 1` bits read, and the width is the initial one or has just the bits `next` needs. -/
abbrev lzwOk (s : State) : Prop :=
  let n := s.lzw.LZW_N.toNat
  let w := s.lzw.LZW_W.toNat
  let next := s.lzw.LZW_NEXT.toNat
  NMIN ≤ n ∧ n ≤ NMAX ∧ s.lzw.LZW_CLEN.toNat ≤ s.cfg.CBUF_CAP ∧ s.lzw.LZW_CLEN.toNat < 2 ^ 29 ∧
    s.lzw.LZW_BITPOS.toNat ≤ 8 * s.lzw.LZW_CLEN.toNat ∧
    2 ^ n + 2 ≤ next ∧ next < 2 ^ w ∧ n + 1 ≤ w ∧ w ≤ s.cfg.WMAX + 1 ∧
    (w = n + 1 ∨ 2 ^ (w - 1) ≤ next) ∧
    (next - (2 ^ n + 2)) * (n + 1) ≤ s.lzw.LZW_BITPOS.toNat ∧
    s.lzw.LZW_OLEN.toNat ≤ s.cfg.OBUF_CAP ∧
    dictOk n next s.dict ∧
    (s.lzw.LZW_PREV = NONE ∧ next = 2 ^ n + 2 ∨ (Table.get s.dict s.lzw.LZW_PREV.toNat).isSome = true) ∧
    s.status.EOI_SEEN = false

/-! ### `BPD` -/

/-- `BPD` at a pixel of the loop (rule R153): the start checks hold (rule R151), the pixel lies in the image, and
`BMP_CUR` names its sample's byte. -/
abbrev bmpOk (s : State) : Prop :=
  s.SRC_LEN.toNat ≤ s.cfg.SRC_CAP ∧ bmpStartFault s = none ∧
    s.bmpWork.BMP_X.toNat < s.bmp.BMP_WIDTH.toNat ∧ s.bmpWork.BMP_ROW.toNat < s.bmp.BMP_HEIGHT.toNat ∧
    s.bmpWork.BMP_CUR = trunc32 (sampleOffset s s.bmpWork.BMP_ROW.toNat s.bmpWork.BMP_X.toNat)

/-! ### The invariant -/

/-- What holds of the running unit at each place of its loop. -/
def unitOk (s : State) : RunState → Prop
  | .idle => True
  | .busy .start => False
  | .busy .scan => scanOk s
  | .busy .skip => skipOk s
  | .busy .concat => concatOk s
  | .busy .lzw => lzwOk s
  | .busy .bmp => bmpOk s
  | .done => True
  | .fault => True

/-- The invariant of the machine: it holds at reset with admissible parameters, and every step keeps it. -/
structure Inv (s : State) : Prop where
  cfg : s.cfg.admissible = true
  mem : memOk s
  status : statusOk s
  unit : unitOk s s.status.STATE

/-! ### The work a command has left -/

/-- A bound on the elements the running command still performs: separator and length bytes (rule R207), codes and the test
that ends them (rule R236), pixels (rule R173). -/
def workLeft (s : State) : Nat :=
  match s.status.STATE with
  | .idle => 0
  | .busy .start => 0
  | .busy .scan => s.SRC_LEN.toNat - s.gscPos + 1
  | .busy .skip => s.SRC_LEN.toNat - s.gscPos + 1
  | .busy .concat => s.SRC_LEN.toNat - s.gscPos + 1
  | .busy .lzw => (8 * s.lzw.LZW_CLEN.toNat - s.lzw.LZW_BITPOS.toNat) / (s.lzw.LZW_N.toNat + 1) + 1
  | .busy .bmp =>
    s.bmp.BMP_WIDTH.toNat * s.bmp.BMP_HEIGHT.toNat -
      (s.bmpWork.BMP_ROW.toNat * s.bmp.BMP_WIDTH.toNat + s.bmpWork.BMP_X.toNat)
  | .done => 0
  | .fault => 0

/-! ### Words the claims use -/

/-- The cleared fault record of command start (rule R133). -/
def noFault : FaultRecord := { FAULT_KIND := 0, FAULT_CAUSE := 0, FAULT_INFO := 0 }

/-- Command `c` ended at its start in the fault with these three numbers, and nothing else changed (rules R133, R270). -/
def refusedAtStart (c : BitVec 4) (kind cause info : Word) (s : State) : State :=
  { s with
    status := { s.status with STATE := .fault, STICKY_FAULT := true, LAST_CMD := c }
    fault := { FAULT_KIND := kind, FAULT_CAUSE := cause, FAULT_INFO := info } }

/-- The running command ended in the fault with these three numbers, and nothing else changed (rule R270). -/
def faulted (kind cause info : Word) (s : State) : State :=
  { s with
    status := { s.status with STATE := .fault, STICKY_FAULT := true }
    fault := { FAULT_KIND := kind, FAULT_CAUSE := cause, FAULT_INFO := info } }

/-- The bytes of `SRC` from offset `a` on are `b 0, b 1, …`, `m` of them, and lie below `SRC_LEN`. -/
def SrcHas (s : State) (a m : Nat) (b : Nat → Byte) : Prop :=
  a + m ≤ s.SRC_LEN.toNat ∧ ∀ i < m, s.byteAt .src (a + i) = some (b i)

/-- `SRC` is written from offset `a` up to `SRC_LEN`, with the bytes `b 0, b 1, …`. -/
def SrcEnds (s : State) (a : Nat) (b : Nat → Byte) : Prop :=
  a ≤ s.SRC_LEN.toNat ∧ ∀ i, a + i < s.SRC_LEN.toNat → s.byteAt .src (a + i) = some (b i)

/-- A little-endian 16-bit number (rule R67). -/
def le16 (b0 b1 : Byte) : Nat := b0.toNat + 256 * b1.toNat

/-- A version of rule R192 and its `GIF_VERSION`: "87a", "89a", or digit, digit, letter. -/
def IsVersion (v0 v1 v2 : Byte) (ver : Word) : Prop :=
  (v0 = 0x38 ∧ v1 = 0x37 ∧ v2 = 0x61 ∧ ver = 1) ∨ (v0 = 0x38 ∧ v1 = 0x39 ∧ v2 = 0x61 ∧ ver = 2) ∨
    (¬(v0 = 0x38 ∧ v1 = 0x37 ∧ v2 = 0x61) ∧ ¬(v0 = 0x38 ∧ v1 = 0x39 ∧ v2 = 0x61) ∧
      (0x30 ≤ v0.toNat ∧ v0.toNat ≤ 0x39) ∧ (0x30 ≤ v1.toNat ∧ v1.toNat ≤ 0x39) ∧
      ((0x41 ≤ v2.toNat ∧ v2.toNat ≤ 0x5A) ∨ (0x61 ≤ v2.toNat ∧ v2.toNat ≤ 0x7A)) ∧ ver = 3)

/-- The state in which `GIF_OPEN` begins rule R191: command start done, flags and records cleared (rules R133, R190). -/
def openedGif (s : State) : State :=
  { s with
    status := { s.status with STATE := .busy .start, GIF_READY := false, MULTIFRAME := false, LAST_CMD := 1 }
    fault := noFault
    gif :=
      { GIF_VERSION := 0, GIF_SCREEN_W := 0, GIF_SCREEN_H := 0, GIF_FLAGS := 0, GIF_BG := 0, GIF_ASPECT := 0,
        GIF_GCT_COLORS := 0, GIF_GCT_OFF := 0, GIF_FRAME_COUNT := 0, GIF_POS := 0 }
    frame0 :=
      { F0_LEFT := 0, F0_TOP := 0, F0_W := 0, F0_H := 0, F0_FLAGS := 0, F0_LCT_COLORS := 0, F0_LCT_OFF := 0,
        F0_CODESIZE := 0, F0_DATA_OFF := 0 } }

/-- The next turn is the running unit's, and `u` is the state it takes it in: the host has nothing to do, waits, or polls
(log 1). -/
def UnitTurn (s u : State) : Prop :=
  (s.host = [] ∧ u = s) ∨ (∃ rest, s.host = .wait :: rest ∧ u = { s with host := rest }) ∨
    (∃ rest, s.host = .poll :: rest ∧ s.busy = true ∧ u = s)

/-- The number `ReadBitsMSB(S, p, w)` as the sum of rule R66, over the bytes `f 0, f 1, …` of `S`. -/
def streamValue (f : Nat → Byte) (p w : Nat) : Nat :=
  ((List.range w).map fun i => ((f ((p + i) / 8)).getMsbD ((p + i) % 8)).toNat * 2 ^ (w - 1 - i)).sum

/-- The bytes of a chain of sub-blocks, each a length byte and its data, with the terminator (rules R16, R102). -/
def chainBytes (blocks : List (List Byte)) : List Byte :=
  (blocks.map fun d => trunc8 d.length :: d).flatten ++ [0x00]

/-- `t` is `s` with `m` bytes of `OBUF` appended, those of `bs`, and `LZW_OLEN` moved on (rules R64, R234). -/
def Appended (bs : List Byte) (m : Nat) (s t : State) : Prop :=
  t.lzw.LZW_OLEN = trunc32 (s.lzw.LZW_OLEN.toNat + m) ∧
    ∀ a, t.byteAt .obuf a =
      if s.lzw.LZW_OLEN.toNat ≤ a ∧ a < s.lzw.LZW_OLEN.toNat + m then bs[a - s.lzw.LZW_OLEN.toNat]?
      else s.byteAt .obuf a

/-- `t` is `s` with `cur` emitted, `new` inserted at the next assignable code, the width grown if that code is now `2^w`,
`v` remembered, and nothing else changed (rules R230 to R232, R234). -/
def EmittedInserted (cur new : Str) (v : Nat) (s t : State) : Prop :=
  t = { s with
    obuf := t.obuf
    dict := t.dict
    lzw := { s.lzw with
      LZW_OLEN := t.lzw.LZW_OLEN
      LZW_NEXT := trunc32 (s.lzw.LZW_NEXT.toNat + 1)
      LZW_W :=
        if s.lzw.LZW_NEXT.toNat + 1 = 2 ^ s.lzw.LZW_W.toNat then trunc32 (s.lzw.LZW_W.toNat + 1) else s.lzw.LZW_W
      LZW_PREV := trunc32 v } } ∧
  Appended cur.toList cur.toList.length s t ∧
  ∀ c, Table.get t.dict c = if c = s.lzw.LZW_NEXT.toNat then some new else Table.get s.dict c

/-- `t` is `s` with the bytes of `bs` appended that fit `OBUF`, and nothing else changed (rule R234). -/
def PartlyEmitted (bs : List Byte) (s t : State) : Prop :=
  t = { s with obuf := t.obuf, lzw := { s.lzw with LZW_OLEN := t.lzw.LZW_OLEN } } ∧
    Appended bs (s.cfg.OBUF_CAP - s.lzw.LZW_OLEN.toNat) s t

/-- `t` is `s` with the bytes `b 0, …, b (m - 1)` copied to the end of what `CBUF` holds, and otherwise as `u` (rule R212). -/
def Copied (b : Nat → Byte) (m : Nat) (s u t : State) : Prop :=
  t = { u with cbuf := t.cbuf } ∧
    ∀ a, t.byteAt .cbuf a =
      if s.gscCount ≤ a ∧ a < s.gscCount + m then some (b (a - s.gscCount)) else s.byteAt .cbuf a

/-- The file row, the column and the display row of the pixel `BPD` stands at (rule R153). -/
def pixelRow (s : State) : Nat := s.bmpWork.BMP_ROW.toNat

/-- See `pixelRow`. -/
def pixelCol (s : State) : Nat := s.bmpWork.BMP_X.toNat

/-- See `pixelRow`. -/
def pixelY (s : State) : Nat := s.bmp.BMP_HEIGHT.toNat - 1 - pixelRow s

/-- The stride of rule R152. -/
def rowBytes (s : State) : Nat := (s.bmp.BMP_BPP.toNat * s.bmp.BMP_WIDTH.toNat + 31) / 32 * 4

/-- `rowbase` of rule R153 at the pixel at hand. -/
def pixelBase (s : State) : Nat := s.bmp.BMP_DATA_OFF.toNat + pixelRow s * rowBytes s

/-- The pixel at hand lies inside the viewport (rule R154). -/
def PixelInside (s : State) : Prop := pixelCol s < s.bmp.VIEW_W.toNat ∧ pixelY s < s.bmp.VIEW_H.toNat

/-- The offset of the pixel's cell (rules R65, R115). -/
def cellOffset (s : State) : Nat := (pixelY s * s.bmp.SINK_STRIDE.toNat + pixelCol s) * 4

/-- The pixel's cell, if it is to be written, fits `SINK` (rule R65). -/
def CellFits (s : State) : Prop := PixelInside s → cellOffset s + 4 ≤ s.cfg.SINK_CAP

/-- Where rule R153 goes after the pixel at hand: the next column, the next file row, or the end of the command. -/
def MovedOn (s t : State) : Prop :=
  (pixelCol s + 1 < s.bmp.BMP_WIDTH.toNat → t.status = s.status ∧
    t.bmpWork =
      { BMP_CUR := trunc32 (pixelBase s + s.bmp.BMP_BPP.toNat * (pixelCol s + 1) / 8)
        BMP_X := trunc32 (pixelCol s + 1), BMP_ROW := s.bmpWork.BMP_ROW }) ∧
  (s.bmp.BMP_WIDTH.toNat ≤ pixelCol s + 1 → pixelRow s + 1 < s.bmp.BMP_HEIGHT.toNat → t.status = s.status ∧
    t.bmpWork =
      { BMP_CUR := trunc32 (s.bmp.BMP_DATA_OFF.toNat + (pixelRow s + 1) * rowBytes s)
        BMP_X := 0, BMP_ROW := trunc32 (pixelRow s + 1) }) ∧
  (s.bmp.BMP_WIDTH.toNat ≤ pixelCol s + 1 → s.bmp.BMP_HEIGHT.toNat ≤ pixelRow s + 1 →
    t.status = { s.status with STATE := .done } ∧
    t.bmpWork =
      { BMP_CUR := trunc32 (s.bmp.BMP_DATA_OFF.toNat + rowBytes s * s.bmp.BMP_HEIGHT.toNat)
        BMP_X := 0, BMP_ROW := s.bmp.BMP_HEIGHT })

/-- `t` is `s` after the pixel at hand, whose cell is `px`: the cell is written in the order R, G, B, A if the pixel lies
inside the viewport, no other byte of `SINK` changes, `BPD` moves on, and nothing else changes (rules R65, R153,
R154). -/
def Rendered (px : Cell) (s t : State) : Prop :=
  t = { s with status := t.status, sink := t.sink, bmpWork := t.bmpWork } ∧ MovedOn s t ∧
  (PixelInside s → ∀ a, t.byteAt .sink a =
    if cellOffset s ≤ a ∧ a < cellOffset s + 4 then [px.r, px.g, px.b, px.a][a - cellOffset s]?
    else s.byteAt .sink a) ∧
  (¬PixelInside s → ∀ a, t.byteAt .sink a = s.byteAt .sink a)

/-- `index` is the palette index of the pixel at hand in the mode `i` (rules R160 to R162). -/
def PaletteIndex (i : Instr) (s : State) (index : Nat) : Prop :=
  (i = .bmpP1 ∧ ∃ b, SrcHas s (pixelBase s + pixelCol s / 8) 1 b ∧ index = ((b 0).getMsbD (pixelCol s % 8)).toNat) ∨
  (i = .bmpP4 ∧ ∃ b, SrcHas s (pixelBase s + pixelCol s / 2) 1 b ∧
    index = if pixelCol s % 2 = 0 then (b 0).toNat / 16 else (b 0).toNat % 16) ∨
  (i = .bmpP8 ∧ ∃ b, SrcHas s (pixelBase s + pixelCol s) 1 b ∧ index = (b 0).toNat)

/-- The index is not refused by the check of rule R164. -/
def IndexAllowed (s : State) (index : Nat) : Prop := s.bmp.BMP_PAL_COUNT = 0 ∨ index < s.bmp.BMP_PAL_COUNT.toNat

/-- `bfscale(raw, mask)` as rule R168 writes it, for either value of `BF_PROD_BITS`. -/
def scaled (s : State) (raw : Nat) (mask : Word) : Byte :=
  if s.cfg.BF_PROD_BITS = .unbounded then trunc8 ((raw &&& mask.toNat) * 255 / mask.toNat)
  else trunc8 ((raw &&& mask.toNat) * 255 % 2 ^ 32 / mask.toNat)

/-- The alpha byte of the BitFields modes (rules R167, R171, R172). -/
def scaledAlpha (s : State) (raw : Nat) : Byte :=
  if s.bmp.BMP_HAS_AMASK.getLsbD 0 = true ∧ s.bmp.BMP_MASK_A ≠ 0 then scaled s raw s.bmp.BMP_MASK_A else 255

/-! ### The register file -/

/-- The table of 10_state.md section 8: each index that is not reserved, and what the host reads there. -/
def registerTable (s : State) : List (Nat × Word) :=
  [(0x00, 0), (0x01, s.status.word), (0x02, s.fault.FAULT_KIND), (0x03, s.fault.FAULT_CAUSE), (0x04, s.fault.FAULT_INFO),
   (0x05, s.SRC_LEN)] ++
  [(0x10, s.gif.GIF_VERSION), (0x11, s.gif.GIF_SCREEN_W), (0x12, s.gif.GIF_SCREEN_H), (0x13, s.gif.GIF_FLAGS),
   (0x14, s.gif.GIF_BG), (0x15, s.gif.GIF_ASPECT), (0x16, s.gif.GIF_GCT_COLORS), (0x17, s.gif.GIF_GCT_OFF),
   (0x18, s.gif.GIF_FRAME_COUNT), (0x19, s.gif.GIF_POS)] ++
  [(0x20, s.frame0.F0_LEFT), (0x21, s.frame0.F0_TOP), (0x22, s.frame0.F0_W), (0x23, s.frame0.F0_H),
   (0x24, s.frame0.F0_FLAGS), (0x25, s.frame0.F0_LCT_COLORS), (0x26, s.frame0.F0_LCT_OFF), (0x27, s.frame0.F0_CODESIZE),
   (0x28, s.frame0.F0_DATA_OFF)] ++
  [(0x30, s.lzw.LZW_N), (0x31, s.lzw.LZW_CLEN), (0x32, s.lzw.LZW_OLEN), (0x33, s.lzw.LZW_BITPOS), (0x34, s.lzw.LZW_W),
   (0x35, s.lzw.LZW_NEXT), (0x36, s.lzw.LZW_PREV)] ++
  [(0x40, s.bmp.BMP_DATA_OFF), (0x41, s.bmp.BMP_WIDTH), (0x42, s.bmp.BMP_HEIGHT), (0x43, s.bmp.BMP_BPP),
   (0x44, s.bmp.BMP_COMP), (0x45, s.bmp.BMP_PAL_BASE), (0x46, s.bmp.BMP_PAL_COUNT), (0x47, s.bmp.BMP_MASK_R),
   (0x48, s.bmp.BMP_MASK_G), (0x49, s.bmp.BMP_MASK_B), (0x4A, s.bmp.BMP_MASK_A), (0x4B, s.bmp.BMP_HAS_AMASK),
   (0x4C, s.bmp.VIEW_W), (0x4D, s.bmp.VIEW_H), (0x4E, s.bmp.SINK_STRIDE), (0x4F, s.bmpWork.BMP_CUR)] ++
  [(0x50, s.bmpWork.BMP_X), (0x51, s.bmpWork.BMP_ROW)]

/-- The same table's `RW` rows: each index, and the state after a host write of `v` there (rules R20, R25). -/
def writableTable (v : Word) (s : State) : List (Nat × State) :=
  [(0x05, { s with SRC_LEN := v, status := { s.status with GIF_READY := false } }),
   (0x30, { s with lzw := { s.lzw with LZW_N := v } }),
   (0x31, { s with lzw := { s.lzw with LZW_CLEN := v } })] ++
  [(0x40, { s with bmp := { s.bmp with BMP_DATA_OFF := v } }),
   (0x41, { s with bmp := { s.bmp with BMP_WIDTH := v } }),
   (0x42, { s with bmp := { s.bmp with BMP_HEIGHT := v } }),
   (0x43, { s with bmp := { s.bmp with BMP_BPP := v } }),
   (0x44, { s with bmp := { s.bmp with BMP_COMP := v } }),
   (0x45, { s with bmp := { s.bmp with BMP_PAL_BASE := v } }),
   (0x46, { s with bmp := { s.bmp with BMP_PAL_COUNT := v } }),
   (0x47, { s with bmp := { s.bmp with BMP_MASK_R := v } }),
   (0x48, { s with bmp := { s.bmp with BMP_MASK_G := v } }),
   (0x49, { s with bmp := { s.bmp with BMP_MASK_B := v } }),
   (0x4A, { s with bmp := { s.bmp with BMP_MASK_A := v } }),
   (0x4B, { s with bmp := { s.bmp with BMP_HAS_AMASK := v } }),
   (0x4C, { s with bmp := { s.bmp with VIEW_W := v } }),
   (0x4D, { s with bmp := { s.bmp with VIEW_H := v } }),
   (0x4E, { s with bmp := { s.bmp with SINK_STRIDE := v } })]

/-! ### The same machine to `LZW_RUN` -/

/-- Two states are alike to the LZW unit: what rule R220 lets the result depend on (`CBUF` below `LZW_CLEN`, the LZW
registers, `WMAX`, `OBUF_CAP`), what the unit has built (`DICT`, `OBUF` below `LZW_OLEN`), and what it reports. -/
structure LzwAlike (s t : State) : Prop where
  wmax : s.cfg.WMAX = t.cfg.WMAX
  obufCap : s.cfg.OBUF_CAP = t.cfg.OBUF_CAP
  lzw : s.lzw = t.lzw
  dict : s.dict = t.dict
  state : s.status.STATE = t.status.STATE
  eoi : s.status.EOI_SEEN = t.status.EOI_SEEN
  fault : s.fault = t.fault
  cbuf : ∀ a < s.lzw.LZW_CLEN.toNat, s.byteAt .cbuf a = t.byteAt .cbuf a
  obuf : ∀ a < s.lzw.LZW_OLEN.toNat, s.byteAt .obuf a = t.byteAt .obuf a

/-! ### The prefix-table dictionary of rule R238 -/

/-- An LZW decoder whose dictionary stores, for each inserted code in order, the pair (prefix code, appended byte) of rule
R238; `prev` is `none` where the spec writes `NONE`. -/
structure PrefixLzw where
  n : Nat
  w : Nat
  prev : Option Nat
  table : List (Nat × Byte)
  out : List Byte
  deriving DecidableEq, Repr

namespace PrefixLzw

/-- The next assignable code. -/
def next (m : PrefixLzw) : Nat := 2 ^ m.n + 2 + m.table.length

/-- The string of a code, rebuilt by walking prefixes; `fuel` above the code is enough. -/
def string (m : PrefixLzw) : Nat → Nat → List Byte
  | 0, _ => []
  | fuel + 1, c =>
    if c < 2 ^ m.n then [trunc8 c]
    else
      match m.table[c - (2 ^ m.n + 2)]? with
      | none => []
      | some (p, b) => m.string fuel p ++ [b]

/-- One code that is neither the end-of-information code nor out of bounds (rules R227 to R231). -/
def code (m : PrefixLzw) (v : Nat) : PrefixLzw :=
  if v = 2 ^ m.n then { m with w := m.n + 1, prev := none, table := [] }
  else
    match m.prev with
    | none => { m with out := m.out ++ [trunc8 v], prev := some v }
    | some p =>
      let sp := m.string (p + 1) p
      let cur := if v < m.next then m.string (v + 1) v else sp ++ sp.take 1
      { m with
        w := if m.next + 1 = 2 ^ m.w then m.w + 1 else m.w
        prev := some v
        table := m.table ++ [(p, cur.headD 0)]
        out := m.out ++ cur }

/-- Decode the stream bits from `p` up to `bits` of the bytes `f 0, f 1, …`, at most `fuel` codes of them, stopping at the
end-of-information code or where fewer bits than a code are left (rules R225, R226, R228). -/
def decodeFrom (f : Nat → Byte) (bits : Nat) : Nat → Nat → PrefixLzw → PrefixLzw
  | 0, _, m => m
  | fuel + 1, p, m =>
    if bits < p + m.w then m
    else if streamValue f p m.w = 2 ^ m.n + 1 then m
    else decodeFrom f bits fuel (p + m.w) (m.code (streamValue f p m.w))

/-- The decoder before the first code (rule R224). -/
def start (n : Nat) : PrefixLzw where
  n := n
  w := n + 1
  prev := none
  table := []
  out := []

/-- The prefix-table decoder stands for the machine's state: same sizes, same previous code, the walked string of every
code in `DICT` is its entry, prefixes are earlier codes of the domain, and the output so far is `OBUF`. -/
structure Stands (m : PrefixLzw) (s : State) : Prop where
  n : m.n = s.lzw.LZW_N.toNat
  w : m.w = s.lzw.LZW_W.toNat
  next : m.next = s.lzw.LZW_NEXT.toNat
  prev : m.prev = if s.lzw.LZW_PREV = NONE then none else some s.lzw.LZW_PREV.toNat
  string : ∀ c x, Table.get s.dict c = some x → m.string (c + 1) c = x.toList
  prefixes : ∀ i p b, m.table[i]? = some (p, b) → p < 2 ^ m.n + 2 + i ∧ (p < 2 ^ m.n ∨ 2 ^ m.n + 2 ≤ p)
  olen : s.lzw.LZW_OLEN.toNat = m.out.length
  out : ∀ a < m.out.length, s.byteAt .obuf a = m.out[a]?

end PrefixLzw

end Sys2Proof.Machine
end

