-- ==== Sys2Proof/Certificates/Slice0/Obligations.lean ====
section
/-! DEFINITION. The statements for the provers. A next state is written as `s` with the fields that change, so each statement is
its own frame: every register, flag and memory it does not name keeps its value. -/

open Sys2Proof Sys2Proof.Machine

/-! ### Host commands -/

/-- Rule R135: `NOP` starts, then ends `DONE`; it acknowledges a fault. -/
def Obligations.NopAcknowledges : Prop :=
  ∀ s : State, ∃ t, exec .nop s = .next t ∧
    t = { s with status := { s.status with STATE := .done, LAST_CMD := 0 }, fault := noFault } ∧
    (s.status.word = 0x0000030B → t.status.word = 0x0000000A)

/-- Rules R140, R265: a reserved command word, and a command that reads `SRC` with a length beyond the memory, fault before any
unit runs. -/
def Obligations.CommandProtocolFaults : Prop :=
  ∀ s : State,
    (∀ c : Word, 4 < c.toNat → exec (.cmdReserved c) s = .next (refusedAtStart (c.setWidth 4) 7 0x01 c s)) ∧
    (s.cfg.SRC_CAP < s.SRC_LEN.toNat →
      exec .gifOpen s = .next (refusedAtStart 1 7 0x02 s.SRC_LEN s) ∧
      exec .gifConcat s = .next (refusedAtStart 2 7 0x02 s.SRC_LEN s) ∧
      exec .bmpRender s = .next (refusedAtStart 4 7 0x02 s.SRC_LEN s))

/-- Rule R292: what each command does straight after reset. -/
def Obligations.CommandsAfterReset : Prop :=
  ∀ cfg : Config,
    exec .nop (State.resetWith cfg) =
      .next { State.resetWith cfg with status := { (State.resetWith cfg).status with STATE := .done } } ∧
    exec .gifOpen (State.resetWith cfg) = .next (refusedAtStart 1 3 0x10 0 (State.resetWith cfg)) ∧
    exec .gifConcat (State.resetWith cfg) = .next (refusedAtStart 2 7 0x03 0 (State.resetWith cfg)) ∧
    exec .lzwRun (State.resetWith cfg) = .next (refusedAtStart 3 2 0x20 0 (State.resetWith cfg)) ∧
    exec .bmpRender (State.resetWith cfg) = .next (refusedAtStart 4 2 0x30 0 (State.resetWith cfg))

/-! ### `LZW_RUN` and the code classes -/

/-- Rules R223, R224: with a length and a code size that pass the checks, `LZW_RUN` clears its cursor, its output and `EOI_SEEN`,
and rebuilds the dictionary. -/
def Obligations.LzwRunInitialises : Prop :=
  ∀ s : State, s.lzw.LZW_CLEN.toNat ≤ s.cfg.CBUF_CAP → s.lzw.LZW_CLEN.toNat < 2 ^ 29 →
    2 ≤ s.lzw.LZW_N.toNat → s.lzw.LZW_N.toNat ≤ 8 →
    ∃ t, exec .lzwRun s = .next t ∧
      t = { s with
        status := { s.status with STATE := .busy .lzw, EOI_SEEN := false, LAST_CMD := 3 }
        fault := noFault
        dict := t.dict
        lzw := { s.lzw with
          LZW_OLEN := 0
          LZW_BITPOS := 0
          LZW_W := trunc32 (s.lzw.LZW_N.toNat + 1)
          LZW_NEXT := trunc32 (2 ^ s.lzw.LZW_N.toNat + 2)
          LZW_PREV := 0xFFFFFFFF } } ∧
      ∀ c, Table.get t.dict c =
        if c < 2 ^ s.lzw.LZW_N.toNat then some { head := BitVec.ofNat 8 c, tail := [] } else none

/-- Rules R221, R222: the length check, then the code-size check; nothing else has happened. -/
def Obligations.LzwRunRejects : Prop :=
  ∀ s : State,
    (s.cfg.CBUF_CAP < s.lzw.LZW_CLEN.toNat ∨ 2 ^ 29 ≤ s.lzw.LZW_CLEN.toNat →
      exec .lzwRun s = .next (refusedAtStart 3 7 0x04 s.lzw.LZW_CLEN s)) ∧
    (s.lzw.LZW_CLEN.toNat ≤ s.cfg.CBUF_CAP → s.lzw.LZW_CLEN.toNat < 2 ^ 29 →
      s.lzw.LZW_N.toNat < 2 ∨ 8 < s.lzw.LZW_N.toNat →
      exec .lzwRun s = .next (refusedAtStart 3 2 0x20 s.lzw.LZW_N s))

/-- Rule R227: the code `2^n`, in any context, rebuilds the dictionary and forgets the previous code. -/
def Obligations.LzwClearResets : Prop :=
  (∀ c : CodeCtx, decodeCode c (2 ^ c.n) = .lzwClear) ∧
  ∀ s : State, ∃ t, exec .lzwClear s = .next t ∧
    t = { s with
      dict := t.dict
      lzw := { s.lzw with
        LZW_W := trunc32 (s.lzw.LZW_N.toNat + 1)
        LZW_NEXT := trunc32 (2 ^ s.lzw.LZW_N.toNat + 2)
        LZW_PREV := 0xFFFFFFFF } } ∧
    ∀ c, Table.get t.dict c =
      if c < 2 ^ s.lzw.LZW_N.toNat then some { head := BitVec.ofNat 8 c, tail := [] } else none

/-- Rule R228: the end-of-information code, in any context, ends the run. -/
def Obligations.LzwEoiStops : Prop :=
  (∀ c : CodeCtx, decodeCode c (2 ^ c.n + 1) = .lzwEoi) ∧
  ∀ s : State, exec .lzwEoi s = .next { s with status := { s.status with STATE := .done, EOI_SEEN := true } }

/-- Rule R229: a literal code with no previous code is emitted and remembered, and nothing is inserted; with `OBUF` full it
faults. -/
def Obligations.LzwFirstEmits : Prop :=
  (∀ (c : CodeCtx) (v : Nat), c.hasPrev = false → v < 2 ^ c.n → decodeCode c v = .lzwFirst v) ∧
  ∀ (s : State) (v : Nat), s.cfg.admissible = true →
    (s.lzw.LZW_OLEN.toNat < s.cfg.OBUF_CAP →
      ∃ t, exec (.lzwFirst v) s = .next t ∧
        t = { s with
          obuf := t.obuf
          lzw := { s.lzw with LZW_OLEN := trunc32 (s.lzw.LZW_OLEN.toNat + 1), LZW_PREV := trunc32 v } } ∧
        Appended [trunc8 v] 1 s t) ∧
    (s.cfg.OBUF_CAP ≤ s.lzw.LZW_OLEN.toNat →
      exec (.lzwFirst v) s = .next (faulted 6 0x23 s.lzw.LZW_OLEN s))

/-- Rules R230, R232: a code in the dictionary. -/
def Obligations.LzwDictEmitsAndInserts : Prop :=
  ∀ (s : State) (v : Nat) (cur prev : Str), s.cfg.admissible = true → Table.get s.dict v = some cur →
    Table.get s.dict s.lzw.LZW_PREV.toNat = some prev →
    s.lzw.LZW_OLEN.toNat + cur.toList.length ≤ s.cfg.OBUF_CAP →
    ∃ t, exec (.lzwDict v) s = .next t ∧
      EmittedInserted cur { head := prev.head, tail := prev.tail ++ [cur.head] } v s t

/-- Rule R231: the next assignable code. -/
def Obligations.LzwKwkwkEmitsAndInserts : Prop :=
  ∀ (s : State) (prev : Str), s.cfg.admissible = true → Table.get s.dict s.lzw.LZW_PREV.toNat = some prev →
    s.lzw.LZW_OLEN.toNat + prev.toList.length + 1 ≤ s.cfg.OBUF_CAP →
    ∃ t, exec .lzwKwkwk s = .next t ∧
      EmittedInserted { head := prev.head, tail := prev.tail ++ [prev.head] }
        { head := prev.head, tail := prev.tail ++ [prev.head] } s.lzw.LZW_NEXT.toNat s t

/-- Rule R234: a string that does not fit `OBUF` is appended as far as it fits, and nothing is inserted or remembered. -/
def Obligations.LzwOutputFull : Prop :=
  ∀ (s : State) (i : Instr) (bs : List Byte), s.cfg.admissible = true → s.lzw.LZW_OLEN.toNat ≤ s.cfg.OBUF_CAP →
    s.cfg.OBUF_CAP < s.lzw.LZW_OLEN.toNat + bs.length →
    ((∃ v, i = .lzwFirst v ∧ bs = [trunc8 v]) ∨
      (∃ v cur, i = .lzwDict v ∧ Table.get s.dict v = some cur ∧ bs = cur.toList) ∨
      (∃ prev, i = .lzwKwkwk ∧ Table.get s.dict s.lzw.LZW_PREV.toNat = some prev ∧ bs = prev.toList ++ [prev.head])) →
    ∃ u, exec i s = .next (faulted 6 0x23 (trunc32 s.cfg.OBUF_CAP) u) ∧ PartlyEmitted bs s u

/-- Rule R233: a code out of bounds, with and without a previous code. -/
def Obligations.LzwRangeFaults : Prop :=
  (∀ (s : State) (v : Nat), exec (.lzwRange v) s = .next (faulted 4 0x21 (trunc32 v) s)) ∧
  ∀ (c : CodeCtx) (v : Nat), c.ok = true →
    (c.hasPrev = true ∧ c.next < v ∨ c.hasPrev = false ∧ 2 ^ c.n + 1 < v) → decodeCode c v = .lzwRange v

/-- Rules R225, R226: one iteration of the fetch loop. Fewer bits than a code are left: the run ends with `EOI_SEEN` 0. A code
wider than `WMAX`: a fault. Else the code is read, the cursor moves past it, and its class rule runs; where nothing has written a
byte the code lies in, the step is refused, naming the first such byte (rule R38). -/
def Obligations.LzwFetchLoop : Prop :=
  ∀ s u : State, UnitTurn s u → s.status.STATE = .busy .lzw →
    (8 * s.lzw.LZW_CLEN.toNat < s.lzw.LZW_BITPOS.toNat + s.lzw.LZW_W.toNat →
      step s = .next { u with status := { u.status with STATE := .done } } ∧ (Inv s → s.status.EOI_SEEN = false)) ∧
    (s.lzw.LZW_BITPOS.toNat + s.lzw.LZW_W.toNat ≤ 8 * s.lzw.LZW_CLEN.toNat → s.cfg.WMAX < s.lzw.LZW_W.toNat →
      step s = .next (faulted 6 0x22 s.lzw.LZW_W u)) ∧
    (s.lzw.LZW_BITPOS.toNat + s.lzw.LZW_W.toNat ≤ 8 * s.lzw.LZW_CLEN.toNat → s.lzw.LZW_W.toNat ≤ s.cfg.WMAX →
      ∀ f : Nat → Byte, (∀ a < s.lzw.LZW_CLEN.toNat, s.byteAt .cbuf a = some (f a)) →
      step s =
        exec
          (decodeCode
            { n := s.lzw.LZW_N.toNat
              w := s.lzw.LZW_W.toNat
              next := s.lzw.LZW_NEXT.toNat
              hasPrev := s.lzw.LZW_PREV != 0xFFFFFFFF
              off := s.lzw.LZW_BITPOS.toNat % 8 }
            (streamValue f s.lzw.LZW_BITPOS.toNat s.lzw.LZW_W.toNat))
          { u with lzw := { u.lzw with LZW_BITPOS := trunc32 (s.lzw.LZW_BITPOS.toNat + s.lzw.LZW_W.toNat) } }) ∧
    (s.lzw.LZW_BITPOS.toNat + s.lzw.LZW_W.toNat ≤ 8 * s.lzw.LZW_CLEN.toNat → s.lzw.LZW_W.toNat ≤ s.cfg.WMAX →
      ∀ a, s.lzw.LZW_BITPOS.toNat / 8 ≤ a → 8 * a < s.lzw.LZW_BITPOS.toNat + s.lzw.LZW_W.toNat →
      s.byteAt .cbuf a = none →
      (∀ a', s.lzw.LZW_BITPOS.toNat / 8 ≤ a' → a' < a → (s.byteAt .cbuf a').isSome = true) →
      step s = .refused (.unwrittenByte .cbuf a))

/-- Rule R220: the result depends on nothing but `CBUF` below `LZW_CLEN`, `LZW_CLEN`, `LZW_N`, `WMAX` and `OBUF_CAP`. Two
machines alike in these run alike, whatever else differs. -/
def Obligations.LzwRunIsPure : Prop :=
  ∀ (s t : State) (k : Nat) (s' : State), s.host = [.writeReg 0 3] → t.host = [.writeReg 0 3] →
    s.busy = false → t.busy = false → s.cfg.WMAX = t.cfg.WMAX → s.cfg.OBUF_CAP = t.cfg.OBUF_CAP →
    s.lzw.LZW_N = t.lzw.LZW_N → s.lzw.LZW_CLEN = t.lzw.LZW_CLEN →
    s.lzw.LZW_CLEN.toNat ≤ s.cfg.CBUF_CAP → t.lzw.LZW_CLEN.toNat ≤ t.cfg.CBUF_CAP →
    2 ≤ s.lzw.LZW_N.toNat → s.lzw.LZW_N.toNat ≤ 8 → s.lzw.LZW_CLEN.toNat < 2 ^ 29 →
    (∀ a < s.lzw.LZW_CLEN.toNat, s.byteAt .cbuf a = t.byteAt .cbuf a) →
    core.run (k + 1) s = .next s' → ∃ t', core.run (k + 1) t = .next t' ∧ LzwAlike s' t'

/-- Rule R238: a dictionary of pairs (prefix code, appended byte) does the same as the strings of `DICT`. After the
initialisation the empty table stands for the machine, and after every code it still does. -/
def Obligations.PrefixTableSimulates : Prop :=
  (∀ s t : State, s.lzw.LZW_N.toNat ≤ 8 → 2 ≤ s.lzw.LZW_N.toNat → s.lzw.LZW_CLEN.toNat ≤ s.cfg.CBUF_CAP →
    s.lzw.LZW_CLEN.toNat < 2 ^ 29 → exec .lzwRun s = .next t →
    (PrefixLzw.start s.lzw.LZW_N.toNat).Stands t) ∧
  ∀ (s u t : State) (m : PrefixLzw) (f : Nat → Byte), Inv s → UnitTurn s u → s.status.STATE = .busy .lzw →
    (∀ a < s.lzw.LZW_CLEN.toNat, s.byteAt .cbuf a = some (f a)) → m.Stands s → step s = .next t →
    (t.status.STATE = .busy .lzw →
      (m.code (streamValue f s.lzw.LZW_BITPOS.toNat s.lzw.LZW_W.toNat)).Stands t) ∧
    (t.status.STATE = .done → m.Stands t)

/-- Rules R235, R238: when a run ends `DONE`, `OBUF` holds what the prefix-table decoder makes of the stream. -/
def Obligations.LzwRunDecodesTheStream : Prop :=
  ∀ (s t : State) (k : Nat) (f : Nat → Byte), Inv s → s.host = [.writeReg 0 3] → s.busy = false →
    2 ≤ s.lzw.LZW_N.toNat → s.lzw.LZW_N.toNat ≤ 8 → s.lzw.LZW_CLEN.toNat ≤ s.cfg.CBUF_CAP →
    s.lzw.LZW_CLEN.toNat < 2 ^ 29 → (∀ a < s.lzw.LZW_CLEN.toNat, s.byteAt .cbuf a = some (f a)) →
    core.run (k + 1) s = .next t → t.status.STATE = .done →
    ∃ out, out = (PrefixLzw.decodeFrom f (8 * s.lzw.LZW_CLEN.toNat) (8 * s.lzw.LZW_CLEN.toNat) 0
        (PrefixLzw.start s.lzw.LZW_N.toNat)).out ∧
      t.lzw.LZW_OLEN.toNat = out.length ∧ ∀ a < out.length, t.byteAt .obuf a = out[a]?

/-! ### `GIF_OPEN` -/

/-- Rules R190 to R196, R67: the header of a file that passes every check. The byte order of the 16-bit fields is the spec's
own (log 24). -/
def Obligations.GifOpenAcceptsHeader : Prop :=
  ∀ (s : State) (b : Nat → Byte) (ver : Word), s.SRC_LEN.toNat ≤ s.cfg.SRC_CAP → SrcHas s 0 13 b →
    b 0 = 0x47 → b 1 = 0x49 → b 2 = 0x46 → IsVersion (b 3) (b 4) (b 5) ver →
    s.byteAt .src (s.SRC_LEN.toNat - 1) = some 0x3B → le16 (b 6) (b 7) ≠ 0 → le16 (b 8) (b 9) ≠ 0 →
    exec .gifOpen s = .next
      { openedGif s with
        status := { (openedGif s).status with STATE := .busy .scan }
        gif :=
          { GIF_VERSION := ver
            GIF_SCREEN_W := trunc32 (le16 (b 6) (b 7))
            GIF_SCREEN_H := trunc32 (le16 (b 8) (b 9))
            GIF_FLAGS := (b 10).setWidth 32
            GIF_BG := (b 11).setWidth 32
            GIF_ASPECT := (b 12).setWidth 32
            GIF_GCT_COLORS := if (b 10).getLsbD 7 then trunc32 (2 ^ ((b 10).toNat % 8 + 1)) else 0
            GIF_GCT_OFF := if (b 10).getLsbD 7 then 13 else 0
            GIF_FRAME_COUNT := 0
            GIF_POS := trunc32 (if (b 10).getLsbD 7 then 13 + 3 * 2 ^ ((b 10).toNat % 8 + 1) else 13) }
        gscPos := if (b 10).getLsbD 7 then 13 + 3 * 2 ^ ((b 10).toNat % 8 + 1) else 13 }

/-- Rules R191 to R193: signature, version and trailer, in that order, each with its fault; a file too short for them faults at
the first byte it lacks. -/
def Obligations.GifHeaderFaultsInOrder : Prop :=
  ∀ (s : State) (b : Nat → Byte), s.SRC_LEN.toNat ≤ s.cfg.SRC_CAP →
    (s.SRC_LEN.toNat < 3 → SrcHas s 0 s.SRC_LEN.toNat b →
      exec .gifOpen s = .next (faulted 3 0x10 s.SRC_LEN (openedGif s))) ∧
    (SrcHas s 0 3 b → ¬(b 0 = 0x47 ∧ b 1 = 0x49 ∧ b 2 = 0x46) →
      exec .gifOpen s = .next (faulted 2 0x11
        (trunc32 ((b 0).toNat + 256 * (b 1).toNat + 65536 * (b 2).toNat)) (openedGif s))) ∧
    (b 0 = 0x47 → b 1 = 0x49 → b 2 = 0x46 →
      (3 ≤ s.SRC_LEN.toNat → s.SRC_LEN.toNat < 6 → SrcHas s 0 s.SRC_LEN.toNat b →
        exec .gifOpen s = .next (faulted 3 0x10 s.SRC_LEN (openedGif s))) ∧
      (SrcHas s 0 6 b → (∀ ver, ¬IsVersion (b 3) (b 4) (b 5) ver) →
        exec .gifOpen s = .next (faulted 2 0x12
          (trunc32 ((b 3).toNat + 256 * (b 4).toNat + 65536 * (b 5).toNat)) (openedGif s))) ∧
      (SrcHas s 0 6 b → ∀ (ver : Word) (last : Byte), IsVersion (b 3) (b 4) (b 5) ver →
        s.byteAt .src (s.SRC_LEN.toNat - 1) = some last → last ≠ 0x3B →
        exec .gifOpen s = .next (faulted 2 0x13 (last.setWidth 32)
          { openedGif s with gif := { (openedGif s).gif with GIF_VERSION := ver } })))

/-- Rules R194, R195: a descriptor cut short leaves what was read before the cut, and a screen of no width or height faults. The
byte order of the 16-bit fields is the spec's own (log 24). -/
def Obligations.GifDescriptorFaults : Prop :=
  ∀ (s : State) (b : Nat → Byte) (ver : Word), s.SRC_LEN.toNat ≤ s.cfg.SRC_CAP → 6 ≤ s.SRC_LEN.toNat →
    b 0 = 0x47 → b 1 = 0x49 → b 2 = 0x46 → IsVersion (b 3) (b 4) (b 5) ver →
    s.byteAt .src (s.SRC_LEN.toNat - 1) = some 0x3B →
    (s.SRC_LEN.toNat < 13 → SrcHas s 0 s.SRC_LEN.toNat b →
      exec .gifOpen s = .next (faulted 3 0x10 s.SRC_LEN
        { openedGif s with gif := { (openedGif s).gif with
          GIF_VERSION := ver
          GIF_SCREEN_W := if 8 ≤ s.SRC_LEN.toNat then trunc32 (le16 (b 6) (b 7)) else 0
          GIF_SCREEN_H := if 10 ≤ s.SRC_LEN.toNat then trunc32 (le16 (b 8) (b 9)) else 0
          GIF_FLAGS := if 11 ≤ s.SRC_LEN.toNat then (b 10).setWidth 32 else 0
          GIF_BG := if 12 ≤ s.SRC_LEN.toNat then (b 11).setWidth 32 else 0 } })) ∧
    (SrcHas s 0 13 b → le16 (b 6) (b 7) = 0 ∨ le16 (b 8) (b 9) = 0 →
      exec .gifOpen s = .next (faulted 2 0x14 0
        { openedGif s with gif := { (openedGif s).gif with
          GIF_VERSION := ver
          GIF_SCREEN_W := trunc32 (le16 (b 6) (b 7))
          GIF_SCREEN_H := trunc32 (le16 (b 8) (b 9))
          GIF_FLAGS := (b 10).setWidth 32
          GIF_BG := (b 11).setWidth 32
          GIF_ASPECT := (b 12).setWidth 32 } }))

/-! ### The elements of the scan -/

/-- Rules R198 to R200: an image descriptor at the cursor, with its local colour table stepped over. Only the first fills the
`F0_*` registers. The byte order of the 16-bit fields is the spec's own (log 24). -/
def Obligations.GifImageDescribes : Prop :=
  ∀ (s : State) (b : Nat → Byte) (cs : Byte) (q : Nat), SrcHas s (s.gscPos + 1) 9 b →
    q = (if (b 8).getLsbD 7 then s.gscPos + 10 + 3 * 2 ^ ((b 8).toNat % 8 + 1) else s.gscPos + 10) →
    q < s.SRC_LEN.toNat → s.byteAt .src q = some cs →
    exec .gifImage s = .next
      { s with
        status := { s.status with STATE := .busy .skip }
        gscPos := q + 1
        frame0 :=
          if s.gif.GIF_FRAME_COUNT = 0 then
            { F0_LEFT := trunc32 (le16 (b 0) (b 1))
              F0_TOP := trunc32 (le16 (b 2) (b 3))
              F0_W := trunc32 (le16 (b 4) (b 5))
              F0_H := trunc32 (le16 (b 6) (b 7))
              F0_FLAGS := (b 8).setWidth 32
              F0_LCT_COLORS :=
                if (b 8).getLsbD 7 then trunc32 (2 ^ ((b 8).toNat % 8 + 1)) else s.frame0.F0_LCT_COLORS
              F0_LCT_OFF := if (b 8).getLsbD 7 then trunc32 (s.gscPos + 10) else s.frame0.F0_LCT_OFF
              F0_CODESIZE := cs.setWidth 32
              F0_DATA_OFF := trunc32 (q + 1) }
          else s.frame0 }

/-- Rules R198, R62: a descriptor that runs past the end of the file. Before the flags byte nothing is recorded; after it the
geometry and the table are, where it is the first. -/
def Obligations.GifImageCutShort : Prop :=
  ∀ (s : State) (b : Nat → Byte),
    (s.gscPos < s.SRC_LEN.toNat → s.SRC_LEN.toNat < s.gscPos + 10 →
      SrcHas s (s.gscPos + 1) (s.SRC_LEN.toNat - (s.gscPos + 1)) b →
      exec .gifImage s = .next (faulted 3 0x10 s.SRC_LEN s)) ∧
    ∀ q, SrcHas s (s.gscPos + 1) 9 b →
      q = (if (b 8).getLsbD 7 then s.gscPos + 10 + 3 * 2 ^ ((b 8).toNat % 8 + 1) else s.gscPos + 10) →
      s.SRC_LEN.toNat ≤ q →
      exec .gifImage s = .next (faulted 3 0x10 (trunc32 q)
        { s with frame0 :=
          if s.gif.GIF_FRAME_COUNT = 0 then
            { s.frame0 with
              F0_LEFT := trunc32 (le16 (b 0) (b 1))
              F0_TOP := trunc32 (le16 (b 2) (b 3))
              F0_W := trunc32 (le16 (b 4) (b 5))
              F0_H := trunc32 (le16 (b 6) (b 7))
              F0_FLAGS := (b 8).setWidth 32
              F0_LCT_COLORS :=
                if (b 8).getLsbD 7 then trunc32 (2 ^ ((b 8).toNat % 8 + 1)) else s.frame0.F0_LCT_COLORS
              F0_LCT_OFF := if (b 8).getLsbD 7 then trunc32 (s.gscPos + 10) else s.frame0.F0_LCT_OFF }
          else s.frame0 })

/-- Rules R203, R205, R204: the trailer's separator ends the scan and `GIF_OPEN` completes; any separator but the two faults, at
the offset `GIF_POS` names. -/
def Obligations.GifScanEnds : Prop :=
  (∀ s : State, exec .gifTrailer s = .next
    { s with
      status := { s.status with STATE := .done, GIF_READY := true }
      gif := { s.gif with GIF_POS := trunc32 s.gscPos } }) ∧
  (∀ (s : State) (b : Byte), exec (.gifBadsep b) s = .next (faulted 2 0x15 (b.setWidth 32) s)) ∧
  decode .separator [0x3B] = .ok .gifTrailer ∧
  (∀ b : Byte, b ≠ 0x2C → b ≠ 0x3B → decode .separator [b] = .ok (.gifBadsep b)) ∧
  ∀ s : State, Inv s → s.status.STATE = .busy .scan → s.gif.GIF_POS = trunc32 s.gscPos

/-- Rules R201, R202: in the scan, a sub-block is stepped over unread, and the terminator counts the frame and goes back to the
separators. -/
def Obligations.GifScanSkipsSubBlocks : Prop :=
  ∀ s : State, s.status.STATE = .busy .skip →
    (∀ len : Byte, exec (.gifSubblock len) s = .next { s with gscPos := s.gscPos + 1 + len.toNat }) ∧
    exec .gifTerminator s = .next
      { s with
        status := { s.status with
          STATE := .busy .scan
          MULTIFRAME := if s.gif.GIF_FRAME_COUNT + 1 = 2 then true else s.status.MULTIFRAME }
        gif := { s.gif with
          GIF_FRAME_COUNT := s.gif.GIF_FRAME_COUNT + 1
          GIF_POS := trunc32 (s.gscPos + 1) }
        gscPos := s.gscPos + 1 }

/-! ### `GIF_CONCAT` -/

/-- Rules R211, R212: the preconditions, and the loop's first line. -/
def Obligations.GifConcatStarts : Prop :=
  ∀ s : State, s.SRC_LEN.toNat ≤ s.cfg.SRC_CAP →
    (s.status.GIF_READY = false → exec .gifConcat s = .next (refusedAtStart 2 7 0x03 0 s)) ∧
    (s.status.GIF_READY = true → s.gif.GIF_FRAME_COUNT = 0 →
      exec .gifConcat s = .next (refusedAtStart 2 2 0x16 0 s)) ∧
    (s.status.GIF_READY = true → s.gif.GIF_FRAME_COUNT ≠ 0 →
      exec .gifConcat s = .next
        { s with
          status := { s.status with STATE := .busy .concat, LAST_CMD := 2 }
          fault := noFault
          gif := { s.gif with GIF_POS := s.frame0.F0_DATA_OFF }
          gscPos := s.frame0.F0_DATA_OFF.toNat
          gscCount := 0 })

/-- Rules R212, R213: a sub-block's data is copied to `CBUF` behind what is there, and the cursor moves to the next length byte;
at the terminator the length and the code size are handed over, and the command ends. -/
def Obligations.GifConcatElements : Prop :=
  ∀ s : State, s.status.STATE = .busy .concat →
    (∀ (len : Byte) (b : Nat → Byte), SrcHas s (s.gscPos + 1) len.toNat b →
      s.gscCount + len.toNat ≤ s.cfg.CBUF_CAP →
      ∃ t, exec (.gifSubblock len) s = .next t ∧
        Copied b len.toNat s
          { s with
            gif := { s.gif with GIF_POS := trunc32 (s.gscPos + 1 + len.toNat) }
            gscPos := s.gscPos + 1 + len.toNat
            gscCount := s.gscCount + len.toNat } t) ∧
    exec .gifTerminator s = .next
      { s with
        status := { s.status with STATE := .done }
        gif := { s.gif with GIF_POS := trunc32 (s.gscPos + 1) }
        lzw := { s.lzw with LZW_CLEN := trunc32 s.gscCount, LZW_N := s.frame0.F0_CODESIZE } }

/-- Rule R214: `CBUF` full, `SRC` at an end inside a sub-block, `SRC` at an end before a length byte. What was copied stays, and
no register is handed over. -/
def Obligations.GifConcatFails : Prop :=
  ∀ (s : State) (b : Nat → Byte), s.status.STATE = .busy .concat →
    (∀ len : Byte, s.gscCount ≤ s.cfg.CBUF_CAP → s.cfg.CBUF_CAP < s.gscCount + len.toNat →
      SrcHas s (s.gscPos + 1) (s.cfg.CBUF_CAP - s.gscCount + 1) b →
      ∃ u, exec (.gifSubblock len) s = .next (faulted 6 0x17 (trunc32 s.cfg.CBUF_CAP) u) ∧
        Copied b (s.cfg.CBUF_CAP - s.gscCount) s s u) ∧
    (∀ len : Byte, s.gscPos < s.SRC_LEN.toNat → s.SRC_LEN.toNat < s.gscPos + 1 + len.toNat →
      SrcHas s (s.gscPos + 1) (s.SRC_LEN.toNat - (s.gscPos + 1)) b →
      s.gscCount + (s.SRC_LEN.toNat - (s.gscPos + 1)) ≤ s.cfg.CBUF_CAP →
      ∃ u, exec (.gifSubblock len) s = .next (faulted 3 0x10 s.SRC_LEN u) ∧
        Copied b (s.SRC_LEN.toNat - (s.gscPos + 1)) s s u) ∧
    (∀ u, UnitTurn s u → s.SRC_LEN.toNat ≤ s.gscPos →
      step s = .next (faulted 3 0x10 (trunc32 s.gscPos) u))

/-- Rules R210, R212, R213: over a whole chain of sub-blocks, `GIF_CONCAT` leaves their data back to back in `CBUF`, with the
length and the code size handed over. That this takes one step an element and one to start is the model's choice (log 3). -/
def Obligations.GifConcatJoinsTheChain : Prop :=
  ∀ (s : State) (blocks : List (List Byte)), s.cfg.admissible = true → s.host = [.writeReg 0 2] → s.busy = false →
    s.SRC_LEN.toNat ≤ s.cfg.SRC_CAP → s.status.GIF_READY = true → s.gif.GIF_FRAME_COUNT ≠ 0 →
    (∀ d ∈ blocks, 1 ≤ d.length ∧ d.length ≤ 255) → blocks.flatten.length ≤ s.cfg.CBUF_CAP →
    s.frame0.F0_DATA_OFF.toNat + (chainBytes blocks).length ≤ s.SRC_LEN.toNat →
    (∀ i < (chainBytes blocks).length,
      s.byteAt .src (s.frame0.F0_DATA_OFF.toNat + i) = (chainBytes blocks)[i]?) →
    ∃ t, core.run (blocks.length + 2) s = .next t ∧
      t = { s with
        status := { s.status with STATE := .done, LAST_CMD := 2 }
        fault := noFault
        host := []
        statusBefore := s.status
        cbuf := t.cbuf
        gscPos := t.gscPos
        gscCount := t.gscCount
        gif := { s.gif with GIF_POS := trunc32 (s.frame0.F0_DATA_OFF.toNat + (chainBytes blocks).length) }
        lzw := { s.lzw with LZW_CLEN := trunc32 blocks.flatten.length, LZW_N := s.frame0.F0_CODESIZE } } ∧
      ∀ a, t.byteAt .cbuf a =
        if a < blocks.flatten.length then blocks.flatten[a]? else s.byteAt .cbuf a

/-! ### `BMP_RENDER` -/

/-- Rules R151, R153: with parameters that pass the nine checks, the pixel loop begins at the first pixel. -/
def Obligations.BmpRenderStarts : Prop :=
  ∀ s : State, s.SRC_LEN.toNat ≤ s.cfg.SRC_CAP → modePairLegal s.bmp.BMP_BPP s.bmp.BMP_COMP = true →
    s.bmp.BMP_WIDTH ≠ 0 → s.bmp.BMP_HEIGHT ≠ 0 → s.bmp.BMP_WIDTH.toNat * s.bmp.BMP_HEIGHT.toNat < 2 ^ 32 →
    (s.bmp.BMP_BPP = 1 → s.bmp.BMP_PAL_COUNT ≠ 0) →
    (s.bmp.BMP_BPP = 1 ∨ s.bmp.BMP_BPP = 4 ∨ s.bmp.BMP_BPP = 8 →
      s.bmp.BMP_PAL_COUNT.toNat ≤ 2 ^ s.bmp.BMP_BPP.toNat) →
    s.bmp.BMP_DATA_OFF.toNat + rowBytes s * s.bmp.BMP_HEIGHT.toNat ≤ s.SRC_LEN.toNat →
    exec .bmpRender s = .next
      { s with
        status := { s.status with STATE := .busy .bmp, LAST_CMD := 4 }
        fault := noFault
        bmpWork := { BMP_CUR := s.bmp.BMP_DATA_OFF, BMP_X := 0, BMP_ROW := 0 } }

/-- Rule R151: the nine checks, each reached when the ones before it pass, and their faults. -/
def Obligations.BmpStartChecksInOrder : Prop :=
  ∀ s : State, s.SRC_LEN.toNat ≤ s.cfg.SRC_CAP →
    let refused := fun (kind cause info : Word) => exec .bmpRender s = .next (refusedAtStart 4 kind cause info s)
    let bpp := s.bmp.BMP_BPP
    let comp := s.bmp.BMP_COMP
    let count := s.bmp.BMP_PAL_COUNT
    let area := s.bmp.BMP_WIDTH.toNat * s.bmp.BMP_HEIGHT.toNat
    let depthOk := bpp = 1 ∨ bpp = 4 ∨ bpp = 8 ∨ bpp = 16 ∨ bpp = 24 ∨ bpp = 32
    let agree := (comp = 1 → bpp = 16 ∨ bpp = 32) ∧ (comp = 2 → bpp = 4) ∧ (comp = 3 → bpp = 8)
    let mode := depthOk ∧ agree ∧ comp.toNat ≤ 1
    let sized := mode ∧ s.bmp.BMP_WIDTH ≠ 0 ∧ s.bmp.BMP_HEIGHT ≠ 0
    let bounded := sized ∧ area < 2 ^ 32
    let paletted := bounded ∧ ¬(bpp = 1 ∧ count = 0)
    let checked := paletted ∧ (bpp = 1 ∨ bpp = 4 ∨ bpp = 8 → count.toNat ≤ 2 ^ bpp.toNat)
    (¬depthOk → refused 2 0x30 bpp) ∧
    (depthOk → 6 < comp.toNat → refused 2 0x31 comp) ∧
    (depthOk → comp.toNat ≤ 6 → ¬agree → refused 2 0x32 comp) ∧
    (depthOk → agree → 2 ≤ comp.toNat → comp.toNat ≤ 6 → refused 5 0x33 comp) ∧
    (mode → s.bmp.BMP_WIDTH = 0 ∨ s.bmp.BMP_HEIGHT = 0 → refused 2 0x34 0) ∧
    (sized → 2 ^ 32 ≤ area → refused 2 0x35 0) ∧
    (bounded → bpp = 1 → count = 0 → refused 2 0x36 0) ∧
    (paletted → bpp = 1 ∨ bpp = 4 ∨ bpp = 8 → 2 ^ bpp.toNat < count.toNat → refused 2 0x37 count) ∧
    (checked → s.SRC_LEN.toNat < s.bmp.BMP_DATA_OFF.toNat + rowBytes s * s.bmp.BMP_HEIGHT.toNat →
      refused 3 0x38 s.bmp.BMP_DATA_OFF)

/-- Rule R151, checks (1) to (4): a pair that selects no mode faults, with the cause of the first check it fails. -/
def Obligations.BmpIllegalFaults : Prop :=
  ∀ (s : State) (bpp comp : Word),
    let depthOk := bpp = 1 ∨ bpp = 4 ∨ bpp = 8 ∨ bpp = 16 ∨ bpp = 24 ∨ bpp = 32
    let agree := (comp = 1 → bpp = 16 ∨ bpp = 32) ∧ (comp = 2 → bpp = 4) ∧ (comp = 3 → bpp = 8)
    (¬depthOk → exec (.bmpIllegal bpp comp) s = .next (faulted 2 0x30 bpp s)) ∧
    (depthOk → 6 < comp.toNat → exec (.bmpIllegal bpp comp) s = .next (faulted 2 0x31 comp s)) ∧
    (depthOk → comp.toNat ≤ 6 → ¬agree → exec (.bmpIllegal bpp comp) s = .next (faulted 2 0x32 comp s)) ∧
    (depthOk → agree → 2 ≤ comp.toNat → comp.toNat ≤ 6 →
      exec (.bmpIllegal bpp comp) s = .next (faulted 5 0x33 comp s)) ∧
    (modePairLegal bpp comp = false → ∃ kind cause info, exec (.bmpIllegal bpp comp) s =
      .next (faulted kind cause info s))

/-- Rules R160 to R163, R153, R65: a pixel of a palette mode. Its cell is the palette entry's colour, fully opaque; a cell that
does not fit `SINK` faults. -/
def Obligations.PalettePixelRenders : Prop :=
  ∀ (s : State) (i : Instr) (index : Nat) (e : Nat → Byte), PaletteIndex i s index → IndexAllowed s index →
    SrcHas s (s.bmp.BMP_PAL_BASE.toNat + index * 4) 3 e →
    (CellFits s → ∃ t, exec i s = .next t ∧ Rendered { r := e 2, g := e 1, b := e 0, a := 255 } s t) ∧
    (¬CellFits s → exec i s = .next (faulted 6 0x3B (trunc32 (cellOffset s)) s))

/-- Rules R164, R163: an index at or beyond a nonzero palette count faults before the palette is read, in the viewport or not; an
entry that runs past the end of `SRC` faults at the first byte it lacks. -/
def Obligations.PalettePixelFaults : Prop :=
  ∀ (s : State) (i : Instr) (index : Nat), PaletteIndex i s index →
    (s.bmp.BMP_PAL_COUNT ≠ 0 → s.bmp.BMP_PAL_COUNT.toNat ≤ index →
      exec i s = .next (faulted 4 0x39 (trunc32 index) s)) ∧
    (IndexAllowed s index → ∀ (m : Nat) (e : Nat → Byte), m < 3 →
      (0 < m → SrcHas s (s.bmp.BMP_PAL_BASE.toNat + index * 4) m e) →
      s.SRC_LEN.toNat ≤ s.bmp.BMP_PAL_BASE.toNat + index * 4 + m →
      exec i s = .next (faulted 3 0x3A (trunc32 (s.bmp.BMP_PAL_BASE.toNat + index * 4 + m)) s))

/-- Rules R169, R170, R153, R65: the direct modes read blue, green, red and, with 32 bits, alpha. -/
def Obligations.DirectPixelRenders : Prop :=
  ∀ (s : State) (i : Instr) (p : Nat → Byte) (px : Cell),
    (i = .bmpBgr24 ∧ SrcHas s (pixelBase s + 3 * pixelCol s) 3 p ∧ px = { r := p 2, g := p 1, b := p 0, a := 255 } ∨
      i = .bmpBgra32 ∧ SrcHas s (pixelBase s + 4 * pixelCol s) 4 p ∧
        px = { r := p 2, g := p 1, b := p 0, a := p 3 }) →
    (CellFits s → ∃ t, exec i s = .next t ∧ Rendered px s t) ∧
    (¬CellFits s → exec i s = .next (faulted 6 0x3B (trunc32 (cellOffset s)) s))

/-- Rules R165, R166, R108: an RGB555 pixel, for any `EXPAND5` the machine is configured with; the fixed default, which
`State.reset` has, gives `8 c + 7` for a channel `c` (log 14). The places of the channels in the word are the spec's own
(log 24). -/
def Obligations.Rgb555PixelRenders : Prop :=
  ∀ (s : State) (p : Nat → Byte) (v : Nat), SrcHas s (pixelBase s + 2 * pixelCol s) 2 p → v = le16 (p 0) (p 1) →
    (CellFits s → ∃ t, exec .bmpRgb555 s = .next t ∧
      Rendered
        { r := s.cfg.EXPAND5[v / 1024 % 32]
          g := s.cfg.EXPAND5[v / 32 % 32]
          b := s.cfg.EXPAND5[v % 32]
          a := 255 } s t ∧
      (s.cfg.EXPAND5 = State.reset.cfg.EXPAND5 →
        Rendered
          { r := trunc8 (8 * (v / 1024 % 32) + 7)
            g := trunc8 (8 * (v / 32 % 32) + 7)
            b := trunc8 (8 * (v % 32) + 7)
            a := 255 } s t)) ∧
    (¬CellFits s → exec .bmpRgb555 s = .next (faulted 6 0x3B (trunc32 (cellOffset s)) s))

/-- Rules R167, R171, R168, R172, R153, R65: the BitFields modes scale each channel by its mask. -/
def Obligations.MaskedPixelRenders : Prop :=
  ∀ (s : State) (i : Instr) (p : Nat → Byte) (v : Nat) (px : Cell),
    (i = .bmpBf16 ∧ SrcHas s (pixelBase s + 2 * pixelCol s) 2 p ∧ v = (p 0).toNat + 256 * (p 1).toNat ∧
        px =
          { r := if s.bmp.BMP_MASK_R ≠ 0 then scaled s v s.bmp.BMP_MASK_R else 0
            g := if s.bmp.BMP_MASK_G ≠ 0 then scaled s v s.bmp.BMP_MASK_G else 0
            b := if s.bmp.BMP_MASK_B ≠ 0 then scaled s v s.bmp.BMP_MASK_B else 0
            a := scaledAlpha s v } ∨
      i = .bmpBf32 ∧ SrcHas s (pixelBase s + 4 * pixelCol s) 4 p ∧
        s.bmp.BMP_MASK_R ≠ 0 ∧ s.bmp.BMP_MASK_G ≠ 0 ∧ s.bmp.BMP_MASK_B ≠ 0 ∧
        v = (p 0).toNat + 256 * (p 1).toNat + 65536 * (p 2).toNat + 16777216 * (p 3).toNat ∧
        px =
          { r := scaled s v s.bmp.BMP_MASK_R
            g := scaled s v s.bmp.BMP_MASK_G
            b := scaled s v s.bmp.BMP_MASK_B
            a := scaledAlpha s v }) →
    (CellFits s → ∃ t, exec i s = .next t ∧ Rendered px s t) ∧
    (¬CellFits s → exec i s = .next (faulted 6 0x3B (trunc32 (cellOffset s)) s))

/-- Rule R168: the scaling formula for both widths of the product; its quotient is at most 255, and the two widths differ only
when `t > 0x01010101`. -/
def Obligations.BitFieldScaling : Prop :=
  ∀ raw mask : Nat, mask ≠ 0 → raw < 2 ^ 32 → mask < 2 ^ 32 →
    (bfscale .unbounded raw mask).toNat = (raw &&& mask) * 255 / mask ∧
    (bfscale .bits32 raw mask).toNat = (raw &&& mask) * 255 % 2 ^ 32 / mask ∧
    (raw &&& mask) * 255 / mask ≤ 255 ∧
    (bfscale .unbounded raw mask ≠ bfscale .bits32 raw mask → 0x01010101 < (raw &&& mask) ∧ 2 ^ 24 ≤ mask)

/-- Rule R152: the stride is the row's bytes rounded up to a multiple of four, below `2^34`. -/
def Obligations.StrideRoundsUp : Prop :=
  ∀ s : State,
    stride s = (s.bmp.BMP_BPP.toNat * s.bmp.BMP_WIDTH.toNat + 31) / 32 * 4 ∧
    stride s % 4 = 0 ∧ (s.bmp.BMP_BPP.toNat * s.bmp.BMP_WIDTH.toNat + 7) / 8 ≤ stride s ∧
    stride s < (s.bmp.BMP_BPP.toNat * s.bmp.BMP_WIDTH.toNat + 7) / 8 + 4 ∧
    (s.bmp.BMP_BPP = 24 → stride s = (s.bmp.BMP_WIDTH.toNat * 3 + 3) / 4 * 4) ∧
    (s.bmp.BMP_BPP.toNat ≤ 32 → stride s < 2 ^ 34)

/-- Rules R153, R154, R169, R173: rendering a whole 24-bit image ends `DONE`, writes every pixel inside the viewport to
its cell, bottom row of the file at the bottom of the display, and no other byte of `SINK`. That it takes one step a pixel and
one to start is the model's choice (log 3). -/
def Obligations.Bgr24ImageRenders : Prop :=
  ∀ (s : State) (f : Nat → Byte) (w h vw vh : Nat), s.cfg.admissible = true → s.host = [.writeReg 0 4] →
    s.busy = false → s.SRC_LEN.toNat ≤ s.cfg.SRC_CAP → s.bmp.BMP_BPP = 24 → s.bmp.BMP_COMP = 0 →
    w = s.bmp.BMP_WIDTH.toNat → h = s.bmp.BMP_HEIGHT.toNat → w ≠ 0 → h ≠ 0 → w * h < 2 ^ 32 →
    s.bmp.BMP_DATA_OFF.toNat + rowBytes s * h ≤ s.SRC_LEN.toNat →
    (∀ a < s.SRC_LEN.toNat, s.byteAt .src a = some (f a)) →
    vw = min s.bmp.VIEW_W.toNat w → vh = min s.bmp.VIEW_H.toNat h → vw ≤ s.bmp.SINK_STRIDE.toNat →
    (∀ x < vw, ∀ y < vh, (y * s.bmp.SINK_STRIDE.toNat + x) * 4 + 4 ≤ s.cfg.SINK_CAP) →
    ∃ t, core.run (w * h + 1) s = .next t ∧
      t = { s with
        status := { s.status with STATE := .done, LAST_CMD := 4 }
        fault := noFault
        host := []
        statusBefore := s.status
        sink := t.sink
        bmpWork :=
          { BMP_CUR := trunc32 (s.bmp.BMP_DATA_OFF.toNat + rowBytes s * h)
            BMP_X := 0
            BMP_ROW := s.bmp.BMP_HEIGHT } } ∧
      (∀ x < vw, ∀ y < vh,
        let sample := s.bmp.BMP_DATA_OFF.toNat + (h - 1 - y) * rowBytes s + 3 * x
        let cell := (y * s.bmp.SINK_STRIDE.toNat + x) * 4
        t.byteAt .sink cell = some (f (sample + 2)) ∧ t.byteAt .sink (cell + 1) = some (f (sample + 1)) ∧
          t.byteAt .sink (cell + 2) = some (f sample) ∧ t.byteAt .sink (cell + 3) = some 255) ∧
      ∀ a, (∀ x < vw, ∀ y < vh,
          ¬((y * s.bmp.SINK_STRIDE.toNat + x) * 4 ≤ a ∧ a < (y * s.bmp.SINK_STRIDE.toNat + x) * 4 + 4)) →
        t.byteAt .sink a = s.byteAt .sink a

/-! ### Encodings -/

/-- Every well-formed instruction decodes from its own encoding, at every site. The byte strings of a command word and of a mode
are the model's choice (log 16). -/
def Obligations.DecodeEncodeRoundTrip : Prop :=
  ∀ (site : Site) (i : Instr), i.wf site = true → decode site (encode site i) = .ok i

/-- What the decoder answers: exactly the byte strings of the site's length decode; what they decode to is well-formed; a command
word, a separator and a length byte are the encoding of what they decode to; a code window and that encoding hold the
same code. The byte strings of a command word and of a mode are the model's choice (log 16). -/
def Obligations.DecodedIsWellFormed : Prop :=
  ∀ (site : Site) (bs : List Byte),
    ((∃ i, decode site bs = .ok i) ↔ bs.length = site.byteLen) ∧
    ∀ i, decode site bs = .ok i →
      ((∀ c, site = .code c → c.ok = true) → i.wf site = true) ∧
      (site = .command ∨ site = .separator ∨ site = .length → encode site i = bs) ∧
      ∀ c, site = .code c → c.ok = true →
        streamValue (fun a => (encode site i).getD a 0) c.off c.w = streamValue (fun a => bs.getD a 0) c.off c.w

/-- Rule R92: the class of a code, by its value, `next` and whether there is a previous code. -/
def Obligations.CodeClasses : Prop :=
  ∀ (c : CodeCtx) (bs : List Byte), c.ok = true → bs.length = c.windowLen →
    let v := streamValue (fun a => bs.getD a 0) c.off c.w
    v < 2 ^ c.w ∧
    (decode (.code c) bs = .ok .lzwClear ↔ v = 2 ^ c.n) ∧
    (decode (.code c) bs = .ok .lzwEoi ↔ v = 2 ^ c.n + 1) ∧
    (decode (.code c) bs = .ok (.lzwFirst v) ↔ c.hasPrev = false ∧ v < 2 ^ c.n) ∧
    (decode (.code c) bs = .ok (.lzwDict v) ↔ c.hasPrev = true ∧ v < c.next ∧ v ≠ 2 ^ c.n ∧ v ≠ 2 ^ c.n + 1) ∧
    (decode (.code c) bs = .ok .lzwKwkwk ↔ c.hasPrev = true ∧ v = c.next) ∧
    (decode (.code c) bs = .ok (.lzwRange v) ↔
      c.hasPrev = true ∧ c.next < v ∨ c.hasPrev = false ∧ 2 ^ c.n + 1 < v)

/-- Rule R104: the mode a register pair and the colour masks select; a pair outside the table is no mode, and `BMP_RENDER` faults
on it at start. -/
def Obligations.ModeSelection : Prop :=
  (∀ bpp comp r g b : Word,
    (decodeMode bpp comp r g b = .bmpP1 ↔ bpp = 1 ∧ comp = 0) ∧
    (decodeMode bpp comp r g b = .bmpP4 ↔ bpp = 4 ∧ comp = 0) ∧
    (decodeMode bpp comp r g b = .bmpP8 ↔ bpp = 8 ∧ comp = 0) ∧
    (decodeMode bpp comp r g b = .bmpRgb555 ↔ bpp = 16 ∧ comp = 0) ∧
    (decodeMode bpp comp r g b = .bmpBf16 ↔ bpp = 16 ∧ comp = 1) ∧
    (decodeMode bpp comp r g b = .bmpBgr24 ↔ bpp = 24 ∧ comp = 0) ∧
    (decodeMode bpp comp r g b = .bmpBgra32 ↔
      bpp = 32 ∧ (comp = 0 ∨ comp = 1 ∧ (r = 0 ∨ g = 0 ∨ b = 0))) ∧
    (decodeMode bpp comp r g b = .bmpBf32 ↔ bpp = 32 ∧ comp = 1 ∧ r ≠ 0 ∧ g ≠ 0 ∧ b ≠ 0) ∧
    (decodeMode bpp comp r g b = .bmpIllegal bpp comp ↔ modePairLegal bpp comp = false)) ∧
  ∀ s : State, s.SRC_LEN.toNat ≤ s.cfg.SRC_CAP → modePairLegal s.bmp.BMP_BPP s.bmp.BMP_COMP = false →
    ∃ kind cause info, exec .bmpRender s = .next (refusedAtStart 4 kind cause info s)

/-- Rule R66: `ReadBitsMSB` is the sum of its stream bits, the first the most significant; of one byte, one bit at column `k` of
eight and the two nibbles are such numbers. -/
def Obligations.ReadBitsMsbFirst : Prop :=
  (∀ (bs : List Byte) (p w : Nat),
    readBitsMSB bs p w = streamValue (fun a => bs.getD a 0) p w ∧ readBitsMSB bs p w < 2 ^ w) ∧
  (∀ (b : Byte) (k : Nat), k < 8 → streamValue (fun _ => b) k 1 = (b.toNat >>> (7 - k)) % 2) ∧
  (∀ b : Byte, streamValue (fun _ => b) 0 4 = b.toNat / 16 ∧ streamValue (fun _ => b) 4 4 = b.toNat % 16) ∧
  readBitsMSB [0x81, 0xA2] 0 4 = 8 ∧ readBitsMSB [0x81, 0xA2] 4 4 = 1 ∧ readBitsMSB [0x81, 0xA2] 8 4 = 10 ∧
    readBitsMSB [0x81, 0xA2] 6 5 = 13

/-- A few words written out from the encodings of 30_encoding.md: separators, length bytes and codes as they stand in a stream;
a command word as four bytes, the lowest first, and a mode as the twenty bytes of its five registers, which is the model's choice
(log 16). -/
def Obligations.WordsDecode : Prop :=
  decode .command [0x03, 0x00, 0x00, 0x00] = .ok .lzwRun ∧
  decode .command [0x09, 0x00, 0x00, 0x00] = .ok (.cmdReserved 9) ∧
  decode .separator [0x2C] = .ok .gifImage ∧ decode .separator [0x21] = .ok (.gifBadsep 0x21) ∧
  decode .length [0x00] = .ok .gifTerminator ∧ decode .length [0x05] = .ok (.gifSubblock 5) ∧
  decode (.code { n := 3, w := 4, next := 10, hasPrev := true, off := 0 }) [0xA2] = .ok .lzwKwkwk ∧
  decode (.code { n := 3, w := 4, next := 10, hasPrev := false, off := 4 }) [0x81] = .ok (.lzwFirst 1) ∧
  decode .mode ([24, 0, 0, 0] ++ [0, 0, 0, 0] ++ List.replicate 12 0) = .ok .bmpBgr24

/-! ### The step -/

/-- A step runs the instruction its bytes decode to: a command word the host writes, a separator, a length byte, the selected
mode, each with what the turn adds around it: the host's action is taken, and `STATUS` kept as it stands before a command
(rule R132; log 25). That a command word is four bytes, the lowest first, is the model's choice (log 16). The code of `LZW_RUN`
is in `LzwFetchLoop`. -/
def Obligations.StepRunsDecoded : Prop :=
  (∀ (s : State) (c : Word) (rest : List HostAction) (i : Instr), s.busy = false → s.host = .writeReg 0 c :: rest →
    decode .command (leBytes 4 c.toNat) = .ok i →
    step s = exec i { s with host := rest, statusBefore := s.status }) ∧
  (∀ (s u : State) (b : Byte) (i : Instr), UnitTurn s u → s.status.STATE = .busy .scan →
    s.gscPos < s.SRC_LEN.toNat → s.byteAt .src s.gscPos = some b → decode .separator [b] = .ok i →
    step s = exec i u) ∧
  (∀ (s u : State) (b : Byte) (i : Instr), UnitTurn s u →
    s.status.STATE = .busy .skip ∨ s.status.STATE = .busy .concat →
    s.gscPos < s.SRC_LEN.toNat → s.byteAt .src s.gscPos = some b → decode .length [b] = .ok i →
    step s = exec i u) ∧
  (∀ (s u : State), UnitTurn s u → s.status.STATE = .busy .bmp →
    step s = exec (decodeMode s.bmp.BMP_BPP s.bmp.BMP_COMP s.bmp.BMP_MASK_R s.bmp.BMP_MASK_G s.bmp.BMP_MASK_B) u)

/-- Rule R62: the one choke point of reads of `SRC`, for every cause of its kind, and the fetch of `GSC` through it. Below
`SRC_LEN` a byte that nothing has written is refused, never read as 0 (rule R38). -/
def Obligations.SrcReadsAreBounded : Prop :=
  (∀ (s : State) (c : Cause) (a : Nat) (k : Byte → Out), c.kind = .TruncatedData →
    (s.SRC_LEN.toNat ≤ a → srcRead c a s k = .next (faulted 3 c.code (trunc32 a) s)) ∧
    (∀ b, a < s.SRC_LEN.toNat → s.byteAt .src a = some b → srcRead c a s k = k b) ∧
    (a < s.SRC_LEN.toNat → s.byteAt .src a = none → srcRead c a s k = .refused (.unwrittenByte .src a))) ∧
  ∀ s u : State, UnitTurn s u →
    s.status.STATE = .busy .scan ∨ s.status.STATE = .busy .skip ∨ s.status.STATE = .busy .concat →
    (s.SRC_LEN.toNat ≤ s.gscPos → step s = .next (faulted 3 0x10 (trunc32 s.gscPos) u)) ∧
    (s.gscPos < s.SRC_LEN.toNat → s.byteAt .src s.gscPos = none → step s = .refused (.unwrittenByte .src s.gscPos))

/-! ### Invariants -/

/-- Rules R37, R291: the invariant holds right after reset, for all admissible parameters. -/
def Obligations.ResetSatisfiesInv : Prop :=
  Inv State.reset ∧ ∀ cfg : Config, cfg.admissible = true → Inv (State.resetWith cfg)

/-- Every step keeps the invariant: memories in canonical form and within capacity, `STATUS` and the fault record, and what rules
R197, R212, R237 and R153 say of the running unit at each place of its loop. -/
def Obligations.StepKeepsInv : Prop :=
  ∀ s t : State, Inv s → step s = .next t → Inv t

/-- Rules R38, R63: from a state that meets the invariant, with no host action left, a step goes on, unless it reads a byte that
nothing has written since reset. -/
def Obligations.OnlyUnwrittenBytesStop : Prop :=
  ∀ s : State, Inv s → s.host = [] →
    (∃ t, step s = .next t) ∨ ∃ sp off, step s = .refused (.unwrittenByte sp off) ∧ s.byteAt sp off = none

/-- Rule R304: a running command ends, within the elements its rules bound it by. -/
def Obligations.EveryCommandEnds : Prop :=
  ∀ s : State, Inv s → s.busy = true → s.host = [] →
    (∀ a < s.SRC_LEN.toNat, (s.byteAt .src a).isSome = true) →
    (∀ a < s.lzw.LZW_CLEN.toNat, (s.byteAt .cbuf a).isSome = true) →
    ∃ (k : Nat) (t : State), k ≤ workLeft s ∧ core.run k s = .next t ∧
      (t.status.STATE = .done ∨ t.status.STATE = .fault)

/-- Rule R272: `STICKY_FAULT`, once set, is cleared by reset only. -/
def Obligations.StickyFaultIsSticky : Prop :=
  ∀ s t : State, step s = .next t → s.status.STICKY_FAULT = true → t.status.STICKY_FAULT = false →
    ∃ rest, s.host = .reset :: rest

/-- Rules R131, R61: what each unit's elements may write, and no parameter ever changes. -/
def Obligations.UnitsWriteOnlyTheirs : Prop :=
  (∀ s t : State, step s = .next t → t.cfg = s.cfg) ∧
  ∀ s u t : State, UnitTurn s u → step s = .next t →
    (s.status.STATE = .busy .scan ∨ s.status.STATE = .busy .skip →
      t = { u with
        status := t.status
        fault := t.fault
        gif := t.gif
        frame0 := t.frame0
        gscPos := t.gscPos }) ∧
    (s.status.STATE = .busy .concat →
      t = { u with
        status := t.status
        fault := t.fault
        cbuf := t.cbuf
        gif := { u.gif with GIF_POS := t.gif.GIF_POS }
        lzw := { u.lzw with LZW_CLEN := t.lzw.LZW_CLEN, LZW_N := t.lzw.LZW_N }
        gscPos := t.gscPos
        gscCount := t.gscCount }) ∧
    (s.status.STATE = .busy .lzw →
      t = { u with
        status := t.status
        fault := t.fault
        obuf := t.obuf
        dict := t.dict
        lzw := { t.lzw with LZW_CLEN := u.lzw.LZW_CLEN, LZW_N := u.lzw.LZW_N } }) ∧
    (s.status.STATE = .busy .bmp →
      t = { u with
        status := t.status
        fault := t.fault
        sink := t.sink
        bmpWork := t.bmpWork })

/-! ### `STATUS`, the fault record and reset -/

/-- Rule R22: the places of the fields of `STATUS`, and its reserved bits. -/
def Obligations.StatusLayout : Prop :=
  ∀ st : Status,
    st.word.extractLsb' 0 2 = (match st.STATE with
      | .idle => 0#2
      | .busy _ => 1#2
      | .done => 2#2
      | .fault => 3#2) ∧
    st.word.getLsbD 2 = false ∧ st.word.getLsbD 3 = st.STICKY_FAULT ∧ st.word.getLsbD 4 = st.GIF_READY ∧
    st.word.getLsbD 5 = st.MULTIFRAME ∧ st.word.getLsbD 6 = st.EOI_SEEN ∧ st.word.getLsbD 7 = false ∧
    st.word.extractLsb' 8 4 = st.LAST_CMD ∧ ∀ k, 12 ≤ k → st.word.getLsbD k = false

/-- Rule R270: fault entry writes the record, `STICKY_FAULT` and `STATE`, and nothing else. -/
def Obligations.FaultEntryRecords : Prop :=
  ∀ (s : State) (c : Cause) (info : Nat),
    raise c info s = .next
      { s with
        status := { s.status with STATE := .fault, STICKY_FAULT := true }
        fault := { FAULT_KIND := c.kind.code, FAULT_CAUSE := c.code, FAULT_INFO := BitVec.ofNat 32 info } }

/-- Rules R260, R261: each cause's code and the number of its kind; no cause is without a row. -/
def Obligations.FaultCauseTable : Prop :=
  let rows : List (Cause × Word × Word) :=
    [(.U_BAD_CMD, 0x01, 7), (.U_SRC_LEN, 0x02, 7), (.U_NOT_READY, 0x03, 7), (.U_CLEN, 0x04, 7),
      (.G_SHORT, 0x10, 3), (.G_BAD_SIGNATURE, 0x11, 2), (.G_BAD_VERSION, 0x12, 2), (.G_NO_TRAILER, 0x13, 2),
      (.G_ZERO_GEOMETRY, 0x14, 2), (.G_BAD_SEPARATOR, 0x15, 2), (.G_NO_FRAME, 0x16, 2), (.C_CBUF_FULL, 0x17, 6)] ++
    [(.L_BAD_CODE_SIZE, 0x20, 2), (.L_CODE_RANGE, 0x21, 4), (.L_WIDTH_CAP, 0x22, 6), (.L_OBUF_FULL, 0x23, 6),
      (.B_BAD_DEPTH, 0x30, 2), (.B_BAD_COMP, 0x31, 2), (.B_DEPTH_COMP, 0x32, 2), (.B_COMPRESSED, 0x33, 5),
      (.B_ZERO_GEOMETRY, 0x34, 2), (.B_GEOMETRY_OVERFLOW, 0x35, 2), (.B_NO_PALETTE, 0x36, 2), (.B_PALETTE_SIZE, 0x37, 2),
      (.B_DATA_REGION, 0x38, 3), (.B_PALETTE_INDEX, 0x39, 4), (.B_SRC_BOUNDS, 0x3A, 3), (.B_SINK_BOUNDS, 0x3B, 6)]
  ∀ c : Cause, (c, c.code, c.kind.code) ∈ rows ∧ ∀ d : Cause, c.code = d.code → c = d

/-- Rules R290, R291, R37: reset, in any state, leaves every register 0, nothing in any memory, `IDLE`; then the hardware waits.
What is not the block's, its parameters and the host's further actions and last read, stays (log 11). -/
def Obligations.ResetThenWaits : Prop :=
  (∀ (s : State) (rest : List HostAction), s.host = .reset :: rest →
    ∃ t, step s = .next t ∧ t.status.STATE = .idle ∧ (∀ i, t.readIndex i = 0) ∧
      (∀ sp a, t.byteAt sp a = none) ∧ t.cfg = s.cfg ∧ t.host = rest ∧ t.hostData = s.hostData) ∧
  (∀ i, State.reset.readIndex i = 0) ∧
  ∀ s : State, s.host = [] → s.busy = false → step s = .next s

/-! ### The host -/

/-- Rules R20, R25, and the table of 10_state.md section 8: what a host write does to every register, reserved indices included,
while no command runs; a write to `SRC_LEN` also clears `GIF_READY`. Then what a host read answers. `registerTable` and
`writableTable` name each index's field. -/
def Obligations.HostRegisterAccess : Prop :=
  ∀ (s : State) (rest : List HostAction) (i : Nat), s.busy = false →
    (∀ v : Word, s.host = .writeReg i v :: rest → i ≠ 0 →
      ∃ t, step s = .next t ∧
        (∀ j, j ≠ 1 → t.readIndex j =
          if j = i ∧ (i = 0x05 ∨ i = 0x30 ∨ i = 0x31 ∨ 0x40 ≤ i ∧ i ≤ 0x4E) then v else s.readIndex j) ∧
        t.status = (if i = 0x05 then { s.status with GIF_READY := false } else s.status) ∧
        t = { s with host := rest, status := t.status, SRC_LEN := t.SRC_LEN, lzw := t.lzw, bmp := t.bmp } ∧
        (∀ w, (i, w) ∈ writableTable v { s with host := rest } → t = w) ∧
        (i ∉ (writableTable v s).map Prod.fst → t = { s with host := rest })) ∧
    (s.host = .readReg i :: rest →
      step s = .next { s with host := rest, hostData := s.readIndex i } ∧
      (∀ w, (i, w) ∈ registerTable s → s.readIndex i = w) ∧
      (0x05 < i ∧ i < 0x10 ∨ 0x19 < i ∧ i < 0x20 ∨ 0x28 < i ∧ i < 0x30 ∨ 0x36 < i ∧ i < 0x40 ∨ 0x51 < i →
        s.readIndex i = 0))

/-- Rules R132, R75: while a command runs, a register write changes nothing, a read of `STATUS` shows `BUSY` and beside it the
fields of before the command, and the host has no other step. That they are those of before the command is read from rule R132
(log 25). -/
def Obligations.BusyShutsTheHostOut : Prop :=
  ∀ (s : State) (rest : List HostAction), s.busy = true →
    (∀ i v, s.host = .writeReg i v :: rest → step s = .next { s with host := rest }) ∧
    (s.host = .readReg 1 :: rest → ∃ w : Word, step s = .next { s with host := rest, hostData := w } ∧
      w = { s.statusBefore with STATE := s.status.STATE }.word ∧ w.extractLsb' 0 2 = 1 ∧
      w.getLsbD 3 = s.statusBefore.STICKY_FAULT ∧ w.getLsbD 4 = s.statusBefore.GIF_READY ∧
      w.getLsbD 5 = s.statusBefore.MULTIFRAME ∧ w.getLsbD 6 = s.statusBefore.EOI_SEEN ∧
      w.extractLsb' 8 4 = s.statusBefore.LAST_CMD) ∧
    (∀ i, i ≠ 1 → s.host = .readReg i :: rest → step s = .refused .hostAccessWhileBusy) ∧
    (∀ sp a b, s.host = .writeMem sp a b :: rest → step s = .refused .hostAccessWhileBusy) ∧
    (∀ sp a, s.host = .readMem sp a :: rest → step s = .refused .hostAccessWhileBusy)

/-- Rules R60, R61, R74: while no command runs the host writes and reads any byte of the four spaces, which do not overlap;
a read of a byte that nothing has written is refused (rule R38). -/
def Obligations.HostMemoryAccess : Prop :=
  ∀ (s : State) (rest : List HostAction) (sp : Space) (a : Nat), s.busy = false → a < capacity s.cfg sp →
    (∀ b, s.host = .writeMem sp a b :: rest →
      ∃ t, step s = .next t ∧
        t = { s with host := rest, src := t.src, cbuf := t.cbuf, obuf := t.obuf, sink := t.sink } ∧
        ∀ sp' a', t.byteAt sp' a' = if sp' = sp ∧ a' = a then some b else s.byteAt sp' a') ∧
    (∀ b, s.host = .readMem sp a :: rest → s.byteAt sp a = some b →
      step s = .next { s with host := rest, hostData := b.setWidth 32 }) ∧
    (s.host = .readMem sp a :: rest → s.byteAt sp a = none → step s = .refused (.unwrittenByte sp a))

/-- Rule R132: between the state before a command and the state after it the host observes none. Every read of `STATUS` while the
command runs, after however many of its elements, answers one word: `BUSY`, and beside it the fields of before the command
(log 25). No step of the command changes what that word is made from. -/
def Obligations.HostSeesNothingBetween : Prop :=
  (∀ (s t u : State) (c : Word) (k : Nat) (rest rest' : List HostAction), s.busy = false → s.host = .writeReg 0 c :: rest →
    step s = .next t → (∀ j ≤ k, ∀ v, core.run j t = .next v → v.busy = true) → core.run k t = .next u →
    u.host = .readReg 1 :: rest' →
    step u = .next { u with host := rest', hostData := { s.status with STATE := .busy .start }.word }) ∧
  ∀ s t : State, s.busy = true → step s = .next t → t.busy = true → t.statusBefore = s.statusBefore
end

