-- ==== Sys2Proof/Laws/Memory.lean ====
section
/-! SUPPORT. Tables by rising key: what a read gives after a write, and that a write keeps the canonical form. -/

namespace Sys2Proof.Machine

variable {α : Type}

@[simp] theorem Table.get_nil (a : Nat) : Table.get ([] : List (Nat × α)) a = none := rfl

theorem Table.get_cons (k : Nat) (v : α) (t : List (Nat × α)) (a : Nat) :
    Table.get ((k, v) :: t) a = if k = a then some v else Table.get t a := rfl

/-- A read after a write, at any key. -/
theorem Table.get_set (t : List (Nat × α)) (a : Nat) (x : α) (b : Nat) :
    Table.get (Table.set t a x) b = if b = a then some x else Table.get t b := by
  induction t with
  | nil => simp [Table.set, Table.get, eq_comm]
  | cons e t ih =>
    obtain ⟨k, v⟩ := e
    simp only [Table.set]
    split
    · simp [Table.get_cons, eq_comm]
    · split
      · subst_vars
        simp only [Table.get_cons]
        by_cases h : b = k <;> simp [h, eq_comm]
      · simp only [Table.get_cons, ih]
        by_cases h : k = b
        · subst h; simp only [if_true]; rw [if_neg (by omega)]
        · simp [h]

@[simp] theorem Table.get_set_same (t : List (Nat × α)) (a : Nat) (x : α) :
    Table.get (Table.set t a x) a = some x := by simp [Table.get_set]

theorem Table.get_set_other (t : List (Nat × α)) {a b : Nat} (x : α) (h : b ≠ a) :
    Table.get (Table.set t a x) b = Table.get t b := by simp [Table.get_set, h]

/-- The entries after a write: the written one, and old ones under other keys. -/
theorem Table.mem_set {t : List (Nat × α)} {a : Nat} {x : α} {e : Nat × α} (h : e ∈ Table.set t a x) :
    e = (a, x) ∨ e ∈ t := by
  induction t with
  | nil => simpa [Table.set] using h
  | cons d t ih =>
    obtain ⟨k, v⟩ := d
    simp only [Table.set] at h
    split at h
    · simpa using h
    · split at h
      · rcases List.mem_cons.1 h with h | h
        · exact .inl h
        · exact .inr (List.mem_cons_of_mem _ h)
      · rcases List.mem_cons.1 h with h | h
        · exact .inr (h ▸ List.mem_cons_self)
        · rcases ih h with h | h
          · exact .inl h
          · exact .inr (List.mem_cons_of_mem _ h)

/-- A write keeps the canonical form. -/
theorem Table.rising_set {t : List (Nat × α)} (h : Table.Rising t) (a : Nat) (x : α) :
    Table.Rising (Table.set t a x) := by
  induction t with
  | nil => simp [Table.set]
  | cons d t ih =>
    obtain ⟨k, v⟩ := d
    obtain ⟨h1, h2⟩ := List.pairwise_cons.1 h
    simp only [Table.set]
    split
    · rename_i hk
      refine List.pairwise_cons.2 ⟨?_, h⟩
      intro e he
      rcases List.mem_cons.1 he with rfl | he
      · exact hk
      · exact Nat.lt_trans hk (h1 e he)
    · split
      · subst_vars
        exact List.pairwise_cons.2 ⟨h1, h2⟩
      · refine List.pairwise_cons.2 ⟨?_, ih h2⟩
        intro e he
        rcases Table.mem_set he with rfl | he
        · show k < a; omega
        · exact h1 e he

/-- A listed entry is what a read of its key gives. -/
theorem Table.get_of_mem {t : List (Nat × α)} (h : Table.Rising t) {e : Nat × α} (he : e ∈ t) :
    Table.get t e.1 = some e.2 := by
  induction t with
  | nil => simp at he
  | cons d t ih =>
    obtain ⟨k, v⟩ := d
    obtain ⟨h1, h2⟩ := List.pairwise_cons.1 h
    rcases List.mem_cons.1 he with rfl | he
    · simp [Table.get_cons]
    · have := h1 e he
      rw [Table.get_cons, if_neg (by omega), ih h2 he]

/-- What a read gives is listed. -/
theorem Table.mem_of_get {t : List (Nat × α)} {a : Nat} {x : α} (h : Table.get t a = some x) : (a, x) ∈ t := by
  induction t with
  | nil => simp at h
  | cons d t ih =>
    obtain ⟨k, v⟩ := d
    rw [Table.get_cons] at h
    split at h
    · subst_vars; simp_all
    · exact List.mem_cons_of_mem _ (ih h)

/-- A write at a key nothing lists keeps every listed entry. -/
theorem Table.mem_set_of_mem {t : List (Nat × α)} (h : Table.Rising t) {a : Nat} {x : α} {e : Nat × α} (he : e ∈ t)
    (hne : e.1 ≠ a) : e ∈ Table.set t a x := by
  have := Table.get_of_mem h he
  rw [← Table.get_set_other t x hne] at this
  exact Table.mem_of_get this

/-- Two tables in canonical form that read alike are the same data. -/
theorem Table.ext_of_get {t u : List (Nat × α)} (ht : Table.Rising t) (hu : Table.Rising u)
    (h : ∀ a, Table.get t a = Table.get u a) : t = u := by
  induction t generalizing u with
  | nil =>
    cases u with
    | nil => rfl
    | cons e u =>
      obtain ⟨k, v⟩ := e
      have := h k
      simp [Table.get_cons] at this
  | cons d t ih =>
    cases u with
    | nil =>
      obtain ⟨k, v⟩ := d
      have := h k
      simp [Table.get_cons] at this
    | cons e u =>
      obtain ⟨h1, h2⟩ := List.pairwise_cons.1 ht
      obtain ⟨h3, h4⟩ := List.pairwise_cons.1 hu
      have hd := Table.mem_of_get ((h d.1) ▸ Table.get_of_mem ht (List.mem_cons_self))
      have he := Table.mem_of_get ((h e.1).symm ▸ Table.get_of_mem hu (List.mem_cons_self))
      have hde : d = e := by
        rcases List.mem_cons.1 hd with hd | hd
        · exact hd
        · rcases List.mem_cons.1 he with he | he
          · exact he.symm
          · have := h1 _ he; have := h3 _ hd; simp only at *; omega
      subst hde
      obtain ⟨k, v⟩ := d
      congr 1
      refine ih h2 h4 fun a => ?_
      have ha := h a
      by_cases hk : k = a
      · subst hk
        have no : ∀ {w : List (Nat × α)}, (∀ e ∈ w, k < e.1) → Table.get w k = none := by
          intro w hw
          cases hg : Table.get w k with
          | none => rfl
          | some x => have := hw _ (Table.mem_of_get hg); simp only at this; omega
        rw [no h1, no h3]
      · simpa [Table.get_cons, hk] using ha

/-! ### The literal dictionary -/

/-- `DictReset`'s function: the domain is `[0, m)`, and a literal code maps to its one byte (rule R224). -/
theorem literals_get (m c : Nat) : Table.get (literals m) c = if c < m then some (Str.literal c) else none := by
  have key : ∀ (l : List Nat) (c : Nat), Table.get (l.map fun i => (i, Str.literal i)) c =
      if c ∈ l then some (Str.literal c) else none := by
    intro l c
    induction l with
    | nil => simp
    | cons i l ih =>
      rw [List.map_cons, Table.get_cons, ih]
      by_cases h : i = c
      · subst h; simp
      · simp [h, Ne.symm h]
  rw [literals, key]
  simp

theorem literals_rising (m : Nat) : Table.Rising (literals m) := by
  rw [literals, Table.Rising, List.pairwise_map]
  exact List.pairwise_lt_range

theorem literals_mem {m : Nat} {e : Nat × Str} (h : e ∈ literals m) : e.1 < m ∧ e.2 = Str.literal e.1 := by
  have := literals_get m e.1
  rw [Table.get_of_mem (literals_rising m) h] at this
  split at this
  · exact ⟨‹_›, by simpa using this⟩
  · simp at this

/-! ### Memory spaces of a state -/

/-- A read after a write, at any space and offset. -/
theorem byteAt_writeByte (s : State) (sp sp' : Space) (off a : Nat) (b : Byte) :
    (s.writeByte sp off b).byteAt sp' a = if sp' = sp ∧ a = off then some b else s.byteAt sp' a := by
  cases sp <;> cases sp' <;> simp [State.writeByte, State.byteAt, State.mem, Table.get_set]

/-- A write of a byte keeps every space's canonical form. -/
theorem mem_writeByte_wf {s : State} {sp' : Space} (h : Memory.wf (s.mem sp')) (sp : Space) (off : Nat) (b : Byte) :
    Memory.wf ((s.writeByte sp off b).mem sp') := by
  cases sp <;> cases sp' <;>
    first
    | exact Table.rising_set h _ _
    | exact h

end Sys2Proof.Machine
end

