-- ==== Sys2Proof/Laws/State.lean ====
section
/-! SUPPORT. One lemma a field of State for each named update of the machine, so that no proof unfolds an update: what an
update writes, and that it keeps every other field. -/

namespace Sys2Proof.Machine

/-! ### `State.keepStatus` -/

@[simp] theorem State.keepStatus_cfg (s : State) : s.keepStatus.cfg = s.cfg := rfl
@[simp] theorem State.keepStatus_status (s : State) : s.keepStatus.status = s.status := rfl
@[simp] theorem State.keepStatus_fault (s : State) : s.keepStatus.fault = s.fault := rfl
@[simp] theorem State.keepStatus_SRC_LEN (s : State) : s.keepStatus.SRC_LEN = s.SRC_LEN := rfl
@[simp] theorem State.keepStatus_gif (s : State) : s.keepStatus.gif = s.gif := rfl
@[simp] theorem State.keepStatus_frame0 (s : State) : s.keepStatus.frame0 = s.frame0 := rfl
@[simp] theorem State.keepStatus_lzw (s : State) : s.keepStatus.lzw = s.lzw := rfl
@[simp] theorem State.keepStatus_bmp (s : State) : s.keepStatus.bmp = s.bmp := rfl
@[simp] theorem State.keepStatus_bmpWork (s : State) : s.keepStatus.bmpWork = s.bmpWork := rfl
@[simp] theorem State.keepStatus_src (s : State) : s.keepStatus.src = s.src := rfl
@[simp] theorem State.keepStatus_cbuf (s : State) : s.keepStatus.cbuf = s.cbuf := rfl
@[simp] theorem State.keepStatus_obuf (s : State) : s.keepStatus.obuf = s.obuf := rfl
@[simp] theorem State.keepStatus_sink (s : State) : s.keepStatus.sink = s.sink := rfl
@[simp] theorem State.keepStatus_dict (s : State) : s.keepStatus.dict = s.dict := rfl
@[simp] theorem State.keepStatus_gscPos (s : State) : s.keepStatus.gscPos = s.gscPos := rfl
@[simp] theorem State.keepStatus_gscCount (s : State) : s.keepStatus.gscCount = s.gscCount := rfl
@[simp] theorem State.keepStatus_host (s : State) : s.keepStatus.host = s.host := rfl
@[simp] theorem State.keepStatus_hostData (s : State) : s.keepStatus.hostData = s.hostData := rfl
@[simp] theorem State.keepStatus_statusBefore (s : State) : s.keepStatus.statusBefore = s.status := rfl
@[simp] theorem State.keepStatus_mem (s : State) (sp : Space) : s.keepStatus.mem sp = s.mem sp := by cases sp <;> rfl
@[simp] theorem State.keepStatus_byteAt (s : State) (sp : Space) (a : Nat) : s.keepStatus.byteAt sp a = s.byteAt sp a := by cases sp <;> rfl

/-! ### `State.setState` -/

@[simp] theorem State.setState_cfg (v : RunState) (s : State) : (s.setState v).cfg = s.cfg := rfl
@[simp] theorem State.setState_status (v : RunState) (s : State) : (s.setState v).status = { s.status with STATE := v } := rfl
@[simp] theorem State.setState_fault (v : RunState) (s : State) : (s.setState v).fault = s.fault := rfl
@[simp] theorem State.setState_SRC_LEN (v : RunState) (s : State) : (s.setState v).SRC_LEN = s.SRC_LEN := rfl
@[simp] theorem State.setState_gif (v : RunState) (s : State) : (s.setState v).gif = s.gif := rfl
@[simp] theorem State.setState_frame0 (v : RunState) (s : State) : (s.setState v).frame0 = s.frame0 := rfl
@[simp] theorem State.setState_lzw (v : RunState) (s : State) : (s.setState v).lzw = s.lzw := rfl
@[simp] theorem State.setState_bmp (v : RunState) (s : State) : (s.setState v).bmp = s.bmp := rfl
@[simp] theorem State.setState_bmpWork (v : RunState) (s : State) : (s.setState v).bmpWork = s.bmpWork := rfl
@[simp] theorem State.setState_src (v : RunState) (s : State) : (s.setState v).src = s.src := rfl
@[simp] theorem State.setState_cbuf (v : RunState) (s : State) : (s.setState v).cbuf = s.cbuf := rfl
@[simp] theorem State.setState_obuf (v : RunState) (s : State) : (s.setState v).obuf = s.obuf := rfl
@[simp] theorem State.setState_sink (v : RunState) (s : State) : (s.setState v).sink = s.sink := rfl
@[simp] theorem State.setState_dict (v : RunState) (s : State) : (s.setState v).dict = s.dict := rfl
@[simp] theorem State.setState_gscPos (v : RunState) (s : State) : (s.setState v).gscPos = s.gscPos := rfl
@[simp] theorem State.setState_gscCount (v : RunState) (s : State) : (s.setState v).gscCount = s.gscCount := rfl
@[simp] theorem State.setState_host (v : RunState) (s : State) : (s.setState v).host = s.host := rfl
@[simp] theorem State.setState_hostData (v : RunState) (s : State) : (s.setState v).hostData = s.hostData := rfl
@[simp] theorem State.setState_statusBefore (v : RunState) (s : State) : (s.setState v).statusBefore = s.statusBefore := rfl
@[simp] theorem State.setState_mem (v : RunState) (s : State) (sp : Space) : (s.setState v).mem sp = s.mem sp := by cases sp <;> rfl
@[simp] theorem State.setState_byteAt (v : RunState) (s : State) (sp : Space) (a : Nat) : (s.setState v).byteAt sp a = s.byteAt sp a := by cases sp <;> rfl

/-! ### `State.setReady` -/

@[simp] theorem State.setReady_cfg (v : Bool) (s : State) : (s.setReady v).cfg = s.cfg := rfl
@[simp] theorem State.setReady_status (v : Bool) (s : State) : (s.setReady v).status = { s.status with GIF_READY := v } := rfl
@[simp] theorem State.setReady_fault (v : Bool) (s : State) : (s.setReady v).fault = s.fault := rfl
@[simp] theorem State.setReady_SRC_LEN (v : Bool) (s : State) : (s.setReady v).SRC_LEN = s.SRC_LEN := rfl
@[simp] theorem State.setReady_gif (v : Bool) (s : State) : (s.setReady v).gif = s.gif := rfl
@[simp] theorem State.setReady_frame0 (v : Bool) (s : State) : (s.setReady v).frame0 = s.frame0 := rfl
@[simp] theorem State.setReady_lzw (v : Bool) (s : State) : (s.setReady v).lzw = s.lzw := rfl
@[simp] theorem State.setReady_bmp (v : Bool) (s : State) : (s.setReady v).bmp = s.bmp := rfl
@[simp] theorem State.setReady_bmpWork (v : Bool) (s : State) : (s.setReady v).bmpWork = s.bmpWork := rfl
@[simp] theorem State.setReady_src (v : Bool) (s : State) : (s.setReady v).src = s.src := rfl
@[simp] theorem State.setReady_cbuf (v : Bool) (s : State) : (s.setReady v).cbuf = s.cbuf := rfl
@[simp] theorem State.setReady_obuf (v : Bool) (s : State) : (s.setReady v).obuf = s.obuf := rfl
@[simp] theorem State.setReady_sink (v : Bool) (s : State) : (s.setReady v).sink = s.sink := rfl
@[simp] theorem State.setReady_dict (v : Bool) (s : State) : (s.setReady v).dict = s.dict := rfl
@[simp] theorem State.setReady_gscPos (v : Bool) (s : State) : (s.setReady v).gscPos = s.gscPos := rfl
@[simp] theorem State.setReady_gscCount (v : Bool) (s : State) : (s.setReady v).gscCount = s.gscCount := rfl
@[simp] theorem State.setReady_host (v : Bool) (s : State) : (s.setReady v).host = s.host := rfl
@[simp] theorem State.setReady_hostData (v : Bool) (s : State) : (s.setReady v).hostData = s.hostData := rfl
@[simp] theorem State.setReady_statusBefore (v : Bool) (s : State) : (s.setReady v).statusBefore = s.statusBefore := rfl
@[simp] theorem State.setReady_mem (v : Bool) (s : State) (sp : Space) : (s.setReady v).mem sp = s.mem sp := by cases sp <;> rfl
@[simp] theorem State.setReady_byteAt (v : Bool) (s : State) (sp : Space) (a : Nat) : (s.setReady v).byteAt sp a = s.byteAt sp a := by cases sp <;> rfl

/-! ### `State.setMultiframe` -/

@[simp] theorem State.setMultiframe_cfg (v : Bool) (s : State) : (s.setMultiframe v).cfg = s.cfg := rfl
@[simp] theorem State.setMultiframe_status (v : Bool) (s : State) : (s.setMultiframe v).status = { s.status with MULTIFRAME := v } := rfl
@[simp] theorem State.setMultiframe_fault (v : Bool) (s : State) : (s.setMultiframe v).fault = s.fault := rfl
@[simp] theorem State.setMultiframe_SRC_LEN (v : Bool) (s : State) : (s.setMultiframe v).SRC_LEN = s.SRC_LEN := rfl
@[simp] theorem State.setMultiframe_gif (v : Bool) (s : State) : (s.setMultiframe v).gif = s.gif := rfl
@[simp] theorem State.setMultiframe_frame0 (v : Bool) (s : State) : (s.setMultiframe v).frame0 = s.frame0 := rfl
@[simp] theorem State.setMultiframe_lzw (v : Bool) (s : State) : (s.setMultiframe v).lzw = s.lzw := rfl
@[simp] theorem State.setMultiframe_bmp (v : Bool) (s : State) : (s.setMultiframe v).bmp = s.bmp := rfl
@[simp] theorem State.setMultiframe_bmpWork (v : Bool) (s : State) : (s.setMultiframe v).bmpWork = s.bmpWork := rfl
@[simp] theorem State.setMultiframe_src (v : Bool) (s : State) : (s.setMultiframe v).src = s.src := rfl
@[simp] theorem State.setMultiframe_cbuf (v : Bool) (s : State) : (s.setMultiframe v).cbuf = s.cbuf := rfl
@[simp] theorem State.setMultiframe_obuf (v : Bool) (s : State) : (s.setMultiframe v).obuf = s.obuf := rfl
@[simp] theorem State.setMultiframe_sink (v : Bool) (s : State) : (s.setMultiframe v).sink = s.sink := rfl
@[simp] theorem State.setMultiframe_dict (v : Bool) (s : State) : (s.setMultiframe v).dict = s.dict := rfl
@[simp] theorem State.setMultiframe_gscPos (v : Bool) (s : State) : (s.setMultiframe v).gscPos = s.gscPos := rfl
@[simp] theorem State.setMultiframe_gscCount (v : Bool) (s : State) : (s.setMultiframe v).gscCount = s.gscCount := rfl
@[simp] theorem State.setMultiframe_host (v : Bool) (s : State) : (s.setMultiframe v).host = s.host := rfl
@[simp] theorem State.setMultiframe_hostData (v : Bool) (s : State) : (s.setMultiframe v).hostData = s.hostData := rfl
@[simp] theorem State.setMultiframe_statusBefore (v : Bool) (s : State) : (s.setMultiframe v).statusBefore = s.statusBefore := rfl
@[simp] theorem State.setMultiframe_mem (v : Bool) (s : State) (sp : Space) : (s.setMultiframe v).mem sp = s.mem sp := by cases sp <;> rfl
@[simp] theorem State.setMultiframe_byteAt (v : Bool) (s : State) (sp : Space) (a : Nat) : (s.setMultiframe v).byteAt sp a = s.byteAt sp a := by cases sp <;> rfl

/-! ### `State.setEoi` -/

@[simp] theorem State.setEoi_cfg (v : Bool) (s : State) : (s.setEoi v).cfg = s.cfg := rfl
@[simp] theorem State.setEoi_status (v : Bool) (s : State) : (s.setEoi v).status = { s.status with EOI_SEEN := v } := rfl
@[simp] theorem State.setEoi_fault (v : Bool) (s : State) : (s.setEoi v).fault = s.fault := rfl
@[simp] theorem State.setEoi_SRC_LEN (v : Bool) (s : State) : (s.setEoi v).SRC_LEN = s.SRC_LEN := rfl
@[simp] theorem State.setEoi_gif (v : Bool) (s : State) : (s.setEoi v).gif = s.gif := rfl
@[simp] theorem State.setEoi_frame0 (v : Bool) (s : State) : (s.setEoi v).frame0 = s.frame0 := rfl
@[simp] theorem State.setEoi_lzw (v : Bool) (s : State) : (s.setEoi v).lzw = s.lzw := rfl
@[simp] theorem State.setEoi_bmp (v : Bool) (s : State) : (s.setEoi v).bmp = s.bmp := rfl
@[simp] theorem State.setEoi_bmpWork (v : Bool) (s : State) : (s.setEoi v).bmpWork = s.bmpWork := rfl
@[simp] theorem State.setEoi_src (v : Bool) (s : State) : (s.setEoi v).src = s.src := rfl
@[simp] theorem State.setEoi_cbuf (v : Bool) (s : State) : (s.setEoi v).cbuf = s.cbuf := rfl
@[simp] theorem State.setEoi_obuf (v : Bool) (s : State) : (s.setEoi v).obuf = s.obuf := rfl
@[simp] theorem State.setEoi_sink (v : Bool) (s : State) : (s.setEoi v).sink = s.sink := rfl
@[simp] theorem State.setEoi_dict (v : Bool) (s : State) : (s.setEoi v).dict = s.dict := rfl
@[simp] theorem State.setEoi_gscPos (v : Bool) (s : State) : (s.setEoi v).gscPos = s.gscPos := rfl
@[simp] theorem State.setEoi_gscCount (v : Bool) (s : State) : (s.setEoi v).gscCount = s.gscCount := rfl
@[simp] theorem State.setEoi_host (v : Bool) (s : State) : (s.setEoi v).host = s.host := rfl
@[simp] theorem State.setEoi_hostData (v : Bool) (s : State) : (s.setEoi v).hostData = s.hostData := rfl
@[simp] theorem State.setEoi_statusBefore (v : Bool) (s : State) : (s.setEoi v).statusBefore = s.statusBefore := rfl
@[simp] theorem State.setEoi_mem (v : Bool) (s : State) (sp : Space) : (s.setEoi v).mem sp = s.mem sp := by cases sp <;> rfl
@[simp] theorem State.setEoi_byteAt (v : Bool) (s : State) (sp : Space) (a : Nat) : (s.setEoi v).byteAt sp a = s.byteAt sp a := by cases sp <;> rfl

/-! ### `commandStart` -/

@[simp] theorem commandStart_cfg (c : Word) (s : State) : (commandStart c s).cfg = s.cfg := rfl
@[simp] theorem commandStart_status (c : Word) (s : State) : (commandStart c s).status = { s.status with STATE := .busy .start, LAST_CMD := c.setWidth 4 } := rfl
@[simp] theorem commandStart_fault (c : Word) (s : State) : (commandStart c s).fault = { FAULT_KIND := 0, FAULT_CAUSE := 0, FAULT_INFO := 0 } := rfl
@[simp] theorem commandStart_SRC_LEN (c : Word) (s : State) : (commandStart c s).SRC_LEN = s.SRC_LEN := rfl
@[simp] theorem commandStart_gif (c : Word) (s : State) : (commandStart c s).gif = s.gif := rfl
@[simp] theorem commandStart_frame0 (c : Word) (s : State) : (commandStart c s).frame0 = s.frame0 := rfl
@[simp] theorem commandStart_lzw (c : Word) (s : State) : (commandStart c s).lzw = s.lzw := rfl
@[simp] theorem commandStart_bmp (c : Word) (s : State) : (commandStart c s).bmp = s.bmp := rfl
@[simp] theorem commandStart_bmpWork (c : Word) (s : State) : (commandStart c s).bmpWork = s.bmpWork := rfl
@[simp] theorem commandStart_src (c : Word) (s : State) : (commandStart c s).src = s.src := rfl
@[simp] theorem commandStart_cbuf (c : Word) (s : State) : (commandStart c s).cbuf = s.cbuf := rfl
@[simp] theorem commandStart_obuf (c : Word) (s : State) : (commandStart c s).obuf = s.obuf := rfl
@[simp] theorem commandStart_sink (c : Word) (s : State) : (commandStart c s).sink = s.sink := rfl
@[simp] theorem commandStart_dict (c : Word) (s : State) : (commandStart c s).dict = s.dict := rfl
@[simp] theorem commandStart_gscPos (c : Word) (s : State) : (commandStart c s).gscPos = s.gscPos := rfl
@[simp] theorem commandStart_gscCount (c : Word) (s : State) : (commandStart c s).gscCount = s.gscCount := rfl
@[simp] theorem commandStart_host (c : Word) (s : State) : (commandStart c s).host = s.host := rfl
@[simp] theorem commandStart_hostData (c : Word) (s : State) : (commandStart c s).hostData = s.hostData := rfl
@[simp] theorem commandStart_statusBefore (c : Word) (s : State) : (commandStart c s).statusBefore = s.statusBefore := rfl
@[simp] theorem commandStart_mem (c : Word) (s : State) (sp : Space) : (commandStart c s).mem sp = s.mem sp := by cases sp <;> rfl
@[simp] theorem commandStart_byteAt (c : Word) (s : State) (sp : Space) (a : Nat) : (commandStart c s).byteAt sp a = s.byteAt sp a := by cases sp <;> rfl

/-! ### `stop` -/

@[simp] theorem stop_cfg (s : State) : (stop s).cfg = s.cfg := rfl
@[simp] theorem stop_status (s : State) : (stop s).status = { s.status with STATE := .done } := rfl
@[simp] theorem stop_fault (s : State) : (stop s).fault = s.fault := rfl
@[simp] theorem stop_SRC_LEN (s : State) : (stop s).SRC_LEN = s.SRC_LEN := rfl
@[simp] theorem stop_gif (s : State) : (stop s).gif = s.gif := rfl
@[simp] theorem stop_frame0 (s : State) : (stop s).frame0 = s.frame0 := rfl
@[simp] theorem stop_lzw (s : State) : (stop s).lzw = s.lzw := rfl
@[simp] theorem stop_bmp (s : State) : (stop s).bmp = s.bmp := rfl
@[simp] theorem stop_bmpWork (s : State) : (stop s).bmpWork = s.bmpWork := rfl
@[simp] theorem stop_src (s : State) : (stop s).src = s.src := rfl
@[simp] theorem stop_cbuf (s : State) : (stop s).cbuf = s.cbuf := rfl
@[simp] theorem stop_obuf (s : State) : (stop s).obuf = s.obuf := rfl
@[simp] theorem stop_sink (s : State) : (stop s).sink = s.sink := rfl
@[simp] theorem stop_dict (s : State) : (stop s).dict = s.dict := rfl
@[simp] theorem stop_gscPos (s : State) : (stop s).gscPos = s.gscPos := rfl
@[simp] theorem stop_gscCount (s : State) : (stop s).gscCount = s.gscCount := rfl
@[simp] theorem stop_host (s : State) : (stop s).host = s.host := rfl
@[simp] theorem stop_hostData (s : State) : (stop s).hostData = s.hostData := rfl
@[simp] theorem stop_statusBefore (s : State) : (stop s).statusBefore = s.statusBefore := rfl
@[simp] theorem stop_mem (s : State) (sp : Space) : (stop s).mem sp = s.mem sp := by cases sp <;> rfl
@[simp] theorem stop_byteAt (s : State) (sp : Space) (a : Nat) : (stop s).byteAt sp a = s.byteAt sp a := by cases sp <;> rfl

/-! ### `faultEntry` -/

@[simp] theorem faultEntry_cfg (c : Cause) (info : Nat) (s : State) : (faultEntry c info s).cfg = s.cfg := rfl
@[simp] theorem faultEntry_status (c : Cause) (info : Nat) (s : State) : (faultEntry c info s).status = { s.status with STATE := .fault, STICKY_FAULT := true } := rfl
@[simp] theorem faultEntry_fault (c : Cause) (info : Nat) (s : State) : (faultEntry c info s).fault = { FAULT_KIND := c.kind.code, FAULT_CAUSE := c.code, FAULT_INFO := trunc32 info } := rfl
@[simp] theorem faultEntry_SRC_LEN (c : Cause) (info : Nat) (s : State) : (faultEntry c info s).SRC_LEN = s.SRC_LEN := rfl
@[simp] theorem faultEntry_gif (c : Cause) (info : Nat) (s : State) : (faultEntry c info s).gif = s.gif := rfl
@[simp] theorem faultEntry_frame0 (c : Cause) (info : Nat) (s : State) : (faultEntry c info s).frame0 = s.frame0 := rfl
@[simp] theorem faultEntry_lzw (c : Cause) (info : Nat) (s : State) : (faultEntry c info s).lzw = s.lzw := rfl
@[simp] theorem faultEntry_bmp (c : Cause) (info : Nat) (s : State) : (faultEntry c info s).bmp = s.bmp := rfl
@[simp] theorem faultEntry_bmpWork (c : Cause) (info : Nat) (s : State) : (faultEntry c info s).bmpWork = s.bmpWork := rfl
@[simp] theorem faultEntry_src (c : Cause) (info : Nat) (s : State) : (faultEntry c info s).src = s.src := rfl
@[simp] theorem faultEntry_cbuf (c : Cause) (info : Nat) (s : State) : (faultEntry c info s).cbuf = s.cbuf := rfl
@[simp] theorem faultEntry_obuf (c : Cause) (info : Nat) (s : State) : (faultEntry c info s).obuf = s.obuf := rfl
@[simp] theorem faultEntry_sink (c : Cause) (info : Nat) (s : State) : (faultEntry c info s).sink = s.sink := rfl
@[simp] theorem faultEntry_dict (c : Cause) (info : Nat) (s : State) : (faultEntry c info s).dict = s.dict := rfl
@[simp] theorem faultEntry_gscPos (c : Cause) (info : Nat) (s : State) : (faultEntry c info s).gscPos = s.gscPos := rfl
@[simp] theorem faultEntry_gscCount (c : Cause) (info : Nat) (s : State) : (faultEntry c info s).gscCount = s.gscCount := rfl
@[simp] theorem faultEntry_host (c : Cause) (info : Nat) (s : State) : (faultEntry c info s).host = s.host := rfl
@[simp] theorem faultEntry_hostData (c : Cause) (info : Nat) (s : State) : (faultEntry c info s).hostData = s.hostData := rfl
@[simp] theorem faultEntry_statusBefore (c : Cause) (info : Nat) (s : State) : (faultEntry c info s).statusBefore = s.statusBefore := rfl
@[simp] theorem faultEntry_mem (c : Cause) (info : Nat) (s : State) (sp : Space) : (faultEntry c info s).mem sp = s.mem sp := by cases sp <;> rfl
@[simp] theorem faultEntry_byteAt (c : Cause) (info : Nat) (s : State) (sp : Space) (a : Nat) : (faultEntry c info s).byteAt sp a = s.byteAt sp a := by cases sp <;> rfl

/-! ### `dictReset` -/

@[simp] theorem dictReset_cfg (s : State) : (dictReset s).cfg = s.cfg := rfl
@[simp] theorem dictReset_status (s : State) : (dictReset s).status = s.status := rfl
@[simp] theorem dictReset_fault (s : State) : (dictReset s).fault = s.fault := rfl
@[simp] theorem dictReset_SRC_LEN (s : State) : (dictReset s).SRC_LEN = s.SRC_LEN := rfl
@[simp] theorem dictReset_gif (s : State) : (dictReset s).gif = s.gif := rfl
@[simp] theorem dictReset_frame0 (s : State) : (dictReset s).frame0 = s.frame0 := rfl
@[simp] theorem dictReset_lzw (s : State) : (dictReset s).lzw = 
      { s.lzw with LZW_W := trunc32 (s.lzw.LZW_N.toNat + 1), LZW_NEXT := trunc32 (2 ^ s.lzw.LZW_N.toNat + 2), LZW_PREV := NONE } := rfl
@[simp] theorem dictReset_bmp (s : State) : (dictReset s).bmp = s.bmp := rfl
@[simp] theorem dictReset_bmpWork (s : State) : (dictReset s).bmpWork = s.bmpWork := rfl
@[simp] theorem dictReset_src (s : State) : (dictReset s).src = s.src := rfl
@[simp] theorem dictReset_cbuf (s : State) : (dictReset s).cbuf = s.cbuf := rfl
@[simp] theorem dictReset_obuf (s : State) : (dictReset s).obuf = s.obuf := rfl
@[simp] theorem dictReset_sink (s : State) : (dictReset s).sink = s.sink := rfl
@[simp] theorem dictReset_dict (s : State) : (dictReset s).dict = literals (2 ^ s.lzw.LZW_N.toNat) := rfl
@[simp] theorem dictReset_gscPos (s : State) : (dictReset s).gscPos = s.gscPos := rfl
@[simp] theorem dictReset_gscCount (s : State) : (dictReset s).gscCount = s.gscCount := rfl
@[simp] theorem dictReset_host (s : State) : (dictReset s).host = s.host := rfl
@[simp] theorem dictReset_hostData (s : State) : (dictReset s).hostData = s.hostData := rfl
@[simp] theorem dictReset_statusBefore (s : State) : (dictReset s).statusBefore = s.statusBefore := rfl
@[simp] theorem dictReset_mem (s : State) (sp : Space) : (dictReset s).mem sp = s.mem sp := by cases sp <;> rfl
@[simp] theorem dictReset_byteAt (s : State) (sp : Space) (a : Nat) : (dictReset s).byteAt sp a = s.byteAt sp a := by cases sp <;> rfl

/-! ### `dictInsert` -/

@[simp] theorem dictInsert_cfg (x : Str) (s : State) : (dictInsert x s).cfg = s.cfg := rfl
@[simp] theorem dictInsert_status (x : Str) (s : State) : (dictInsert x s).status = s.status := rfl
@[simp] theorem dictInsert_fault (x : Str) (s : State) : (dictInsert x s).fault = s.fault := rfl
@[simp] theorem dictInsert_SRC_LEN (x : Str) (s : State) : (dictInsert x s).SRC_LEN = s.SRC_LEN := rfl
@[simp] theorem dictInsert_gif (x : Str) (s : State) : (dictInsert x s).gif = s.gif := rfl
@[simp] theorem dictInsert_frame0 (x : Str) (s : State) : (dictInsert x s).frame0 = s.frame0 := rfl
@[simp] theorem dictInsert_lzw (x : Str) (s : State) : (dictInsert x s).lzw = 
      { s.lzw with
        LZW_NEXT := trunc32 (s.lzw.LZW_NEXT.toNat + 1)
        LZW_W := if s.lzw.LZW_NEXT.toNat + 1 = 2 ^ s.lzw.LZW_W.toNat then trunc32 (s.lzw.LZW_W.toNat + 1) else s.lzw.LZW_W } := rfl
@[simp] theorem dictInsert_bmp (x : Str) (s : State) : (dictInsert x s).bmp = s.bmp := rfl
@[simp] theorem dictInsert_bmpWork (x : Str) (s : State) : (dictInsert x s).bmpWork = s.bmpWork := rfl
@[simp] theorem dictInsert_src (x : Str) (s : State) : (dictInsert x s).src = s.src := rfl
@[simp] theorem dictInsert_cbuf (x : Str) (s : State) : (dictInsert x s).cbuf = s.cbuf := rfl
@[simp] theorem dictInsert_obuf (x : Str) (s : State) : (dictInsert x s).obuf = s.obuf := rfl
@[simp] theorem dictInsert_sink (x : Str) (s : State) : (dictInsert x s).sink = s.sink := rfl
@[simp] theorem dictInsert_dict (x : Str) (s : State) : (dictInsert x s).dict = Table.set s.dict s.lzw.LZW_NEXT.toNat x := rfl
@[simp] theorem dictInsert_gscPos (x : Str) (s : State) : (dictInsert x s).gscPos = s.gscPos := rfl
@[simp] theorem dictInsert_gscCount (x : Str) (s : State) : (dictInsert x s).gscCount = s.gscCount := rfl
@[simp] theorem dictInsert_host (x : Str) (s : State) : (dictInsert x s).host = s.host := rfl
@[simp] theorem dictInsert_hostData (x : Str) (s : State) : (dictInsert x s).hostData = s.hostData := rfl
@[simp] theorem dictInsert_statusBefore (x : Str) (s : State) : (dictInsert x s).statusBefore = s.statusBefore := rfl
@[simp] theorem dictInsert_mem (x : Str) (s : State) (sp : Space) : (dictInsert x s).mem sp = s.mem sp := by cases sp <;> rfl
@[simp] theorem dictInsert_byteAt (x : Str) (s : State) (sp : Space) (a : Nat) : (dictInsert x s).byteAt sp a = s.byteAt sp a := by cases sp <;> rfl

/-! ### `lzwRemember` -/

@[simp] theorem lzwRemember_cfg (v : Nat) (s : State) : (lzwRemember v s).cfg = s.cfg := rfl
@[simp] theorem lzwRemember_status (v : Nat) (s : State) : (lzwRemember v s).status = s.status := rfl
@[simp] theorem lzwRemember_fault (v : Nat) (s : State) : (lzwRemember v s).fault = s.fault := rfl
@[simp] theorem lzwRemember_SRC_LEN (v : Nat) (s : State) : (lzwRemember v s).SRC_LEN = s.SRC_LEN := rfl
@[simp] theorem lzwRemember_gif (v : Nat) (s : State) : (lzwRemember v s).gif = s.gif := rfl
@[simp] theorem lzwRemember_frame0 (v : Nat) (s : State) : (lzwRemember v s).frame0 = s.frame0 := rfl
@[simp] theorem lzwRemember_lzw (v : Nat) (s : State) : (lzwRemember v s).lzw = { s.lzw with LZW_PREV := trunc32 v } := rfl
@[simp] theorem lzwRemember_bmp (v : Nat) (s : State) : (lzwRemember v s).bmp = s.bmp := rfl
@[simp] theorem lzwRemember_bmpWork (v : Nat) (s : State) : (lzwRemember v s).bmpWork = s.bmpWork := rfl
@[simp] theorem lzwRemember_src (v : Nat) (s : State) : (lzwRemember v s).src = s.src := rfl
@[simp] theorem lzwRemember_cbuf (v : Nat) (s : State) : (lzwRemember v s).cbuf = s.cbuf := rfl
@[simp] theorem lzwRemember_obuf (v : Nat) (s : State) : (lzwRemember v s).obuf = s.obuf := rfl
@[simp] theorem lzwRemember_sink (v : Nat) (s : State) : (lzwRemember v s).sink = s.sink := rfl
@[simp] theorem lzwRemember_dict (v : Nat) (s : State) : (lzwRemember v s).dict = s.dict := rfl
@[simp] theorem lzwRemember_gscPos (v : Nat) (s : State) : (lzwRemember v s).gscPos = s.gscPos := rfl
@[simp] theorem lzwRemember_gscCount (v : Nat) (s : State) : (lzwRemember v s).gscCount = s.gscCount := rfl
@[simp] theorem lzwRemember_host (v : Nat) (s : State) : (lzwRemember v s).host = s.host := rfl
@[simp] theorem lzwRemember_hostData (v : Nat) (s : State) : (lzwRemember v s).hostData = s.hostData := rfl
@[simp] theorem lzwRemember_statusBefore (v : Nat) (s : State) : (lzwRemember v s).statusBefore = s.statusBefore := rfl
@[simp] theorem lzwRemember_mem (v : Nat) (s : State) (sp : Space) : (lzwRemember v s).mem sp = s.mem sp := by cases sp <;> rfl
@[simp] theorem lzwRemember_byteAt (v : Nat) (s : State) (sp : Space) (a : Nat) : (lzwRemember v s).byteAt sp a = s.byteAt sp a := by cases sp <;> rfl

/-! ### `gscAt` -/

@[simp] theorem gscAt_cfg (ph : Phase) (p : Nat) (s : State) : (gscAt ph p s).cfg = s.cfg := rfl
@[simp] theorem gscAt_status (ph : Phase) (p : Nat) (s : State) : (gscAt ph p s).status = { s.status with STATE := .busy ph } := rfl
@[simp] theorem gscAt_fault (ph : Phase) (p : Nat) (s : State) : (gscAt ph p s).fault = s.fault := rfl
@[simp] theorem gscAt_SRC_LEN (ph : Phase) (p : Nat) (s : State) : (gscAt ph p s).SRC_LEN = s.SRC_LEN := rfl
@[simp] theorem gscAt_gif (ph : Phase) (p : Nat) (s : State) : (gscAt ph p s).gif = { s.gif with GIF_POS := trunc32 p } := rfl
@[simp] theorem gscAt_frame0 (ph : Phase) (p : Nat) (s : State) : (gscAt ph p s).frame0 = s.frame0 := rfl
@[simp] theorem gscAt_lzw (ph : Phase) (p : Nat) (s : State) : (gscAt ph p s).lzw = s.lzw := rfl
@[simp] theorem gscAt_bmp (ph : Phase) (p : Nat) (s : State) : (gscAt ph p s).bmp = s.bmp := rfl
@[simp] theorem gscAt_bmpWork (ph : Phase) (p : Nat) (s : State) : (gscAt ph p s).bmpWork = s.bmpWork := rfl
@[simp] theorem gscAt_src (ph : Phase) (p : Nat) (s : State) : (gscAt ph p s).src = s.src := rfl
@[simp] theorem gscAt_cbuf (ph : Phase) (p : Nat) (s : State) : (gscAt ph p s).cbuf = s.cbuf := rfl
@[simp] theorem gscAt_obuf (ph : Phase) (p : Nat) (s : State) : (gscAt ph p s).obuf = s.obuf := rfl
@[simp] theorem gscAt_sink (ph : Phase) (p : Nat) (s : State) : (gscAt ph p s).sink = s.sink := rfl
@[simp] theorem gscAt_dict (ph : Phase) (p : Nat) (s : State) : (gscAt ph p s).dict = s.dict := rfl
@[simp] theorem gscAt_gscPos (ph : Phase) (p : Nat) (s : State) : (gscAt ph p s).gscPos = p := rfl
@[simp] theorem gscAt_gscCount (ph : Phase) (p : Nat) (s : State) : (gscAt ph p s).gscCount = s.gscCount := rfl
@[simp] theorem gscAt_host (ph : Phase) (p : Nat) (s : State) : (gscAt ph p s).host = s.host := rfl
@[simp] theorem gscAt_hostData (ph : Phase) (p : Nat) (s : State) : (gscAt ph p s).hostData = s.hostData := rfl
@[simp] theorem gscAt_statusBefore (ph : Phase) (p : Nat) (s : State) : (gscAt ph p s).statusBefore = s.statusBefore := rfl
@[simp] theorem gscAt_mem (ph : Phase) (p : Nat) (s : State) (sp : Space) : (gscAt ph p s).mem sp = s.mem sp := by cases sp <;> rfl
@[simp] theorem gscAt_byteAt (ph : Phase) (p : Nat) (s : State) (sp : Space) (a : Nat) : (gscAt ph p s).byteAt sp a = s.byteAt sp a := by cases sp <;> rfl

/-! ### `bmpAt` -/

@[simp] theorem bmpAt_cfg (fr col : Nat) (s : State) : (bmpAt fr col s).cfg = s.cfg := rfl
@[simp] theorem bmpAt_status (fr col : Nat) (s : State) : (bmpAt fr col s).status = s.status := rfl
@[simp] theorem bmpAt_fault (fr col : Nat) (s : State) : (bmpAt fr col s).fault = s.fault := rfl
@[simp] theorem bmpAt_SRC_LEN (fr col : Nat) (s : State) : (bmpAt fr col s).SRC_LEN = s.SRC_LEN := rfl
@[simp] theorem bmpAt_gif (fr col : Nat) (s : State) : (bmpAt fr col s).gif = s.gif := rfl
@[simp] theorem bmpAt_frame0 (fr col : Nat) (s : State) : (bmpAt fr col s).frame0 = s.frame0 := rfl
@[simp] theorem bmpAt_lzw (fr col : Nat) (s : State) : (bmpAt fr col s).lzw = s.lzw := rfl
@[simp] theorem bmpAt_bmp (fr col : Nat) (s : State) : (bmpAt fr col s).bmp = s.bmp := rfl
@[simp] theorem bmpAt_bmpWork (fr col : Nat) (s : State) : (bmpAt fr col s).bmpWork = 
      { BMP_CUR := trunc32 (sampleOffset s fr col), BMP_X := trunc32 col, BMP_ROW := trunc32 fr } := rfl
@[simp] theorem bmpAt_src (fr col : Nat) (s : State) : (bmpAt fr col s).src = s.src := rfl
@[simp] theorem bmpAt_cbuf (fr col : Nat) (s : State) : (bmpAt fr col s).cbuf = s.cbuf := rfl
@[simp] theorem bmpAt_obuf (fr col : Nat) (s : State) : (bmpAt fr col s).obuf = s.obuf := rfl
@[simp] theorem bmpAt_sink (fr col : Nat) (s : State) : (bmpAt fr col s).sink = s.sink := rfl
@[simp] theorem bmpAt_dict (fr col : Nat) (s : State) : (bmpAt fr col s).dict = s.dict := rfl
@[simp] theorem bmpAt_gscPos (fr col : Nat) (s : State) : (bmpAt fr col s).gscPos = s.gscPos := rfl
@[simp] theorem bmpAt_gscCount (fr col : Nat) (s : State) : (bmpAt fr col s).gscCount = s.gscCount := rfl
@[simp] theorem bmpAt_host (fr col : Nat) (s : State) : (bmpAt fr col s).host = s.host := rfl
@[simp] theorem bmpAt_hostData (fr col : Nat) (s : State) : (bmpAt fr col s).hostData = s.hostData := rfl
@[simp] theorem bmpAt_statusBefore (fr col : Nat) (s : State) : (bmpAt fr col s).statusBefore = s.statusBefore := rfl
@[simp] theorem bmpAt_mem (fr col : Nat) (s : State) (sp : Space) : (bmpAt fr col s).mem sp = s.mem sp := by cases sp <;> rfl
@[simp] theorem bmpAt_byteAt (fr col : Nat) (s : State) (sp : Space) (a : Nat) : (bmpAt fr col s).byteAt sp a = s.byteAt sp a := by cases sp <;> rfl

/-! ### `State.writeByte` and the writes made of it -/

@[simp] theorem State.writeByte_cfg (sp : Space) (off : Nat) (b : Byte) (s : State) :
    (s.writeByte sp off b).cfg = s.cfg := by cases sp <;> rfl
@[simp] theorem State.writeByte_status (sp : Space) (off : Nat) (b : Byte) (s : State) :
    (s.writeByte sp off b).status = s.status := by cases sp <;> rfl
@[simp] theorem State.writeByte_fault (sp : Space) (off : Nat) (b : Byte) (s : State) :
    (s.writeByte sp off b).fault = s.fault := by cases sp <;> rfl
@[simp] theorem State.writeByte_SRC_LEN (sp : Space) (off : Nat) (b : Byte) (s : State) :
    (s.writeByte sp off b).SRC_LEN = s.SRC_LEN := by cases sp <;> rfl
@[simp] theorem State.writeByte_gif (sp : Space) (off : Nat) (b : Byte) (s : State) :
    (s.writeByte sp off b).gif = s.gif := by cases sp <;> rfl
@[simp] theorem State.writeByte_frame0 (sp : Space) (off : Nat) (b : Byte) (s : State) :
    (s.writeByte sp off b).frame0 = s.frame0 := by cases sp <;> rfl
@[simp] theorem State.writeByte_lzw (sp : Space) (off : Nat) (b : Byte) (s : State) :
    (s.writeByte sp off b).lzw = s.lzw := by cases sp <;> rfl
@[simp] theorem State.writeByte_bmp (sp : Space) (off : Nat) (b : Byte) (s : State) :
    (s.writeByte sp off b).bmp = s.bmp := by cases sp <;> rfl
@[simp] theorem State.writeByte_bmpWork (sp : Space) (off : Nat) (b : Byte) (s : State) :
    (s.writeByte sp off b).bmpWork = s.bmpWork := by cases sp <;> rfl
@[simp] theorem State.writeByte_dict (sp : Space) (off : Nat) (b : Byte) (s : State) :
    (s.writeByte sp off b).dict = s.dict := by cases sp <;> rfl
@[simp] theorem State.writeByte_gscPos (sp : Space) (off : Nat) (b : Byte) (s : State) :
    (s.writeByte sp off b).gscPos = s.gscPos := by cases sp <;> rfl
@[simp] theorem State.writeByte_gscCount (sp : Space) (off : Nat) (b : Byte) (s : State) :
    (s.writeByte sp off b).gscCount = s.gscCount := by cases sp <;> rfl
@[simp] theorem State.writeByte_host (sp : Space) (off : Nat) (b : Byte) (s : State) :
    (s.writeByte sp off b).host = s.host := by cases sp <;> rfl
@[simp] theorem State.writeByte_hostData (sp : Space) (off : Nat) (b : Byte) (s : State) :
    (s.writeByte sp off b).hostData = s.hostData := by cases sp <;> rfl
@[simp] theorem State.writeByte_statusBefore (sp : Space) (off : Nat) (b : Byte) (s : State) :
    (s.writeByte sp off b).statusBefore = s.statusBefore := by cases sp <;> rfl

@[simp] theorem sinkPut_cfg (off : Nat) (px : Cell) (s : State) : (sinkPut off px s).cfg = s.cfg := rfl
@[simp] theorem sinkPut_status (off : Nat) (px : Cell) (s : State) : (sinkPut off px s).status = s.status := rfl
@[simp] theorem sinkPut_fault (off : Nat) (px : Cell) (s : State) : (sinkPut off px s).fault = s.fault := rfl
@[simp] theorem sinkPut_SRC_LEN (off : Nat) (px : Cell) (s : State) : (sinkPut off px s).SRC_LEN = s.SRC_LEN := rfl
@[simp] theorem sinkPut_gif (off : Nat) (px : Cell) (s : State) : (sinkPut off px s).gif = s.gif := rfl
@[simp] theorem sinkPut_frame0 (off : Nat) (px : Cell) (s : State) : (sinkPut off px s).frame0 = s.frame0 := rfl
@[simp] theorem sinkPut_lzw (off : Nat) (px : Cell) (s : State) : (sinkPut off px s).lzw = s.lzw := rfl
@[simp] theorem sinkPut_bmp (off : Nat) (px : Cell) (s : State) : (sinkPut off px s).bmp = s.bmp := rfl
@[simp] theorem sinkPut_bmpWork (off : Nat) (px : Cell) (s : State) : (sinkPut off px s).bmpWork = s.bmpWork := rfl
@[simp] theorem sinkPut_src (off : Nat) (px : Cell) (s : State) : (sinkPut off px s).src = s.src := rfl
@[simp] theorem sinkPut_cbuf (off : Nat) (px : Cell) (s : State) : (sinkPut off px s).cbuf = s.cbuf := rfl
@[simp] theorem sinkPut_obuf (off : Nat) (px : Cell) (s : State) : (sinkPut off px s).obuf = s.obuf := rfl
@[simp] theorem sinkPut_dict (off : Nat) (px : Cell) (s : State) : (sinkPut off px s).dict = s.dict := rfl
@[simp] theorem sinkPut_gscPos (off : Nat) (px : Cell) (s : State) : (sinkPut off px s).gscPos = s.gscPos := rfl
@[simp] theorem sinkPut_gscCount (off : Nat) (px : Cell) (s : State) : (sinkPut off px s).gscCount = s.gscCount := rfl
@[simp] theorem sinkPut_host (off : Nat) (px : Cell) (s : State) : (sinkPut off px s).host = s.host := rfl
@[simp] theorem sinkPut_hostData (off : Nat) (px : Cell) (s : State) : (sinkPut off px s).hostData = s.hostData := rfl
@[simp] theorem sinkPut_statusBefore (off : Nat) (px : Cell) (s : State) : (sinkPut off px s).statusBefore = s.statusBefore := rfl

@[simp] theorem obufPut_cfg (b : Byte) (s : State) : (obufPut b s).cfg = s.cfg := rfl
@[simp] theorem obufPut_status (b : Byte) (s : State) : (obufPut b s).status = s.status := rfl
@[simp] theorem obufPut_fault (b : Byte) (s : State) : (obufPut b s).fault = s.fault := rfl
@[simp] theorem obufPut_SRC_LEN (b : Byte) (s : State) : (obufPut b s).SRC_LEN = s.SRC_LEN := rfl
@[simp] theorem obufPut_gif (b : Byte) (s : State) : (obufPut b s).gif = s.gif := rfl
@[simp] theorem obufPut_frame0 (b : Byte) (s : State) : (obufPut b s).frame0 = s.frame0 := rfl
@[simp] theorem obufPut_lzw (b : Byte) (s : State) : (obufPut b s).lzw = { s.lzw with LZW_OLEN := trunc32 (s.lzw.LZW_OLEN.toNat + 1) } := rfl
@[simp] theorem obufPut_bmp (b : Byte) (s : State) : (obufPut b s).bmp = s.bmp := rfl
@[simp] theorem obufPut_bmpWork (b : Byte) (s : State) : (obufPut b s).bmpWork = s.bmpWork := rfl
@[simp] theorem obufPut_src (b : Byte) (s : State) : (obufPut b s).src = s.src := rfl
@[simp] theorem obufPut_cbuf (b : Byte) (s : State) : (obufPut b s).cbuf = s.cbuf := rfl
@[simp] theorem obufPut_sink (b : Byte) (s : State) : (obufPut b s).sink = s.sink := rfl
@[simp] theorem obufPut_dict (b : Byte) (s : State) : (obufPut b s).dict = s.dict := rfl
@[simp] theorem obufPut_gscPos (b : Byte) (s : State) : (obufPut b s).gscPos = s.gscPos := rfl
@[simp] theorem obufPut_gscCount (b : Byte) (s : State) : (obufPut b s).gscCount = s.gscCount := rfl
@[simp] theorem obufPut_host (b : Byte) (s : State) : (obufPut b s).host = s.host := rfl
@[simp] theorem obufPut_hostData (b : Byte) (s : State) : (obufPut b s).hostData = s.hostData := rfl
@[simp] theorem obufPut_statusBefore (b : Byte) (s : State) : (obufPut b s).statusBefore = s.statusBefore := rfl

end Sys2Proof.Machine
end

