-- ==== Sys2Proof/Laws/Ops.lean ====
section
/-! SUPPORT. What each shared operation can do, said once: `Answers` speaks of every outcome, and each operation has one lemma
that reduces it to what the operation's continuation answers, beside the equations of its ordinary cases. -/

namespace Sys2Proof.Machine

/-- Every outcome is allowed: a next state by `P`, a fault by `F`, a refusal by `R`. -/
def Answers (P : State → Prop) (F : Fault → Prop) (R : Refusal → Prop) : Out → Prop
  | .next t => P t
  | .fault f => F f
  | .refused r => R r

variable {P Q : State → Prop} {F : Fault → Prop} {R : Refusal → Prop}

@[simp] theorem answers_next (t : State) : Answers P F R (.next t) = P t := rfl
@[simp] theorem answers_fault (f : Fault) : Answers P F R (.fault f) = F f := rfl
@[simp] theorem answers_refused (r : Refusal) : Answers P F R (.refused r) = R r := rfl
@[simp] theorem answers_raise (c : Cause) (i : Nat) (s : State) : Answers P F R (raise c i s) = P (faultEntry c i s) := rfl

theorem Answers.mono {o : Out} (h : Answers P F R o) (hP : ∀ t, P t → Q t) : Answers Q F R o := by
  cases o <;> first | exact hP _ h | exact h

/-- `Answers` read at a next state. -/
theorem Answers.next {o : Out} (h : Answers P F R o) {t : State} (ho : o = .next t) : P t := by
  subst ho; exact h

/-- Every next state satisfies `P`: the weakest use of `Answers`. -/
abbrev Ends (P : State → Prop) (o : Out) : Prop := Answers P (fun _ => True) (fun _ => True) o

theorem ends_iff {o : Out} : Ends P o ↔ ∀ t, o = .next t → P t := by
  cases o <;> simp [Ends]

/-! ### Reads of `SRC` -/

theorem srcRead_answers {c : Cause} {a : Nat} {s : State} {k : Byte → Out}
    (hf : s.SRC_LEN.toNat ≤ a → P (faultEntry c a s))
    (hr : a < s.SRC_LEN.toNat → s.byteAt .src a = none → R (.unwrittenByte .src a))
    (hk : ∀ b, a < s.SRC_LEN.toNat → s.byteAt .src a = some b → Answers P F R (k b)) :
    Answers P F R (srcRead c a s k) := by
  unfold srcRead
  split
  · exact hf ‹_›
  · have ha : a < s.SRC_LEN.toNat := by omega
    cases h : s.byteAt .src a with
    | none => exact hr ha h
    | some b => exact hk b ha h

theorem srcRead_ok {c : Cause} {a : Nat} {s : State} {k : Byte → Out} {b : Byte} (ha : a < s.SRC_LEN.toNat)
    (hb : s.byteAt .src a = some b) : srcRead c a s k = k b := by
  unfold srcRead
  rw [if_neg (by omega), hb]

theorem srcRead_short {c : Cause} {a : Nat} {s : State} {k : Byte → Out} (ha : s.SRC_LEN.toNat ≤ a) :
    srcRead c a s k = .next (faultEntry c a s) := by
  unfold srcRead
  rw [if_pos ha]; rfl

/-- Rule R38: a byte that nothing has written is refused. -/
theorem srcRead_unwritten {c : Cause} {a : Nat} {s : State} {k : Byte → Out} (ha : a < s.SRC_LEN.toNat)
    (hb : s.byteAt .src a = none) : srcRead c a s k = .refused (.unwrittenByte .src a) := by
  unfold srcRead
  rw [if_neg (by omega), hb]

theorem srcRead16_ok {c : Cause} {a : Nat} {s : State} {k : Nat → Out} {b0 b1 : Byte} (ha : a + 1 < s.SRC_LEN.toNat)
    (h0 : s.byteAt .src a = some b0) (h1 : s.byteAt .src (a + 1) = some b1) :
    srcRead16 c a s k = k (b0.toNat + 256 * b1.toNat) := by
  rw [srcRead16, srcRead_ok (by omega) h0, srcRead_ok ha h1]
  rfl

theorem srcRead32_ok {c : Cause} {a : Nat} {s : State} {k : Nat → Out} {b0 b1 b2 b3 : Byte}
    (ha : a + 3 < s.SRC_LEN.toNat) (h0 : s.byteAt .src a = some b0) (h1 : s.byteAt .src (a + 1) = some b1)
    (h2 : s.byteAt .src (a + 2) = some b2) (h3 : s.byteAt .src (a + 3) = some b3) :
    srcRead32 c a s k = k (b0.toNat + 256 * (b1.toNat + 256 * (b2.toNat + 256 * b3.toNat))) := by
  rw [srcRead32, srcRead_ok (by omega) h0, srcRead_ok (by omega) h1, srcRead_ok (by omega) h2, srcRead_ok ha h3]
  rfl

theorem srcRead16_answers {c : Cause} {a : Nat} {s : State} {k : Nat → Out}
    (hf : ∀ i, P (faultEntry c i s))
    (hr : ∀ i, i < s.SRC_LEN.toNat → s.byteAt .src i = none → R (.unwrittenByte .src i))
    (hk : ∀ v, v < 2 ^ 16 → a + 1 < s.SRC_LEN.toNat → Answers P F R (k v)) : Answers P F R (srcRead16 c a s k) :=
  srcRead_answers (fun _ => hf _) (hr _) fun b0 _ _ =>
    srcRead_answers (fun _ => hf _) (hr _) fun b1 h1 _ =>
      hk _ (by have := b0.isLt; have := b1.isLt; simp only [leNat]; omega) h1

theorem srcRead32_answers {c : Cause} {a : Nat} {s : State} {k : Nat → Out}
    (hf : ∀ i, P (faultEntry c i s))
    (hr : ∀ i, i < s.SRC_LEN.toNat → s.byteAt .src i = none → R (.unwrittenByte .src i))
    (hk : ∀ v, v < 2 ^ 32 → Answers P F R (k v)) : Answers P F R (srcRead32 c a s k) :=
  srcRead_answers (fun _ => hf _) (hr _) fun b0 _ _ =>
    srcRead_answers (fun _ => hf _) (hr _) fun b1 _ _ =>
      srcRead_answers (fun _ => hf _) (hr _) fun b2 _ _ =>
        srcRead_answers (fun _ => hf _) (hr _) fun b3 _ _ =>
          hk _ (by have := b0.isLt; have := b1.isLt; have := b2.isLt; have := b3.isLt; simp only [leNat]; omega)

/-- `checkSrcLen` refuses a length beyond the memory (rule R133). -/
theorem checkSrcLen_answers {s : State} {k : State → Out}
    (hf : s.cfg.SRC_CAP < s.SRC_LEN.toNat → P (faultEntry .U_SRC_LEN s.SRC_LEN.toNat s))
    (hk : s.SRC_LEN.toNat ≤ s.cfg.SRC_CAP → Answers P F R (k s)) : Answers P F R (checkSrcLen s k) := by
  unfold checkSrcLen
  split
  · exact hf ‹_›
  · exact hk (by omega)

theorem checkSrcLen_ok {s : State} {k : State → Out} (h : s.SRC_LEN.toNat ≤ s.cfg.SRC_CAP) : checkSrcLen s k = k s := by
  unfold checkSrcLen
  rw [if_neg (by omega)]

/-! ### `CBUF` -/

theorem cbufWrite_answers {off : Nat} {b : Byte} {s : State} {k : State → Out}
    (hf : s.cfg.CBUF_CAP ≤ off → P (faultEntry .C_CBUF_FULL off s))
    (hk : off < s.cfg.CBUF_CAP → Answers P F R (k (s.writeByte .cbuf off b))) :
    Answers P F R (cbufWrite off b s k) := by
  unfold cbufWrite
  split
  · exact hf ‹_›
  · exact hk (by omega)

/-- The window read gives as many bytes as asked, each the byte at its offset. -/
theorem cbufBytes_ok {s : State} : ∀ {m a : Nat} {bs : List Byte}, cbufBytes s a m = .ok bs →
    bs.length = m ∧ ∀ i < m, s.byteAt .cbuf (a + i) = bs[i]?
  | 0, a, bs, h => by simp [cbufBytes] at h; subst h; simp
  | m + 1, a, bs, h => by
    simp only [cbufBytes] at h
    split at h
    · simp at h
    · split at h
      · simp at h
      · rename_i b hb _ bs' hbs
        obtain ⟨hl, hi⟩ := cbufBytes_ok hbs
        simp only [Except.ok.injEq] at h
        subst h
        refine ⟨by simp [hl], fun i hm => ?_⟩
        cases i with
        | zero => simpa using hb
        | succ i =>
          have := hi i (by omega)
          rw [show a + (i + 1) = a + 1 + i by omega, this]; simp

/-- When every byte of the window is written, the window read gives them. -/
theorem cbufBytes_of_bytes {s : State} : ∀ {m a : Nat} {bs : List Byte}, bs.length = m →
    (∀ i < m, s.byteAt .cbuf (a + i) = bs[i]?) → cbufBytes s a m = .ok bs
  | 0, a, bs, hl, _ => by
    have : bs = [] := List.length_eq_zero_iff.1 hl
    subst this; rfl
  | m + 1, a, bs, hl, hi => by
    cases bs with
    | nil => simp at hl
    | cons b bs =>
      have h0 := hi 0 (by omega)
      have ih : cbufBytes s (a + 1) m = .ok bs :=
        cbufBytes_of_bytes (by simpa using hl) fun i hm => by
          have := hi (i + 1) (by omega)
          rw [show a + 1 + i = a + (i + 1) by omega, this]; simp
      simp only [cbufBytes]
      simp only [Nat.add_zero, List.getElem?_cons_zero] at h0
      rw [h0, ih]

/-- Where a window read stops: the first unwritten byte of the window. -/
theorem cbufBytes_error {s : State} : ∀ {m a e : Nat}, cbufBytes s a m = .error e → a ≤ e ∧ e < a + m ∧ s.byteAt .cbuf e = none
  | 0, a, e, h => by simp [cbufBytes] at h
  | m + 1, a, e, h => by
    simp only [cbufBytes] at h
    split at h
    · rename_i hb
      cases h
      exact ⟨Nat.le_refl _, by omega, hb⟩
    · split at h
      · rename_i hbs
        cases h
        have := cbufBytes_error hbs
        exact ⟨by omega, by omega, this.2.2⟩
      · cases h

/-- A window read stops at the first unwritten byte. -/
theorem cbufBytes_unwritten {s : State} : ∀ {m a e : Nat}, a ≤ e → e < a + m → s.byteAt .cbuf e = none →
    (∀ i, a ≤ i → i < e → (s.byteAt .cbuf i).isSome = true) → cbufBytes s a m = .error e
  | 0, a, e, h1, h2, _, _ => by omega
  | m + 1, a, e, h1, h2, hn, hw => by
    simp only [cbufBytes]
    by_cases hae : a = e
    · subst hae; rw [hn]
    · obtain ⟨b, hb⟩ := Option.isSome_iff_exists.1 (hw a (Nat.le_refl _) (by omega))
      rw [hb, cbufBytes_unwritten (by omega) (by omega) hn fun i h3 h4 => hw i (by omega) h4]

/-! ### `OBUF` -/

/-- What a string leaves once all of it is appended (rule R234). -/
def emitted (bs : List Byte) (s : State) : State := bs.foldl (fun t b => obufPut b t) s

@[simp] theorem emitted_nil (s : State) : emitted [] s = s := rfl
@[simp] theorem emitted_cons (b : Byte) (bs : List Byte) (s : State) : emitted (b :: bs) s = emitted bs (obufPut b s) := rfl

/-- Appending writes `OBUF` and `LZW_OLEN` and nothing else. -/
theorem emitted_frame (bs : List Byte) (s : State) :
    emitted bs s = { s with
      obuf := (emitted bs s).obuf
      lzw := { s.lzw with LZW_OLEN := trunc32 (s.lzw.LZW_OLEN.toNat + bs.length) } } := by
  induction bs generalizing s with
  | nil => simp
  | cons b bs ih =>
    have h : trunc32 ((obufPut b s).lzw.LZW_OLEN.toNat + bs.length) =
        trunc32 (s.lzw.LZW_OLEN.toNat + (b :: bs).length) := by
      apply BitVec.eq_of_toNat_eq
      simp only [obufPut_lzw, BitVec.toNat_ofNat, List.length_cons]
      omega
    rw [emitted_cons, ih, h]
    rfl

/-- Where the appended bytes are, and that no other byte changed (rule R64). -/
theorem emitted_byteAt (bs : List Byte) (s : State) (h : s.lzw.LZW_OLEN.toNat + bs.length < 2 ^ 32) (a : Nat) :
    (emitted bs s).byteAt .obuf a =
      if s.lzw.LZW_OLEN.toNat ≤ a ∧ a < s.lzw.LZW_OLEN.toNat + bs.length then bs[a - s.lzw.LZW_OLEN.toNat]?
      else s.byteAt .obuf a := by
  induction bs generalizing s with
  | nil => rw [if_neg (by simp only [List.length_nil]; omega)]; rfl
  | cons b bs ih =>
    have ho : (obufPut b s).lzw.LZW_OLEN.toNat = s.lzw.LZW_OLEN.toNat + 1 := by
      simp only [List.length_cons] at h
      simp only [obufPut_lzw, BitVec.toNat_ofNat]
      omega
    have hb : (obufPut b s).byteAt .obuf a = if a = s.lzw.LZW_OLEN.toNat then some b else s.byteAt .obuf a := by
      have := byteAt_writeByte s .obuf .obuf s.lzw.LZW_OLEN.toNat a b
      rw [show (obufPut b s).byteAt .obuf a = (s.writeByte .obuf s.lzw.LZW_OLEN.toNat b).byteAt .obuf a from rfl, this]
      simp only [true_and]
    rw [emitted_cons, ih _ (by simp only [List.length_cons] at h; omega), ho, hb]
    simp only [List.length_cons]
    by_cases h1 : a = s.lzw.LZW_OLEN.toNat
    · subst h1
      rw [if_neg (by omega), if_pos rfl, if_pos (by omega)]
      simp
    · by_cases h2 : s.lzw.LZW_OLEN.toNat ≤ a ∧ a < s.lzw.LZW_OLEN.toNat + (bs.length + 1)
      · rw [if_pos (by omega), if_pos h2]
        obtain ⟨j, rfl⟩ : ∃ j, a = s.lzw.LZW_OLEN.toNat + 1 + j := ⟨a - (s.lzw.LZW_OLEN.toNat + 1), by omega⟩
        rw [show s.lzw.LZW_OLEN.toNat + 1 + j - (s.lzw.LZW_OLEN.toNat + 1) = j by omega,
          show s.lzw.LZW_OLEN.toNat + 1 + j - s.lzw.LZW_OLEN.toNat = j + 1 by omega]
        simp
      · rw [if_neg (by omega), if_neg h1, if_neg h2]

theorem emit_ok {bs : List Byte} {s : State} {k : State → Out}
    (h : s.lzw.LZW_OLEN.toNat + bs.length ≤ s.cfg.OBUF_CAP) (hc : s.cfg.OBUF_CAP < 2 ^ 32) :
    emit bs s k = k (emitted bs s) := by
  induction bs generalizing s with
  | nil => rfl
  | cons b bs ih =>
    simp only [List.length_cons] at h
    simp only [emit, obufAppend]
    rw [if_neg (by omega), ih]
    · rfl
    · simp only [obufPut_lzw, obufPut_cfg, BitVec.toNat_ofNat]; omega
    · simpa using hc

theorem emit_full {bs : List Byte} {s : State} {k : State → Out} (hl : s.lzw.LZW_OLEN.toNat ≤ s.cfg.OBUF_CAP)
    (h : s.cfg.OBUF_CAP < s.lzw.LZW_OLEN.toNat + bs.length) (hc : s.cfg.OBUF_CAP < 2 ^ 32) :
    emit bs s k = .next (faultEntry .L_OBUF_FULL s.cfg.OBUF_CAP
      (emitted (bs.take (s.cfg.OBUF_CAP - s.lzw.LZW_OLEN.toNat)) s)) := by
  induction bs generalizing s with
  | nil => simp at h; omega
  | cons b bs ih =>
    simp only [List.length_cons] at h
    simp only [emit, obufAppend]
    split
    · have : s.lzw.LZW_OLEN.toNat = s.cfg.OBUF_CAP := by omega
      rw [this]; simp [raise]
    · have ho : (obufPut b s).lzw.LZW_OLEN.toNat = s.lzw.LZW_OLEN.toNat + 1 := by
        simp only [obufPut_lzw, BitVec.toNat_ofNat]
        omega
      rw [ih (by rw [ho]; simp; omega) (by rw [ho]; simp; omega) (by simpa using hc), ho]
      obtain ⟨j, hj⟩ : ∃ j, s.cfg.OBUF_CAP - s.lzw.LZW_OLEN.toNat = j + 1 :=
        ⟨s.cfg.OBUF_CAP - s.lzw.LZW_OLEN.toNat - 1, by omega⟩
      rw [hj, List.take_succ_cons, emitted_cons]
      simp only [obufPut_cfg]
      rw [show s.cfg.OBUF_CAP - (s.lzw.LZW_OLEN.toNat + 1) = j by omega]

/-- `Emit` ends in fault entry with part of the string appended, or goes on with all of it appended. -/
theorem emit_answers {bs : List Byte} {s : State} {k : State → Out} (hl : s.lzw.LZW_OLEN.toNat ≤ s.cfg.OBUF_CAP)
    (hc : s.cfg.OBUF_CAP < 2 ^ 32)
    (hf : s.cfg.OBUF_CAP < s.lzw.LZW_OLEN.toNat + bs.length →
      P (faultEntry .L_OBUF_FULL s.cfg.OBUF_CAP (emitted (bs.take (s.cfg.OBUF_CAP - s.lzw.LZW_OLEN.toNat)) s)))
    (hk : s.lzw.LZW_OLEN.toNat + bs.length ≤ s.cfg.OBUF_CAP → Answers P F R (k (emitted bs s))) :
    Answers P F R (emit bs s k) := by
  by_cases h : s.lzw.LZW_OLEN.toNat + bs.length ≤ s.cfg.OBUF_CAP
  · rw [emit_ok h hc]; exact hk h
  · rw [emit_full hl (by omega) hc]; exact hf (by omega)

/-- `Emit` in any state, for a property that every append and fault entry keep. -/
theorem emit_keeps {J : State → Prop} {bs : List Byte} {s : State} {k : State → Out} (hJ : J s)
    (ha : ∀ b t, J t → J (obufPut b t)) (hf : ∀ i t, J t → P (faultEntry .L_OBUF_FULL i t))
    (hk : ∀ t, J t → Answers P F R (k t)) : Answers P F R (emit bs s k) := by
  induction bs generalizing s with
  | nil => exact hk s hJ
  | cons b bs ih =>
    simp only [emit, obufAppend]
    split
    · exact hf _ _ hJ
    · exact ih (ha _ _ hJ)

/-! ### `SINK` -/

theorem sinkPut_byteAt (off : Nat) (px : Cell) (s : State) (a : Nat) :
    (sinkPut off px s).byteAt .sink a =
      if a = off then some px.r else if a = off + 1 then some px.g else if a = off + 2 then some px.b
      else if a = off + 3 then some px.a else s.byteAt .sink a := by
  simp only [sinkPut, byteAt_writeByte, true_and]
  by_cases h0 : a = off
  · subst h0; simp
  · by_cases h1 : a = off + 1
    · subst h1; simp
    · by_cases h2 : a = off + 2
      · subst h2; simp
      · simp [h0, h1, h2]

theorem sinkPut_frame (off : Nat) (px : Cell) (s : State) :
    sinkPut off px s = { s with sink := (sinkPut off px s).sink } := rfl

theorem sinkWrite_answers {x y : Nat} {px : Cell} {s : State} {k : State → Out}
    (hf : s.cfg.SINK_CAP < sinkOffset s x y + 4 → P (faultEntry .B_SINK_BOUNDS (sinkOffset s x y) s))
    (hk : sinkOffset s x y + 4 ≤ s.cfg.SINK_CAP → Answers P F R (k (sinkPut (sinkOffset s x y) px s))) :
    Answers P F R (sinkWrite x y px s k) := by
  have hC : CELL = 4 := rfl
  unfold sinkWrite
  dsimp only
  split
  · exact hf (by omega)
  · exact hk (by omega)

theorem sinkWrite_ok {x y : Nat} {px : Cell} {s : State} {k : State → Out}
    (h : sinkOffset s x y + 4 ≤ s.cfg.SINK_CAP) : sinkWrite x y px s k = k (sinkPut (sinkOffset s x y) px s) := by
  have hC : CELL = 4 := rfl
  unfold sinkWrite
  dsimp only
  rw [if_neg (by omega)]

theorem sinkWrite_full {x y : Nat} {px : Cell} {s : State} {k : State → Out}
    (h : s.cfg.SINK_CAP < sinkOffset s x y + 4) :
    sinkWrite x y px s k = .next (faultEntry .B_SINK_BOUNDS (sinkOffset s x y) s) := by
  have hC : CELL = 4 := rfl
  unfold sinkWrite
  dsimp only
  rw [if_pos (by omega)]; rfl

/-! ### The dictionary -/

theorem dictRead_ok {c : Nat} {s : State} {k : Str → Out} {x : Str} (h : Table.get s.dict c = some x) :
    dictRead c s k = k x := by
  unfold dictRead; rw [h]

theorem dictRead_answers {c : Nat} {s : State} {k : Str → Out} (hn : Table.get s.dict c = none → F (.dictAbsent c))
    (hk : ∀ x, Table.get s.dict c = some x → Answers P F R (k x)) : Answers P F R (dictRead c s k) := by
  unfold dictRead
  cases h : Table.get s.dict c with
  | none => exact hn h
  | some x => exact hk x h

/-! ### Sub-block data -/

/-- `copyData`, for a property that every `CBUF` write within bounds keeps; a copy that goes on stayed within them. -/
theorem copyData_answers {J : State → Prop} {m a n : Nat} {s : State} {k : State → Out} (hJ : J s)
    (hw : ∀ off b t, J t → off < t.cfg.CBUF_CAP → J (t.writeByte .cbuf off b)) (hf : ∀ c i t, J t → P (faultEntry c i t))
    (hr : ∀ i t, J t → i < t.SRC_LEN.toNat → t.byteAt .src i = none → R (.unwrittenByte .src i))
    (hk : ∀ t, J t → (m = 0 ∨ n + m ≤ t.cfg.CBUF_CAP) → t.gscCount = s.gscCount → t.gscPos = s.gscPos →
      Answers P F R (k t)) :
    Answers P F R (copyData m a n s k) := by
  induction m generalizing a n s with
  | zero => exact hk s hJ (.inl rfl) rfl rfl
  | succ m ih =>
    refine srcRead_answers (fun _ => hf _ _ _ hJ) (hr _ _ hJ) fun b _ _ =>
      cbufWrite_answers (fun _ => hf _ _ _ hJ) fun h => ?_
    cases m with
    | zero => exact hk _ (hw _ _ _ hJ h) (.inr h) rfl rfl
    | succ m => exact ih (hw _ _ _ hJ h) fun t ht hm hc hp => hk t ht (.inr (by omega)) hc hp

end Sys2Proof.Machine
end

