-- ==== Sys2Proof/Laws/Gif.lean ====
section
/-! SUPPORT. What `GIF_OPEN` does at each of its checks, said once for any bytes of `SRC`, and the readings of `SRC` the claims'
vocabulary gives. -/

namespace Sys2Proof.Machine

/-! ### Known bytes of `SRC` -/

theorem SrcHas.read {s : State} {a m : Nat} {b : Nat → Byte} (h : SrcHas s a m b) {i : Nat} (hi : i < m) {c : Cause}
    {k : Byte → Out} : srcRead c (a + i) s k = k (b i) :=
  srcRead_ok (by have := h.1; omega) (h.2 i hi)

theorem SrcHas.read_zero {s : State} {a m : Nat} {b : Nat → Byte} (h : SrcHas s a m b) (hm : 0 < m) {c : Cause}
    {k : Byte → Out} : srcRead c a s k = k (b 0) := h.read hm

theorem SrcHas.read16 {s : State} {a m : Nat} {b : Nat → Byte} (h : SrcHas s a m b) {i : Nat} (hi : i + 1 < m) {c : Cause}
    {k : Nat → Out} : srcRead16 c (a + i) s k = k (le16 (b i) (b (i + 1))) := by
  rw [srcRead16, h.read (by omega), Nat.add_assoc, h.read hi]
  rfl

theorem SrcHas.mono {s : State} {a m n : Nat} {b : Nat → Byte} (h : SrcHas s a m b) (hn : n ≤ m) : SrcHas s a n b :=
  ⟨by have := h.1; omega, fun i hi => h.2 i (by omega)⟩

/-- The known bytes depend on `SRC` and `SRC_LEN` only. -/
theorem SrcHas.congr {s t : State} {a m : Nat} {b : Nat → Byte} (h : SrcHas s a m b) (hs : t.src = s.src)
    (hl : t.SRC_LEN = s.SRC_LEN) : SrcHas t a m b :=
  ⟨by rw [hl]; exact h.1, fun i hi => by simpa only [State.byteAt, State.mem, hs] using h.2 i hi⟩

/-! ### The version rule -/

theorem versionCode_of {v0 v1 v2 : Byte} {ver : Word} (h : IsVersion v0 v1 v2 ver) :
    versionCode v0 v1 v2 = some ver := by
  rcases h with ⟨h0, h1, h2, rfl⟩ | ⟨h0, h1, h2, rfl⟩ | ⟨h0, h1, h2, h3, h4, rfl⟩
  · rw [versionCode, if_pos ⟨h0, h1, h2⟩]
  · rw [versionCode, if_neg (by subst h0 h1; simp), if_pos ⟨h0, h1, h2⟩]
  · rw [versionCode, if_neg h0, if_neg h1, if_pos]
    simp only [isDigit, isLetter, Bool.and_eq_true, decide_eq_true_eq, Bool.or_eq_true]
    exact ⟨⟨h2, h3⟩, h4⟩

theorem versionCode_none {v0 v1 v2 : Byte} (h : ∀ ver, ¬IsVersion v0 v1 v2 ver) : versionCode v0 v1 v2 = none := by
  rw [versionCode]
  split_ifs with h0 h1 h2
  · exact absurd (.inl ⟨h0.1, h0.2.1, h0.2.2, rfl⟩) (h 1)
  · exact absurd (.inr (.inl ⟨h1.1, h1.2.1, h1.2.2, rfl⟩)) (h 2)
  · simp only [isDigit, isLetter, Bool.and_eq_true, decide_eq_true_eq, Bool.or_eq_true] at h2
    exact absurd (.inr (.inr ⟨h0, h1, h2.1.1, h2.1.2, h2.2, rfl⟩)) (h 3)
  · rfl

/-! ### The checks of `GIF_OPEN` -/

/-- With a length that fits `SRC`, `GIF_OPEN` starts on rule R191. -/
theorem execGifOpen_checks {s : State} (h : s.SRC_LEN.toNat ≤ s.cfg.SRC_CAP) : execGifOpen s =
    gifSignature (openedGif s) fun s => gifVersion s fun s => gifTrailerCheck s fun s =>
      gifScreen s fun fl s => gifGeometry s fun s => .next (gifGlobalTable fl s) := by
  rw [execGifOpen, checkSrcLen_ok (by simpa using h)]
  rfl

theorem gifSignature_known {s : State} {b : Nat → Byte} (h : SrcHas s 0 3 b) {k : State → Out} : gifSignature s k =
    if b 0 = 0x47 ∧ b 1 = 0x49 ∧ b 2 = 0x46 then k s else raise .G_BAD_SIGNATURE (leNat [b 0, b 1, b 2]) s := by
  have r1 := @SrcHas.read s 0 3 b h 1 (by omega)
  have r2 := @SrcHas.read s 0 3 b h 2 (by omega)
  simp only [Nat.zero_add] at r1 r2
  rw [gifSignature, h.read_zero (by omega), r1, r2]

theorem gifVersion_known {s : State} {b : Nat → Byte} (h : SrcHas s 0 6 b) {k : State → Out} : gifVersion s k =
    match versionCode (b 3) (b 4) (b 5) with
    | some c => k { s with gif := { s.gif with GIF_VERSION := c } }
    | none => raise .G_BAD_VERSION (leNat [b 3, b 4, b 5]) s := by
  have r3 := @SrcHas.read s 0 6 b h 3 (by omega)
  have r4 := @SrcHas.read s 0 6 b h 4 (by omega)
  have r5 := @SrcHas.read s 0 6 b h 5 (by omega)
  simp only [Nat.zero_add] at r3 r4 r5
  rw [gifVersion, r3, r4, r5]
  rfl

theorem gifTrailerCheck_known {s : State} {last : Byte} (h0 : 0 < s.SRC_LEN.toNat)
    (h : s.byteAt .src (s.SRC_LEN.toNat - 1) = some last) {k : State → Out} : gifTrailerCheck s k =
    if last = 0x3B then k s else raise .G_NO_TRAILER last.toNat s := by
  rw [gifTrailerCheck, srcRead_ok (by omega) h]

theorem gifScreen_known {s : State} {b : Nat → Byte} (h : SrcHas s 0 13 b) {k : Byte → State → Out} : gifScreen s k =
    k (b 10) { s with gif := { s.gif with
      GIF_SCREEN_W := trunc32 (le16 (b 6) (b 7))
      GIF_SCREEN_H := trunc32 (le16 (b 8) (b 9))
      GIF_FLAGS := (b 10).setWidth 32
      GIF_BG := (b 11).setWidth 32
      GIF_ASPECT := (b 12).setWidth 32 } } := by
  have r16 : ∀ (t : State) (i : Nat) (kk : Nat → Out), t.src = s.src → t.SRC_LEN = s.SRC_LEN → i + 1 < 13 →
      srcRead16 .G_SHORT i t kk = kk (le16 (b i) (b (i + 1))) := fun t i kk hs hl hi => by
    have := (h.congr hs hl).read16 hi (c := .G_SHORT) (k := kk)
    rwa [Nat.zero_add] at this
  have r8 : ∀ (t : State) (i : Nat) (kk : Byte → Out), t.src = s.src → t.SRC_LEN = s.SRC_LEN → i < 13 →
      srcRead .G_SHORT i t kk = kk (b i) := fun t i kk hs hl hi => by
    have := (h.congr hs hl).read hi (c := .G_SHORT) (k := kk)
    rwa [Nat.zero_add] at this
  rw [gifScreen, r16 _ 6 _ (by rfl) (by rfl) (by omega)]
  dsimp only
  rw [r16 _ 8 _ (by rfl) (by rfl) (by omega)]
  rw [r8 _ 10 _ (by rfl) (by rfl) (by omega), r8 _ 11 _ (by rfl) (by rfl) (by omega),
    r8 _ 12 _ (by rfl) (by rfl) (by omega)]
  rfl

/-- A 16-bit field is 0 in its register exactly when it is 0. -/
theorem trunc32_le16_eq_zero {a b : Byte} : trunc32 (le16 a b) = 0 ↔ le16 a b = 0 := by
  have h0 := a.isLt
  have h1 := b.isLt
  rw [BitVec.toNat_eq]
  simp only [BitVec.toNat_ofNat, le16]
  simp
  omega

/-! ### `GIF_OPEN` in any state -/

/-- `GIF_OPEN` behind `gifClear`, for a property that every write to the screen record and fault entry keep. -/
theorem gifHeader_keeps {P : State → Prop} {F : Fault → Prop} {R : Refusal → Prop} {J : State → Prop}
    (hg : ∀ t f, J t → (f t.gif).GIF_FRAME_COUNT = t.gif.GIF_FRAME_COUNT → J (t.modifyGif f))
    (hf : ∀ c i t, J t → P (faultEntry c i t)) (hr : ∀ i, R (.unwrittenByte .src i))
    (hk : ∀ fl t, J t → t.gif.GIF_SCREEN_W ≠ 0 → t.gif.GIF_SCREEN_H ≠ 0 → P (gifGlobalTable fl t)) {s : State} (hJ : J s) :
    Answers P F R (gifSignature s fun s => gifVersion s fun s => gifTrailerCheck s fun s =>
      gifScreen s fun fl s => gifGeometry s fun s => .next (gifGlobalTable fl s)) := by
  have r8 : ∀ {a : Nat} {t : State} {k : Byte → Out}, J t → (∀ b, Answers P F R (k b)) → Answers P F R (srcRead .G_SHORT a t k) :=
    fun ht hk => srcRead_answers (fun _ => hf _ _ _ ht) (fun _ _ => hr _) fun b _ _ => hk b
  have r16 : ∀ {a : Nat} {t : State} {k : Nat → Out}, J t → (∀ b, Answers P F R (k b)) → Answers P F R (srcRead16 .G_SHORT a t k) :=
    fun ht hk => srcRead16_answers (fun _ => hf _ _ _ ht) (fun _ _ _ => hr _) fun b _ _ => hk b
  have geo : ∀ fl t, J t → Answers P F R (gifGeometry t fun s => .next (gifGlobalTable fl s)) := fun fl t ht => by
    unfold gifGeometry
    split
    · exact hf _ _ _ ht
    · rename_i hz
      rw [not_or] at hz
      exact hk fl t ht hz.1 hz.2
  have scr : ∀ t, J t → Answers P F R (gifScreen t fun fl s => gifGeometry s fun s => .next (gifGlobalTable fl s)) :=
    fun t ht => by
      unfold gifScreen
      exact r16 ht fun w => r16 (hg _ _ ht rfl) fun h => r8 (hg _ _ (hg _ _ ht rfl) rfl) fun fl =>
        r8 (hg _ _ (hg _ _ (hg _ _ ht rfl) rfl) rfl) fun bg =>
          r8 (hg _ _ (hg _ _ (hg _ _ (hg _ _ ht rfl) rfl) rfl) rfl) fun asp =>
            geo fl _ (hg _ _ (hg _ _ (hg _ _ (hg _ _ (hg _ _ ht rfl) rfl) rfl) rfl) rfl)
  have trl : ∀ t, J t → Answers P F R (gifTrailerCheck t fun s =>
      gifScreen s fun fl s => gifGeometry s fun s => .next (gifGlobalTable fl s)) := fun t ht => by
    refine r8 ht fun b => ?_
    split
    · exact scr t ht
    · exact hf _ _ _ ht
  refine r8 hJ fun _ => r8 hJ fun _ => r8 hJ fun _ => ?_
  split
  · refine r8 hJ fun _ => r8 hJ fun _ => r8 hJ fun _ => ?_
    split
    · exact trl _ (hg _ _ hJ rfl)
    · exact hf _ _ _ hJ
  · exact hf _ _ _ hJ

/-! ### The record of frame 0 -/

theorem frameGeometry_eq (l t w h : Nat) (fl : Byte) (s : State) : frameGeometry l t w h fl s =
    { s with frame0 :=
      if s.gif.GIF_FRAME_COUNT = 0 then
        { s.frame0 with
          F0_LEFT := trunc32 l
          F0_TOP := trunc32 t
          F0_W := trunc32 w
          F0_H := trunc32 h
          F0_FLAGS := fl.setWidth 32 }
      else s.frame0 } := by
  by_cases hf : s.gif.GIF_FRAME_COUNT = 0
  · rw [frameGeometry, if_pos (by simpa [isFirstFrame] using hf), if_pos hf]
  · rw [frameGeometry, if_neg (by simpa [isFirstFrame] using hf), if_neg hf]

theorem frameTable_eq (fl : Byte) (q : Nat) (s : State) : frameTable fl q s =
    { s with frame0 :=
      if s.gif.GIF_FRAME_COUNT = 0 then
        { s.frame0 with
          F0_LCT_COLORS := if fl.getLsbD 7 then trunc32 (2 ^ (fl.toNat % 8 + 1)) else s.frame0.F0_LCT_COLORS
          F0_LCT_OFF := if fl.getLsbD 7 then trunc32 q else s.frame0.F0_LCT_OFF }
      else s.frame0 } := by
  by_cases hf : s.gif.GIF_FRAME_COUNT = 0
  · by_cases h7 : fl.getLsbD 7 = true
    · rw [frameTable, if_pos (by simp only [hasTable, h7, isFirstFrame, hf]; rfl), if_pos hf, if_pos h7, if_pos h7]
      rfl
    · rw [frameTable, if_neg (by simp only [hasTable, h7, Bool.false_and]; decide), if_pos hf, if_neg h7, if_neg h7]
  · rw [frameTable, if_neg (by simp only [isFirstFrame, beq_iff_eq, Bool.and_eq_true, hf, and_false, not_false_iff]),
      if_neg hf]

theorem frameCode_eq (cs : Byte) (q : Nat) (s : State) : frameCode cs q s =
    { s with frame0 :=
      if s.gif.GIF_FRAME_COUNT = 0 then
        { s.frame0 with F0_CODESIZE := cs.setWidth 32, F0_DATA_OFF := trunc32 (q + 1) }
      else s.frame0 } := by
  by_cases hf : s.gif.GIF_FRAME_COUNT = 0
  · rw [frameCode, if_pos (by simpa [isFirstFrame] using hf), if_pos hf]
  · rw [frameCode, if_neg (by simpa [isFirstFrame] using hf), if_neg hf]

/-- The frame's record once its descriptor's bytes and flags are read. -/
theorem frameTable_frameGeometry (l t w h q : Nat) (fl : Byte) (s : State) :
    frameTable fl q (frameGeometry l t w h fl s) =
      { s with frame0 :=
        if s.gif.GIF_FRAME_COUNT = 0 then
          { s.frame0 with
            F0_LEFT := trunc32 l
            F0_TOP := trunc32 t
            F0_W := trunc32 w
            F0_H := trunc32 h
            F0_FLAGS := fl.setWidth 32
            F0_LCT_COLORS := if fl.getLsbD 7 then trunc32 (2 ^ (fl.toNat % 8 + 1)) else s.frame0.F0_LCT_COLORS
            F0_LCT_OFF := if fl.getLsbD 7 then trunc32 q else s.frame0.F0_LCT_OFF }
        else s.frame0 } := by
  rw [frameTable_eq, frameGeometry_eq]
  dsimp only
  by_cases hf : s.gif.GIF_FRAME_COUNT = 0
  · simp only [if_pos hf]
  · simp only [if_neg hf]

/-- `GIF.IMAGE` in any state: a fault with the frame's record as it then is, or the first sub-block's place. -/
theorem gifImage_answers {P : State → Prop} {F : Fault → Prop} {R : Refusal → Prop} {s : State}
    (hf : ∀ i f0, P (faultEntry .G_SHORT i { s with frame0 := f0 }))
    (hr : ∀ i, i < s.SRC_LEN.toNat → s.byteAt .src i = none → R (.unwrittenByte .src i))
    (hk : ∀ f0 q, s.gscPos + 10 ≤ q → q < s.SRC_LEN.toNat →
      P { s with status := { s.status with STATE := .busy .skip }, frame0 := f0, gscPos := q + 1 }) :
    Answers P F R (exec .gifImage s) := by
  show Answers P F R (execGifImage s)
  unfold execGifImage
  have go : ∀ {a : Nat} {k : Nat → Out}, (∀ v, Answers P F R (k v)) → Answers P F R (srcRead16 .G_SHORT a s k) := fun hk =>
    srcRead16_answers (fun i => hf i s.frame0) hr fun v _ _ => hk v
  refine go fun l => go fun t => go fun w => go fun h => srcRead_answers (fun _ => hf _ s.frame0) (hr _) fun fl _ _ => ?_
  obtain ⟨f0, hf0⟩ : ∃ f0, frameTable fl (s.gscPos + 10) (frameGeometry l t w h fl s) = { s with frame0 := f0 } :=
    ⟨_, frameTable_frameGeometry ..⟩
  have hq0 : s.gscPos + 10 ≤ frameCodePos fl (s.gscPos + 10) := by unfold frameCodePos; split <;> omega
  rw [hf0]
  generalize frameCodePos fl (s.gscPos + 10) = q at hq0
  refine srcRead_answers (fun _ => hf _ f0) (hr _) fun cs hq _ => ?_
  obtain ⟨f1, hf1⟩ : ∃ f1, frameCode cs q { s with frame0 := f0 } = { s with frame0 := f1 } := ⟨_, frameCode_eq ..⟩
  rw [hf1]
  exact hk f1 q hq0 hq

/-! ### Copying sub-block data -/

/-- `s` after the bytes `b 0, …, b (m - 1)` are written to `CBUF` from offset `k` (rule R212). -/
def copied (b : Nat → Byte) : Nat → Nat → State → State
  | 0, _, s => s
  | m + 1, k, s => copied (fun i => b (i + 1)) m (k + 1) (s.writeByte .cbuf k (b 0))

theorem copied_frame (b : Nat → Byte) (m k : Nat) (s : State) : copied b m k s = { s with cbuf := (copied b m k s).cbuf } := by
  induction m generalizing b k s with
  | zero => rfl
  | succ m ih =>
    rw [copied, ih]
    rfl

theorem copied_byteAt (b : Nat → Byte) (m k : Nat) (s : State) (a : Nat) : (copied b m k s).byteAt .cbuf a =
    if k ≤ a ∧ a < k + m then some (b (a - k)) else s.byteAt .cbuf a := by
  induction m generalizing b k s with
  | zero => rw [if_neg (by omega)]; rfl
  | succ m ih =>
    rw [copied, ih, byteAt_writeByte]
    by_cases h1 : k + 1 ≤ a ∧ a < k + 1 + m
    · rw [if_pos h1, if_pos (by omega), show a - (k + 1) + 1 = a - k by omega]
    · rw [if_neg h1]
      by_cases h2 : a = k
      · subst h2
        rw [if_pos ⟨rfl, rfl⟩, if_pos (by omega), Nat.sub_self]
      · rw [if_neg (by simp [h2]), if_neg (by omega)]

/-- The first `m` bytes of a copy, known and within both bounds, are copied; the copy goes on behind them. -/
theorem copyData_known {b : Nat → Byte} {m r a k : Nat} {s : State} {cont : State → Out} (h : SrcHas s a m b)
    (hk : k + m ≤ s.cfg.CBUF_CAP) :
    copyData (m + r) a k s cont = copyData r (a + m) (k + m) (copied b m k s) cont := by
  induction m generalizing b a k s with
  | zero => simp [copied]
  | succ m ih =>
    have hs : SrcHas (s.writeByte .cbuf k (b 0)) (a + 1) m (fun i => b (i + 1)) := by
      refine ⟨by have := h.1; show a + 1 + m ≤ s.SRC_LEN.toNat; omega, fun i hi => ?_⟩
      have := h.2 (i + 1) (by omega)
      rwa [show a + (i + 1) = a + 1 + i by omega] at this
    rw [show m + 1 + r = (m + r) + 1 by omega, copyData, h.read_zero (by omega), cbufWrite, if_neg (by omega), ih hs (by
      show k + 1 + m ≤ s.cfg.CBUF_CAP
      omega), copied, show a + 1 + m = a + (m + 1) by omega, show k + 1 + m = k + (m + 1) by omega]

end Sys2Proof.Machine
end

