-- ==== Sys2Proof/Laws/Bmp.lean ====
section
/-! SUPPORT. The start checks of `BMP_RENDER` by value, and a pixel of any mode once its cell is known. -/

namespace Sys2Proof.Machine

/-! ### The mode checks (rule R151, checks 1 to 4) -/

theorem word_eq_iff {a : Word} {n : Nat} (h : n < 2 ^ 32) : a = BitVec.ofNat 32 n ↔ a.toNat = n := by
  rw [BitVec.toNat_eq, BitVec.toNat_ofNat, Nat.mod_eq_of_lt h]

/-- A depth of check (1). -/
abbrev DepthOk (bpp : Word) : Prop := bpp = 1 ∨ bpp = 4 ∨ bpp = 8 ∨ bpp = 16 ∨ bpp = 24 ∨ bpp = 32

/-- A depth and a method that agree (check 3). -/
abbrev DepthAgrees (bpp comp : Word) : Prop :=
  (comp = 1 → bpp = 16 ∨ bpp = 32) ∧ (comp = 2 → bpp = 4) ∧ (comp = 3 → bpp = 8)

theorem modeFault_depth {bpp comp : Word} (h : ¬DepthOk bpp) :
    modeFault bpp.toNat comp.toNat = some (.B_BAD_DEPTH, bpp.toNat) := by
  rw [modeFault, if_pos]
  refine ⟨?_, ?_, ?_, ?_, ?_, ?_⟩ <;> intro e <;> apply h <;> rw [← word_eq_iff (by decide)] at e <;>
    simp only [DepthOk, e] <;> decide

theorem DepthOk.toNat {bpp : Word} (h : DepthOk bpp) :
    bpp.toNat = 1 ∨ bpp.toNat = 4 ∨ bpp.toNat = 8 ∨ bpp.toNat = 16 ∨ bpp.toNat = 24 ∨ bpp.toNat = 32 := by
  rcases h with rfl | rfl | rfl | rfl | rfl | rfl <;> decide

theorem depthAgrees_toNat {bpp comp : Word} : DepthAgrees bpp comp ↔
    (comp.toNat = 1 → bpp.toNat = 16 ∨ bpp.toNat = 32) ∧ (comp.toNat = 2 → bpp.toNat = 4) ∧
      (comp.toNat = 3 → bpp.toNat = 8) := by
  have e : ∀ (a : Word) (n : Nat) (h : n < 2 ^ 32), a = BitVec.ofNat 32 n ↔ a.toNat = n := fun a n h => word_eq_iff h
  rw [← e _ 1 (by decide), ← e _ 2 (by decide), ← e _ 3 (by decide), ← e _ 4 (by decide), ← e _ 8 (by decide),
    ← e _ 16 (by decide), ← e _ 32 (by decide)]
  exact Iff.rfl

theorem modeFault_comp {bpp comp : Word} (h1 : DepthOk bpp) (h2 : 6 < comp.toNat) :
    modeFault bpp.toNat comp.toNat = some (.B_BAD_COMP, comp.toNat) := by
  have h1 := h1.toNat
  rw [modeFault, if_neg (by omega), if_pos h2]

theorem modeFault_agree {bpp comp : Word} (h1 : DepthOk bpp) (h2 : comp.toNat ≤ 6) (h3 : ¬DepthAgrees bpp comp) :
    modeFault bpp.toNat comp.toNat = some (.B_DEPTH_COMP, comp.toNat) := by
  have h1 := h1.toNat
  have h3 := mt depthAgrees_toNat.2 h3
  rw [modeFault, if_neg (by omega), if_neg (by omega), if_pos (by omega)]

theorem modeFault_compressed {bpp comp : Word} (h1 : DepthOk bpp) (h2 : DepthAgrees bpp comp) (h3 : 2 ≤ comp.toNat)
    (h4 : comp.toNat ≤ 6) : modeFault bpp.toNat comp.toNat = some (.B_COMPRESSED, comp.toNat) := by
  have h1 := h1.toNat
  have h2 := depthAgrees_toNat.1 h2
  rw [modeFault, if_neg (by omega), if_neg (by omega), if_neg (by omega), if_pos h3]

theorem modeFault_ok {bpp comp : Word} (h1 : DepthOk bpp) (h2 : DepthAgrees bpp comp) (h3 : comp.toNat ≤ 1) :
    modeFault bpp.toNat comp.toNat = none := by
  have h1 := h1.toNat
  have h2 := depthAgrees_toNat.1 h2
  rw [modeFault, if_neg (by omega), if_neg (by omega), if_neg (by omega), if_neg (by omega)]

theorem modeFault_eq_none {bpp comp : Word} : modeFault bpp.toNat comp.toNat = none ↔ modePairLegal bpp comp = true := by
  have e : ∀ (a : Word) (n : Nat) (h : n < 2 ^ 32), a = BitVec.ofNat 32 n ↔ a.toNat = n := fun a n h => word_eq_iff h
  have q : modePairLegal bpp comp = true ↔
      (comp.toNat = 0 ∧ (bpp.toNat = 1 ∨ bpp.toNat = 4 ∨ bpp.toNat = 8 ∨ bpp.toNat = 16 ∨ bpp.toNat = 24 ∨ bpp.toNat = 32)) ∨
        (comp.toNat = 1 ∧ (bpp.toNat = 16 ∨ bpp.toNat = 32)) := by
    simp only [modePairLegal, Bool.or_eq_true, Bool.and_eq_true, beq_iff_eq, ← e _ 0 (by decide),
      ← e _ 1 (by decide), ← e _ 4 (by decide), ← e _ 8 (by decide), ← e _ 16 (by decide), ← e _ 24 (by decide), ← e _ 32 (by decide), or_assoc]
    exact Iff.rfl
  rw [q, modeFault]
  constructor
  · intro h
    repeat' split at h
    all_goals first | (cases h; done) | omega
  · intro h
    rw [if_neg (by omega), if_neg (by omega), if_neg (by omega), if_neg (by omega)]

/-! ### The start -/

theorem bmpRender_refused {s : State} (hc : s.SRC_LEN.toNat ≤ s.cfg.SRC_CAP) {c : Cause} {i : Nat}
    (h : bmpStartFault s = some (c, i)) :
    exec .bmpRender s = .next (refusedAtStart 4 c.kind.code c.code (trunc32 i) s) := by
  rw [show exec .bmpRender s = execBmpRender s from rfl, execBmpRender, checkSrcLen_ok (by exact hc)]
  simp only [show bmpStartFault (commandStart 4 s) = some (c, i) from h]
  rfl

/-! ### A pixel -/

/-- `bmpNext` moves on as rule R153 says. -/
theorem bmpNext_movedOn (s t : State) (ht : t = { s with sink := t.sink }) :
    MovedOn s (bmpNext s.bmpWork.BMP_ROW.toNat s.bmpWork.BMP_X.toNat t) := by
  refine ⟨fun h => ?_, fun h1 h2 => ?_, fun h1 h2 => ?_⟩
  · rw [ht, bmpNext, if_pos (by exact h)]
    refine ⟨rfl, ?_⟩
    simp [bmpAt, sampleOffset, rowBase, pixelBase, pixelRow, pixelCol, stride, rowBytes, show ROW_ALIGN = 4 from rfl]
  · rw [ht, bmpNext, if_neg (by exact Nat.not_lt.2 h1), if_pos (by exact h2)]
    refine ⟨rfl, ?_⟩
    simp [bmpAt, sampleOffset, rowBase, pixelRow, stride, rowBytes, show ROW_ALIGN = 4 from rfl]
  · rw [ht, bmpNext, if_neg (by exact Nat.not_lt.2 h1), if_neg (by exact Nat.not_lt.2 h2)]
    exact ⟨rfl, rfl⟩

theorem bmpNext_frame (fr col : Nat) (s : State) :
    bmpNext fr col s = { s with status := (bmpNext fr col s).status, bmpWork := (bmpNext fr col s).bmpWork } := by
  unfold bmpNext
  split
  · rfl
  · split <;> rfl

theorem inViewport_iff (s : State) :
    inViewport s s.bmpWork.BMP_ROW.toNat s.bmpWork.BMP_X.toNat = true ↔ PixelInside s := by
  simp only [inViewport, Bool.and_eq_true, decide_eq_true_eq]
  rfl

/-- A pixel whose cell is known: it is written where it fits `SINK`, and faults where it does not. -/
theorem renderPixel_renders {pixel : Nat → Nat → State → (Cell → Out) → Out} {s : State} {px : Cell}
    (h : ∀ k, pixel (pixelBase s) (pixelCol s) s k = k px) :
    (CellFits s → ∃ t, renderPixel pixel s = .next t ∧ Rendered px s t) ∧
    (¬CellFits s → renderPixel pixel s = .next (faulted 6 0x3B (trunc32 (cellOffset s)) s)) := by
  have hb : rowBase s s.bmpWork.BMP_ROW.toNat = pixelBase s := rfl
  have ho : sinkOffset s s.bmpWork.BMP_X.toNat (displayRow s s.bmpWork.BMP_ROW.toNat) = cellOffset s := rfl
  have hp : ∀ k, pixel (pixelBase s) s.bmpWork.BMP_X.toNat s k = k px := h
  simp only [renderPixel, hb, hp]
  refine ⟨fun hf => ?_, fun hf => ?_⟩
  · by_cases hi : PixelInside s
    · rw [if_pos ((inViewport_iff s).2 hi), sinkWrite_ok (by rw [ho]; exact hf hi), ho]
      refine ⟨_, rfl, ?_, bmpNext_movedOn s _ rfl, fun _ a => ?_, fun h => absurd hi h⟩
      · rw [bmpNext_frame]; rfl
      · rw [bmpNext_frame]
        show (sinkPut (cellOffset s) px s).byteAt .sink a = _
        rw [sinkPut_byteAt]
        generalize cellOffset s = o
        by_cases h0 : o ≤ a ∧ a < o + 4
        · rw [if_pos h0]
          obtain ⟨k, rfl⟩ : ∃ k, a = o + k := ⟨a - o, by omega⟩
          have hk : k < 4 := by omega
          rw [Nat.add_sub_cancel_left]
          interval_cases k <;> simp
        · rw [if_neg (by omega), if_neg (by omega), if_neg (by omega), if_neg (by omega), if_neg h0]
    · rw [if_neg (fun h => hi ((inViewport_iff s).1 h))]
      refine ⟨_, rfl, ?_, bmpNext_movedOn s _ rfl, fun h => absurd h hi, fun _ a => ?_⟩
      · rw [bmpNext_frame]
      · rw [bmpNext_frame]; rfl
  · have hi : PixelInside s := Classical.byContradiction fun h => hf fun h' => absurd h' h
    have hl : s.cfg.SINK_CAP < cellOffset s + 4 := by
      by_contra h; exact hf fun _ => by omega
    rw [if_pos ((inViewport_iff s).2 hi), sinkWrite_full (by rw [ho]; exact hl), ho]
    rfl

theorem palColour_ok {s : State} {index : Nat} {e : Nat → Byte} (hi : IndexAllowed s index)
    (he : SrcHas s (s.bmp.BMP_PAL_BASE.toNat + index * 4) 3 e) (k : Cell → Out) :
    palColour index s k = k { r := e 2, g := e 1, b := e 0, a := 255 } := by
  rw [palColour, if_neg]
  · show srcRead _ (s.bmp.BMP_PAL_BASE.toNat + index * 4 + 0) s _ = _
    rw [he.read (by omega)]
    show srcRead _ (s.bmp.BMP_PAL_BASE.toNat + index * 4 + 1) s _ = _
    rw [he.read (by omega)]
    show srcRead _ (s.bmp.BMP_PAL_BASE.toNat + index * 4 + 2) s _ = _
    rw [he.read (by omega)]
  · rintro ⟨h1, h2⟩
    rcases hi with h | h
    · exact h1 h
    · omega

theorem bit_getMsbD (b : Byte) (k : Nat) (h : k < 8) : (b.toNat >>> (7 - k)) % 2 = (b.getMsbD k).toNat := by
  have : ∀ b : Byte, ∀ k < 8, (b.toNat >>> (7 - k)) % 2 = (b.getMsbD k).toNat := by decide
  exact this b k h

/-- A palette mode reads its index and then looks the colour up. -/
theorem PaletteIndex.pixel {i : Instr} {s : State} {index : Nat} (h : PaletteIndex i s index) :
    ∃ pixel, exec i s = renderPixel pixel s ∧ ∀ k, pixel (pixelBase s) (pixelCol s) s k = palColour index s k := by
  rcases h with ⟨rfl, b, hb, rfl⟩ | ⟨rfl, b, hb, rfl⟩ | ⟨rfl, b, hb, rfl⟩
  · refine ⟨pixelP1, rfl, fun k => ?_⟩
    rw [pixelP1]
    have := hb.read (i := 0) (by omega) (c := .B_SRC_BOUNDS)
      (k := fun b => palColour ((b.toNat >>> (7 - pixelCol s % 8)) % 2) s k)
    rw [Nat.add_zero] at this
    rw [this, bit_getMsbD _ _ (by omega)]
  · refine ⟨pixelP4, rfl, fun k => ?_⟩
    exact hb.read (i := 0) (by omega) (c := .B_SRC_BOUNDS)
      (k := fun b => palColour (if pixelCol s % 2 = 0 then b.toNat / 16 else b.toNat % 16) s k)
  · refine ⟨pixelP8, rfl, fun k => ?_⟩
    exact hb.read (i := 0) (by omega) (c := .B_SRC_BOUNDS)
      (k := fun b => palColour b.toNat s k)

/-- The table of rule R166, entry by entry. -/
theorem orOnes_get (c : Fin 32) : Expansion.orOnes[c] = trunc8 (8 * c.val + 7) := by
  revert c; decide

/-- The table of the other reading of conflict C2, entry by entry. -/
theorem replicate_get (c : Fin 32) : Expansion.replicate[c] = trunc8 (8 * c.val + c.val / 4) := by
  revert c; decide

theorem channel_eq (s : State) (raw : Nat) (mask : Word) (d : Byte) :
    channel s.cfg.BF_PROD_BITS raw mask d = if mask ≠ 0 then scaled s raw mask else d := by
  by_cases h : mask = 0
  · simp [channel, h]
  · rw [channel, if_neg h, if_pos h, scaled]
    unfold bfscale
    cases s.cfg.BF_PROD_BITS <;> simp

theorem alphaChannel_eq (s : State) (raw : Nat) : alphaChannel s raw = scaledAlpha s raw := by
  rw [alphaChannel, scaledAlpha]
  rw [channel_eq]
  by_cases h : s.bmp.BMP_HAS_AMASK.getLsbD 0 = true
  · rw [if_pos h]
    by_cases h2 : s.bmp.BMP_MASK_A ≠ 0
    · rw [if_pos h2, if_pos ⟨h, h2⟩]
    · rw [if_neg h2, if_neg (fun x => h2 x.2)]
  · rw [if_neg h, if_neg (fun x => h x.1)]

end Sys2Proof.Machine
end

