-- ==== Sys2Proof/Laws/Encode.lean ====
section
/-! SUPPORT. The encodings: little-endian and big-endian byte strings, the bits of a code's window, and the conditions of
`CodeCtx.ok` as a proposition. -/

namespace Sys2Proof

/-! ### Little-endian fields -/

@[simp] theorem leBytes_length (m v : Nat) : (leBytes m v).length = m := by
  induction m generalizing v with
  | zero => rfl
  | succ m ih => simp [leBytes, ih]

/-- A field reads back as the number it was written from. -/
theorem leNat_leBytes (m v : Nat) : leNat (leBytes m v) = v % 256 ^ m := by
  induction m generalizing v with
  | zero => simp [leBytes, leNat, Nat.mod_one]
  | succ m ih =>
    simp only [leBytes, leNat, ih, BitVec.toNat_ofNat]
    rw [show (2 : Nat) ^ 8 = 256 from rfl, pow_succ', Nat.mod_mul]

/-- A byte string is the little-endian bytes of the number it reads as. -/
theorem leBytes_leNat (bs : List Byte) : leBytes bs.length (leNat bs) = bs := by
  induction bs with
  | nil => rfl
  | cons b bs ih =>
    have hb := b.isLt
    have h1 : trunc8 (b.toNat + 256 * leNat bs) = b := by
      apply BitVec.eq_of_toNat_eq
      simp only [BitVec.toNat_ofNat]
      omega
    have h2 : (b.toNat + 256 * leNat bs) / 256 = leNat bs := by omega
    simp only [List.length_cons, leNat, leBytes, h1, h2, ih]

theorem leNat_lt (bs : List Byte) : leNat bs < 256 ^ bs.length := by
  induction bs with
  | nil => simp [leNat]
  | cons b bs ih =>
    have hb := b.isLt
    simp only [leNat, List.length_cons, pow_succ']
    omega

/-- A command word reads back. -/
theorem wordField_encodeWord (c : Word) : wordField (encodeWord c.toNat) 0 = c := by
  have hl : (encodeWord c.toNat).take 4 = encodeWord c.toNat := List.take_of_length_le (by simp [encodeWord])
  have hc := c.isLt
  rw [wordField, Nat.mul_zero, List.drop_zero, hl, encodeWord, leNat_leBytes, Nat.mod_eq_of_lt (by omega)]
  exact BitVec.eq_of_toNat_eq (by simp)

/-- The five fields of a mode's register image read back. -/
theorem wordField_encodeMode (a b c d e : Word) (k : Nat) :
    wordField (encodeMode a.toNat b.toNat c.toNat d.toNat e.toNat) k =
      if k = 0 then a else if k = 1 then b else if k = 2 then c else if k = 3 then d else if k = 4 then e else 0 := by
  have rd : ∀ x : Word, trunc32 (leNat (leBytes 4 x.toNat)) = x := fun x => by
    have hx := x.isLt
    rw [leNat_leBytes, Nat.mod_eq_of_lt (by omega)]
    exact BitVec.eq_of_toNat_eq (by simp)
  have sp : ∀ (v : Nat), ∃ p q r s, leBytes 4 v = [p, q, r, s] := fun v => ⟨_, _, _, _, rfl⟩
  obtain ⟨a0, a1, a2, a3, ha⟩ := sp a.toNat
  obtain ⟨b0, b1, b2, b3, hb⟩ := sp b.toNat
  obtain ⟨c0, c1, c2, c3, hc⟩ := sp c.toNat
  obtain ⟨d0, d1, d2, d3, hd⟩ := sp d.toNat
  obtain ⟨e0, e1, e2, e3, he⟩ := sp e.toNat
  have ra := rd a
  have rb := rd b
  have rc := rd c
  have rd' := rd d
  have re := rd e
  rw [ha] at ra
  rw [hb] at rb
  rw [hc] at rc
  rw [hd] at rd'
  rw [he] at re
  simp only [wordField, encodeMode, ha, hb, hc, hd, he]
  match k with
  | 0 => simpa using ra
  | 1 => simpa using rb
  | 2 => simpa using rc
  | 3 => simpa using rd'
  | 4 => simpa using re
  | k + 5 =>
    rw [List.drop_eq_nil_of_le (by simp; omega)]
    simp [leNat]

@[simp] theorem encodeMode_length (a b c d e : Nat) : (encodeMode a b c d e).length = 20 := by simp [encodeMode]

/-! ### Code windows -/

@[simp] theorem beBytes_length (m v : Nat) : (beBytes m v).length = m := by
  induction m with
  | zero => rfl
  | succ m ih => simp [beBytes, ih]

theorem beBytes_getD {m v k : Nat} (h : k < m) : (beBytes m v).getD k 0 = trunc8 (v / 256 ^ (m - 1 - k)) := by
  induction m generalizing k with
  | zero => omega
  | succ m ih =>
    cases k with
    | zero => simp [beBytes]
    | succ k =>
      simp only [beBytes, List.getD_cons_succ]
      rw [ih (by omega), show m + 1 - 1 - (k + 1) = m - 1 - k by omega]

/-- Bit `k` of a window, counted from its first, is the matching bit of the number the window spells. -/
theorem streamBit_beBytes {m v k : Nat} (h : k < 8 * m) :
    streamBit (beBytes m v) k = v / 2 ^ (8 * m - 1 - k) % 2 := by
  have hq : k / 8 < m := by omega
  rw [streamBit, beBytes_getD hq, BitVec.toNat_ofNat, Nat.shiftRight_eq_div_pow,
    show (256 : Nat) = 2 ^ 8 from rfl, ← pow_mul]
  obtain ⟨q, r, rfl, hr⟩ : ∃ q r, k = 8 * q + r ∧ r < 8 := ⟨k / 8, k % 8, by omega, by omega⟩
  have e1 : (8 * q + r) / 8 = q := by omega
  have e2 : (8 * q + r) % 8 = r := by omega
  have e3 : 8 * m - 1 - (8 * q + r) = 8 * (m - 1 - q) + (7 - r) := by omega
  rw [e1, e2, e3, pow_add, ← Nat.div_div_eq_div_mul]
  generalize v / 2 ^ (8 * (m - 1 - q)) = u
  interval_cases r <;> simp <;> omega

theorem readBitsMSB_lt (bs : List Byte) (p w : Nat) : readBitsMSB bs p w < 2 ^ w := by
  induction w with
  | zero => simp [readBitsMSB]
  | succ w ih =>
    have : streamBit bs (p + w) < 2 := Nat.mod_lt _ (by decide)
    simp only [readBitsMSB, pow_succ]
    omega

/-- A run of bits of a window is the slice of the number the window spells. -/
theorem readBitsMSB_beBytes {m v p w : Nat} (h : p + w ≤ 8 * m) :
    readBitsMSB (beBytes m v) p w = v / 2 ^ (8 * m - (p + w)) % 2 ^ w := by
  induction w with
  | zero => simp [readBitsMSB, Nat.mod_one]
  | succ w ih =>
    rw [readBitsMSB, ih (by omega), streamBit_beBytes (by omega)]
    have e : 8 * m - (p + w) = 8 * m - (p + (w + 1)) + 1 := by omega
    rw [e, show 8 * m - 1 - (p + w) = 8 * m - (p + (w + 1)) by omega, pow_succ 2 (8 * m - (p + (w + 1))),
      ← Nat.div_div_eq_div_mul]
    generalize v / 2 ^ (8 * m - (p + (w + 1))) = u
    rw [pow_succ' 2 w, Nat.mod_mul]
    omega

/-- The code packed into its window is the code read from it. -/
theorem readBitsMSB_encode {c : CodeCtx} {v : Nat} (hv : v < 2 ^ c.w) :
    readBitsMSB (beBytes c.windowLen (v * 2 ^ (8 * c.windowLen - (c.off + c.w)))) c.off c.w = v := by
  have hl : c.off + c.w ≤ 8 * c.windowLen := by simp only [CodeCtx.windowLen]; omega
  rw [readBitsMSB_beBytes hl, Nat.mul_div_cancel _ (Nat.two_pow_pos _), Nat.mod_eq_of_lt hv]

theorem CodeCtx.ok_iff (c : CodeCtx) :
    c.ok = true ↔ 2 ≤ c.n ∧ c.n ≤ 8 ∧ c.n + 1 ≤ c.w ∧ 2 ^ c.n + 2 ≤ c.next ∧ c.next < 2 ^ c.w ∧ c.off < 8 := by
  simp only [CodeCtx.ok, Bool.and_eq_true, decide_eq_true_eq]
  simp only [CodeCtx.clear, NMIN, NMAX, and_assoc]

theorem Site.isCode_iff (p : CodeCtx → Bool) (site : Site) :
    site.isCode p = true ↔ ∃ c, site = .code c ∧ c.ok = true ∧ p c = true := by
  cases site <;> simp [Site.isCode]

/-- A code that is no control code, at the width in force, is below the bound its class needs. -/
theorem CodeCtx.controls_lt {c : CodeCtx} (h : c.ok = true) : c.clear < 2 ^ c.w ∧ c.eoi < 2 ^ c.w ∧ c.next < 2 ^ c.w := by
  rw [CodeCtx.ok_iff] at h
  simp only [CodeCtx.clear, CodeCtx.eoi]
  omega

namespace Machine

/-! ### The number of a code as a sum of its bits -/

theorem streamValue_succ (f : Nat → Byte) (p w : Nat) :
    streamValue f p (w + 1) = 2 * streamValue f p w + ((f ((p + w) / 8)).getMsbD ((p + w) % 8)).toNat := by
  simp only [streamValue, List.range_succ, List.map_append, List.sum_append, List.map_cons, List.map_nil, List.sum_cons,
    List.sum_nil, Nat.add_sub_cancel, Nat.sub_self, pow_zero, Nat.mul_one, Nat.add_zero]
  congr 1
  rw [← List.sum_map_mul_left]
  refine congrArg List.sum (List.map_congr_left fun i hi => ?_)
  have hi := List.mem_range.1 hi
  rw [show w - i = (w - 1 - i) + 1 by omega, pow_succ]
  ring

theorem streamValue_congr {f g : Nat → Byte} {p w : Nat} (h : ∀ a, p / 8 ≤ a → 8 * a < p + w → f a = g a) :
    streamValue f p w = streamValue g p w := by
  simp only [streamValue]
  refine congrArg List.sum (List.map_congr_left fun i hi => ?_)
  have hi := List.mem_range.1 hi
  rw [h _ (by omega) (by omega)]

/-- The value does not change when whole bytes before the code are dropped. -/
theorem streamValue_shift (f : Nat → Byte) (p w : Nat) :
    streamValue (fun a => f (p / 8 + a)) (p % 8) w = streamValue f p w := by
  simp only [streamValue]
  refine congrArg List.sum (List.map_congr_left fun i _ => ?_)
  rw [show p / 8 + (p % 8 + i) / 8 = (p + i) / 8 by omega, show (p % 8 + i) % 8 = (p + i) % 8 by omega]

/-- `readBitsMSB` is rule R66's number. -/
theorem readBitsMSB_eq (bs : List Byte) (p w : Nat) : readBitsMSB bs p w = streamValue (fun a => bs.getD a 0) p w := by
  induction w with
  | zero => rfl
  | succ w ih =>
    rw [readBitsMSB, streamValue_succ, ih]
    congr 1
    simp only [streamBit]
    generalize bs.getD ((p+w)/8) 0 = b
    generalize hk : (p+w)%8 = k
    have hk : k < 8 := by omega
    simp only [BitVec.getMsbD, hk, decide_true, Bool.true_and]
    rw [BitVec.getLsbD, Nat.testBit, Nat.one_and_eq_mod_two, Nat.shiftRight_eq_div_pow]
    rcases Nat.mod_two_eq_zero_or_one (b.toNat / 2 ^ (8 - 1 - k)) with h | h <;> simp [h]

end Machine

end Sys2Proof
end

