-- ==== Sys2Proof/Laws/Flags.lean ====
section
/-! SUPPORT. `STATUS` bit by bit (rule R22), and the kind of each cause (rule R261). -/

namespace Sys2Proof.Machine

theorem statusBits_getLsbD (f : BitVec 4) (e d c b : Bool) (a : BitVec 2) (k : Nat) :
    (0#20 ++ f ++ 0#1 ++ BitVec.ofBool e ++ BitVec.ofBool d ++ BitVec.ofBool c ++ BitVec.ofBool b ++ 0#1 ++ a).getLsbD k =
      if k < 2 then a.getLsbD k
      else if k = 3 then b else if k = 4 then c else if k = 5 then d
      else if k = 6 then e else if 8 ≤ k ∧ k < 12 then f.getLsbD (k - 8) else false := by
  simp only [BitVec.getLsbD_append, BitVec.getLsbD_ofBool, BitVec.getLsbD_zero]
  by_cases h : k < 12
  · interval_cases k <;> simp
  · simp (disch := omega) only [if_neg]

/-- Bit `k` of `STATUS`. -/
theorem Status.word_bit (st : Status) (k : Nat) :
    st.word.getLsbD k =
      if k < 2 then st.STATE.code.getLsbD k
      else if k = 3 then st.STICKY_FAULT else if k = 4 then st.GIF_READY else if k = 5 then st.MULTIFRAME
      else if k = 6 then st.EOI_SEEN else if 8 ≤ k ∧ k < 12 then st.LAST_CMD.getLsbD (k - 8) else false :=
  statusBits_getLsbD _ _ _ _ _ _ k

/-- Bits `[1:0]` of `STATUS`. -/
theorem Status.word_state (st : Status) : st.word.extractLsb' 0 2 = st.STATE.code := by
  apply BitVec.eq_of_getLsbD_eq
  intro i hi
  rw [BitVec.getLsbD_extractLsb', Nat.zero_add, Status.word_bit, if_pos hi, decide_eq_true hi, Bool.true_and]

/-- Bits `[11:8]` of `STATUS`. -/
theorem Status.word_lastCmd (st : Status) : st.word.extractLsb' 8 4 = st.LAST_CMD := by
  apply BitVec.eq_of_getLsbD_eq
  intro i hi
  rw [BitVec.getLsbD_extractLsb', Status.word_bit, decide_eq_true hi, Bool.true_and]
  simp (disch := omega) only [if_neg, if_pos, Nat.add_sub_cancel_left]

/-- A running command is in some phase. -/
theorem State.busy_phase {s : State} (hb : s.busy = true) : ∃ ph, s.status.STATE = .busy ph := by
  rw [State.busy] at hb
  cases hs : s.status.STATE with
  | busy ph => exact ⟨ph, rfl⟩
  | _ => rw [hs] at hb; cases hb

/-- What `STATUS` shows while `BUSY` is `BUSY` and the fields of before the command, whatever the phase. -/
theorem State.statusWhileBusy_eq {s : State} (hb : s.busy = true) :
    s.statusWhileBusy = { s.statusBefore with STATE := .busy .start }.word := by
  obtain ⟨ph, hp⟩ := State.busy_phase hb
  rw [State.statusWhileBusy, hp]
  rfl

/-- No cause has the kind "none". -/
theorem Cause.kind_code_ne (c : Cause) : c.kind.code ≠ 0 := by cases c <;> decide

end Sys2Proof.Machine
end

