-- ==== Sys2Proof/Laws/Step.lean ====
section
/-! SUPPORT. What a step is, said once: the turn it takes, and the instruction it runs at each site. -/

namespace Sys2Proof.Machine

/-- What a step makes of what its fetch delivers. -/
def ran : Fetched → Out
  | .effect o => o
  | .instr site bs t =>
    match decode site bs with
    | .error e => .refused (.undecodable e)
    | .ok i => exec i t

@[simp] theorem ran_effect (o : Out) : ran (.effect o) = o := rfl

theorem step_eq (s : State) : step s = ran (fetch s) := rfl

theorem decode_command (c : Word) : decode .command (encodeWord c.toNat) = .ok (decodeCommand c) := by
  rw [decode, if_pos (by simp [encodeWord, Site.byteLen])]
  show Except.ok (decodeCommand (wordField (encodeWord c.toNat) 0)) = _
  rw [wordField_encodeWord]

theorem decode_code {c : CodeCtx} {bs : List Byte} (h : bs.length = c.windowLen) :
    decode (.code c) bs = .ok (decodeCode c (readBitsMSB bs c.off c.w)) := by
  rw [decode, if_pos (show bs.length = (Site.code c).byteLen from h)]
  rfl

theorem decode_mode (a b c d e : Word) :
    decode .mode (encodeMode a.toNat b.toNat c.toNat d.toNat e.toNat) = .ok (decodeMode a b c d e) := by
  rw [decode, if_pos (by simp [Site.byteLen])]
  show Except.ok (decodeMode (wordField _ 0) (wordField _ 1) (wordField _ 2) (wordField _ 3) (wordField _ 4)) = _
  simp only [wordField_encodeMode]
  rfl

@[simp] theorem ran_command (c : Word) (t : State) :
    ran (.instr .command (encodeWord c.toNat) t) = exec (decodeCommand c) t := by
  rw [ran, decode_command]

@[simp] theorem ran_separator (b : Byte) (t : State) : ran (.instr .separator [b] t) = exec (decodeSeparator b) t := rfl

@[simp] theorem ran_length (b : Byte) (t : State) : ran (.instr .length [b] t) = exec (decodeLength b) t := rfl

@[simp] theorem ran_mode (s t : State) : ran (.instr .mode (modeBytes s) t) =
    exec (decodeMode s.bmp.BMP_BPP s.bmp.BMP_COMP s.bmp.BMP_MASK_R s.bmp.BMP_MASK_G s.bmp.BMP_MASK_B) t := by
  rw [ran, modeBytes, decode_mode]

theorem ran_code {c : CodeCtx} {bs : List Byte} (h : bs.length = c.windowLen) (t : State) :
    ran (.instr (.code c) bs t) = exec (decodeCode c (readBitsMSB bs c.off c.w)) t := by
  rw [ran, decode_code h]

/-! ### Turns -/

theorem busy_of_state {s : State} {ph : Phase} (h : s.status.STATE = .busy ph) : s.busy = true := by
  rw [State.busy, h]; rfl

/-- At a unit's turn, the step is the running unit's. -/
theorem UnitTurn.step_eq {s u : State} (h : UnitTurn s u) : step s = ran (fetchRunning u) := by
  rcases h with ⟨h, rfl⟩ | ⟨rest, h, rfl⟩ | ⟨rest, h, hb, rfl⟩
  · rw [Machine.step_eq, fetch, h]
  · rw [Machine.step_eq, fetch, h]
  · rw [Machine.step_eq, fetch, h]
    simp only [hb, if_true]

/-- The state a unit's turn is taken in differs from `s` in the host's script at most. -/
theorem UnitTurn.eq {s u : State} (h : UnitTurn s u) : u = { s with host := u.host } := by
  rcases h with ⟨-, rfl⟩ | ⟨rest, -, rfl⟩ | ⟨rest, -, -, rfl⟩ <;> rfl

theorem UnitTurn.state {s u : State} (h : UnitTurn s u) : u.status = s.status := by rw [h.eq]

theorem fetchRunning_busy {s : State} {ph : Phase} (h : s.status.STATE = .busy ph) : fetchRunning s = fetchUnit ph s := by
  rw [fetchRunning, h]

theorem fetchRunning_waits {s : State} (h : s.busy = false) : fetchRunning s = .effect (.next s) := by
  rw [fetchRunning]
  rw [State.busy] at h
  cases hs : s.status.STATE <;> first | rfl | simp [hs, RunState.isBusy] at h

/-- `GSC`'s fetch: past the end of `SRC` it faults, else it delivers the byte at the cursor. -/
theorem fetchGsc_short {site : Site} {s : State} (h : s.SRC_LEN.toNat ≤ s.gscPos) :
    fetchGsc site s = .effect (.next (faultEntry .G_SHORT s.gscPos s)) := by
  rw [fetchGsc, if_pos h]; rfl

theorem fetchGsc_unwritten {site : Site} {s : State} (h : s.gscPos < s.SRC_LEN.toNat)
    (hb : s.byteAt .src s.gscPos = none) : fetchGsc site s = .effect (.refused (.unwrittenByte .src s.gscPos)) := by
  rw [fetchGsc, if_neg (by omega), hb]

theorem fetchGsc_ok {site : Site} {s : State} {b : Byte} (h : s.gscPos < s.SRC_LEN.toNat)
    (hb : s.byteAt .src s.gscPos = some b) : fetchGsc site s = .instr site [b] s := by
  rw [fetchGsc, if_neg (by omega), hb]

/-! ### Runs -/

@[simp] theorem core_run_zero (s : State) : core.run 0 s = (.next s : Out) := rfl

theorem run_succ (M : Host.Core) (k : Nat) (s : M.State) : M.run (k + 1) s =
    (match M.step s with
      | .next t => M.run k t
      | .fault r => .fault r
      | .refused r => .refused r) := rfl

theorem core_run_succ (k : Nat) (s : State) : core.run (k + 1) s =
    (match step s with
      | .next t => core.run k t
      | .fault r => .fault r
      | .refused r => .refused r : Out) := by
  refine (run_succ core k s).trans ?_
  cases h : step s with
  | next t => rw [show core.step s = _ from h]
  | fault r => rw [show core.step s = _ from h]; rfl
  | refused r => rw [show core.step s = _ from h]; rfl

theorem core_run_next {k : Nat} {s t : State} (h : step s = .next t) : core.run (k + 1) s = core.run k t := by
  rw [core_run_succ, h]

/-- A run that ends in a state took each of its steps to a state. -/
theorem core_run_succ_eq_next {k : Nat} {s t : State} (h : core.run (k + 1) s = (.next t : Out)) :
    ∃ u, step s = .next u ∧ core.run k u = (.next t : Out) := by
  rw [core_run_succ] at h
  cases hs : step s with
  | next u => exact ⟨u, rfl, by rw [hs] at h; exact h⟩
  | fault r => rw [hs] at h; simp at h
  | refused r => rw [hs] at h; simp at h

/-- A machine that waits waits on. -/
theorem core_run_waits {s : State} (hh : s.host = []) (hb : s.busy = false) (k : Nat) : core.run k s = (.next s : Out) := by
  induction k with
  | zero => rfl
  | succ k ih =>
    rw [core_run_next (t := s) ?_, ih]
    rw [step_eq, fetch, hh]
    simp only [fetchRunning_waits hb, ran_effect]

/-- What the host reads in `STATUS` while a command runs (rules R75, R132). -/
theorem step_readStatus {s : State} {rest : List HostAction} (hb : s.busy = true) (hh : s.host = .readReg 1 :: rest) :
    step s = .next { s with host := rest, hostData := s.statusWhileBusy } := by
  have hb' : State.busy { s with host := rest } = true := hb
  rw [step_eq, fetch, hh]
  simp only [hostReadReg, hb', if_true, ran_effect]
  rfl

/-- The step that takes a write to `CMD` runs the command, with `STATUS` kept as it stood (rule R132). -/
theorem step_command {s : State} {c : Word} {rest : List HostAction} (hb : s.busy = false)
    (hh : s.host = .writeReg 0 c :: rest) :
    step s = exec (decodeCommand c) { s with host := rest, statusBefore := s.status } := by
  rw [step_eq, fetch, hh]
  simp only [hostWriteReg]
  rw [if_neg (by rw [show State.busy { s with host := rest } = false from hb]; simp)]
  simp only [if_true]
  rw [ran_command]
  rfl

end Sys2Proof.Machine
end

