-- ==== Sys2Proof/Laws/Inv.lean ====
section
/-! SUPPORT. The parts of the invariant, and what one element of each unit answers from a state that meets it: a next state that
meets it and is nearer the end, or a refusal that names an unwritten byte. -/

namespace Sys2Proof.Machine

/-! ### The part of the invariant that does not speak of the running unit -/

/-- What `Inv` says beside the fault record and the running unit. -/
structure Base (s : State) : Prop where
  cfg : s.cfg.admissible = true
  mem : memOk s
  multi : s.status.MULTIFRAME = true ↔ 2 ≤ s.gif.GIF_FRAME_COUNT.toNat
  ready : s.status.GIF_READY = true →
    s.SRC_LEN.toNat ≤ s.cfg.SRC_CAP ∧ s.gif.GIF_SCREEN_W ≠ 0 ∧ s.gif.GIF_SCREEN_H ≠ 0

theorem Inv.base {s : State} (h : Inv s) : Base s := ⟨h.cfg, h.mem, h.status.2.2.1, h.status.2.2.2⟩

/-- Away from `FAULT` the record is clear. -/
theorem Inv.noFault {s : State} (h : Inv s) (hs : s.status.STATE ≠ .fault) : s.fault = Machine.noFault := h.status.2.1 hs

theorem Inv.unitAt {s : State} {r : RunState} (h : Inv s) (hs : s.status.STATE = r) : unitOk s r := hs ▸ h.unit

theorem Base.toFault {s : State} (h : Base s) (c : Cause) (i : Nat) : Inv (faultEntry c i s) :=
  ⟨h.cfg, h.mem, ⟨fun _ => ⟨rfl, c.kind_code_ne⟩, fun hn => absurd rfl hn, h.multi, h.ready⟩, trivial⟩

theorem Base.toDone {s : State} (h : Base s) (hf : s.fault = Machine.noFault) : Inv (stop s) :=
  ⟨h.cfg, h.mem, ⟨fun e => by simp at e, fun _ => hf, h.multi, h.ready⟩, trivial⟩

theorem Base.toBusy {s : State} {ph : Phase} (h : Base s) (hf : s.fault = Machine.noFault) (hs : s.status.STATE = .busy ph)
    (hu : unitOk s (.busy ph)) : Inv s :=
  ⟨h.cfg, h.mem, ⟨fun e => (by rw [hs] at e; cases e), fun _ => hf, h.multi, h.ready⟩, hs.symm ▸ hu⟩

/-- The host's script and last read are no part of the invariant. -/
theorem Inv.setHost {s : State} (h : Inv s) (x : List HostAction) (d : Word) : Inv { s with host := x, hostData := d } :=
  ⟨h.cfg, h.mem, h.status, h.unit⟩

/-- Nor is `STATUS` as it stood before the command. -/
theorem Inv.keepStatus {s : State} (h : Inv s) : Inv s.keepStatus := ⟨h.cfg, h.mem, h.status, h.unit⟩

theorem Base.caps {s : State} (h : Base s) (sp : Space) : 1 ≤ capacity s.cfg sp ∧ capacity s.cfg sp < 2 ^ 32 := by
  have := h.cfg
  simp only [Config.admissible, Config.capOk, Bool.and_eq_true, decide_eq_true_eq] at this
  cases sp <;> simp only [capacity] <;> omega

theorem Base.wmax {s : State} (h : Base s) : 9 ≤ s.cfg.WMAX := by
  have := h.cfg
  simp only [Config.admissible, Bool.and_eq_true, decide_eq_true_eq] at this
  exact this.2

/-- A write within a space keeps the form of every space. -/
theorem spaceOk_writeByte {s : State} {sp sp' : Space} (h : spaceOk s sp') {off : Nat} (ho : off < capacity s.cfg sp) (b : Byte) :
    spaceOk (s.writeByte sp off b) sp' := by
  refine ⟨mem_writeByte_wf h.1 sp off b, fun x hx => ?_⟩
  have hc : (s.writeByte sp off b).cfg = s.cfg := by cases sp <;> rfl
  rw [hc]
  by_cases he : sp' = sp
  · subst he
    have : (s.writeByte sp' off b).mem sp' = Table.set (s.mem sp') off b := by cases sp' <;> rfl
    rw [this] at hx
    rcases Table.mem_set hx with rfl | hx
    · exact ho
    · exact h.2 x hx
  · have : (s.writeByte sp off b).mem sp' = s.mem sp' := by cases sp <;> cases sp' <;> first | rfl | exact absurd rfl he
    rw [this] at hx
    exact h.2 x hx

theorem Base.writeByte {s : State} (h : Base s) {sp : Space} {off : Nat} (ho : off < capacity s.cfg sp) (b : Byte) :
    Base (s.writeByte sp off b) := by
  have hm : memOk (s.writeByte sp off b) := ⟨spaceOk_writeByte h.mem.1 ho b, spaceOk_writeByte h.mem.2.1 ho b,
    spaceOk_writeByte h.mem.2.2.1 ho b, spaceOk_writeByte h.mem.2.2.2 ho b⟩
  cases sp <;> exact ⟨h.cfg, hm, h.multi, h.ready⟩

theorem Base.sinkPut {s : State} (h : Base s) {off : Nat} (ho : off + 4 ≤ s.cfg.SINK_CAP) (px : Cell) : Base (sinkPut off px s) :=
  (((h.writeByte (sp := .sink) (by show _ < s.cfg.SINK_CAP; omega) _).writeByte (sp := .sink)
    (by show _ < s.cfg.SINK_CAP; omega) _).writeByte (sp := .sink) (by show _ < s.cfg.SINK_CAP; omega) _).writeByte (sp := .sink)
    (by show _ < s.cfg.SINK_CAP; omega) _

theorem Base.emitted {s : State} (h : Base s) {bs : List Byte} (ho : s.lzw.LZW_OLEN.toNat + bs.length ≤ s.cfg.OBUF_CAP) :
    Base (emitted bs s) := by
  have hc := (h.caps .obuf).2
  simp only [capacity] at hc
  induction bs generalizing s with
  | nil => exact h
  | cons b bs ih =>
    simp only [List.length_cons] at ho
    have h1 := h.writeByte (sp := .obuf) (off := s.lzw.LZW_OLEN.toNat) (by show _ < s.cfg.OBUF_CAP; omega) b
    have h2 : Base (obufPut b s) := ⟨h1.cfg, h1.mem, h1.multi, h1.ready⟩
    refine ih h2 ?_ hc
    simp only [obufPut_lzw, obufPut_cfg, BitVec.toNat_ofNat]
    omega

/-! ### Progress -/

/-- From `s`, an element went to `t`: the command has ended, or less of it is left and what it reads is still there. -/
structure Progress (s t : State) : Prop where
  host : t.host = s.host
  ended : t.busy = false → t.status.STATE = .done ∨ t.status.STATE = .fault
  runs : t.busy = true → workLeft t < workLeft s ∧ t.SRC_LEN = s.SRC_LEN ∧ t.lzw.LZW_CLEN = s.lzw.LZW_CLEN ∧
    ∀ sp a, (s.byteAt sp a).isSome = true → (t.byteAt sp a).isSome = true

/-- The refusal of an element: a byte it reads has not been written. -/
def Unread (s : State) (r : Refusal) : Prop :=
  ∃ sp a, r = .unwrittenByte sp a ∧ s.byteAt sp a = none ∧
    (sp = .src ∧ a < s.SRC_LEN.toNat ∨ sp = .cbuf ∧ a < s.lzw.LZW_CLEN.toNat)

/-- What an element answers from a state that meets the invariant. -/
abbrev Goes (s : State) (o : Out) : Prop := Answers (fun t => Inv t ∧ Progress s t) (fun _ => False) (Unread s) o

theorem goes_fault {s t : State} (h : Base t) (hh : t.host = s.host) (c : Cause) (i : Nat) :
    Inv (faultEntry c i t) ∧ Progress s (faultEntry c i t) :=
  ⟨h.toFault c i, hh, fun _ => .inr rfl, fun e => by cases e⟩

theorem goes_stop {s t : State} (h : Base t) (hf : t.fault = Machine.noFault) (hh : t.host = s.host) :
    Inv (stop t) ∧ Progress s (stop t) :=
  ⟨h.toDone hf, hh, fun _ => .inl rfl, fun e => by cases e⟩

theorem goes_on {s t : State} {ph : Phase} (h : Base t) (hf : t.fault = Machine.noFault) (hs : t.status.STATE = .busy ph)
    (hu : unitOk t (.busy ph)) (hh : t.host = s.host) (hw : workLeft t < workLeft s) (hl : t.SRC_LEN = s.SRC_LEN)
    (hc : t.lzw.LZW_CLEN = s.lzw.LZW_CLEN) (hb : ∀ sp a, (s.byteAt sp a).isSome = true → (t.byteAt sp a).isSome = true) :
    Inv t ∧ Progress s t :=
  ⟨h.toBusy hf hs hu, hh, fun e => (by rw [busy_of_state hs] at e; cases e), fun _ => ⟨hw, hl, hc, hb⟩⟩

theorem unread_src {s t : State} (hs : t.src = s.src) (hl : t.SRC_LEN = s.SRC_LEN) {i : Nat} (h1 : i < t.SRC_LEN.toNat)
    (h2 : t.byteAt .src i = none) : Unread s (.unwrittenByte .src i) :=
  ⟨.src, i, rfl, by simpa only [State.byteAt, State.mem, hs] using h2, .inl ⟨rfl, by rw [← hl]; exact h1⟩⟩

/-! ### `GSC` in the scan -/

theorem image_goes {s : State} (h : Base s) (hf : s.fault = Machine.noFault) (hs : s.status.STATE = .busy .scan) (hu : scanOk s) :
    Goes s (exec .gifImage s) := by
  have hw : workLeft s = s.SRC_LEN.toNat - s.gscPos + 1 := by rw [workLeft, hs]
  refine gifImage_answers (fun i f0 => goes_fault (s := s) (t := { s with frame0 := f0 }) ⟨h.cfg, h.mem, h.multi, h.ready⟩ rfl _ i)
    (fun _ => unread_src rfl rfl) fun f0 q hq0 hq => ?_
  refine goes_on ⟨h.cfg, h.mem, h.multi, h.ready⟩ hf rfl ?_ rfl ?_ rfl rfl ?_
  · obtain ⟨a, b, c, d, e, f, g⟩ := hu
    exact ⟨a, b, by show 13 ≤ q + 1; omega, by show s.gif.GIF_FRAME_COUNT.toNat ≤ q + 1; omega, f, g⟩
  · rw [hw]
    show s.SRC_LEN.toNat - (q + 1) + 1 < _
    omega
  · intro sp a hb
    cases sp <;> exact hb

theorem trailer_goes {s : State} (h : Base s) (hf : s.fault = Machine.noFault) (hu : scanOk s) : Goes s (exec .gifTrailer s) :=
  goes_stop ⟨h.cfg, h.mem, h.multi, fun _ => ⟨hu.1, hu.2.2.2.2.2.1, hu.2.2.2.2.2.2⟩⟩ hf rfl

theorem skip_goes {s : State} (h : Base s) (hf : s.fault = Machine.noFault) (hs : s.status.STATE = .busy .skip) (hu : skipOk s)
    (hp : s.gscPos < s.SRC_LEN.toNat) (len : Byte) : Goes s (exec (.gifSubblock len) s) := by
  have hw : workLeft s = s.SRC_LEN.toNat - s.gscPos + 1 := by rw [workLeft, hs]
  obtain ⟨a, b, c, d, e, f⟩ := hu
  show Goes s (execGifSubblock len s)
  rw [execGifSubblock, if_neg (by simp [isConcat, hs])]
  refine goes_on ⟨h.cfg, h.mem, h.multi, h.ready⟩ hf hs ⟨a, b, ?_, ?_, e, f⟩ rfl ?_ rfl rfl ?_
  · show 13 ≤ s.gscPos + 1 + len.toNat; omega
  · show s.gif.GIF_FRAME_COUNT.toNat ≤ s.gscPos + 1 + len.toNat; omega
  · rw [hw, workLeft]
    simp only [hs]
    omega
  · intro sp a hb
    cases sp <;> exact hb

theorem frameEnd_goes {s : State} (h : Base s) (hf : s.fault = Machine.noFault) (hs : s.status.STATE = .busy .skip) (hu : skipOk s)
    (hp : s.gscPos < s.SRC_LEN.toNat) : Goes s (exec .gifTerminator s) := by
  have hw : workLeft s = s.SRC_LEN.toNat - s.gscPos + 1 := by rw [workLeft, hs]
  obtain ⟨a, b, c, d, e, f⟩ := hu
  have hl := s.SRC_LEN.isLt
  have hc : (trunc32 (s.gif.GIF_FRAME_COUNT.toNat + 1)).toNat = s.gif.GIF_FRAME_COUNT.toNat + 1 := by
    rw [BitVec.toNat_ofNat]; exact Nat.mod_eq_of_lt (by omega)
  show Goes s (execGifTerminator s)
  rw [execGifTerminator, if_neg (by simp [isConcat, hs])]
  simp only [frameEnd]
  have hm := h.multi
  split
  · rename_i h2
    have h3 := congrArg BitVec.toNat h2
    simp only [hc] at h3
    refine goes_on ⟨h.cfg, h.mem, ?_, h.ready⟩ hf rfl ⟨a, b, ?_, rfl, ?_, e, f⟩ rfl ?_ rfl rfl ?_
    · refine ⟨fun _ => ?_, fun _ => rfl⟩
      show 2 ≤ (trunc32 (s.gif.GIF_FRAME_COUNT.toNat + 1)).toNat
      rw [hc, h3]; decide
    · show 13 ≤ s.gscPos + 1; omega
    · show (trunc32 (s.gif.GIF_FRAME_COUNT.toNat + 1)).toNat ≤ s.gscPos + 1; omega
    · rw [hw]
      show s.SRC_LEN.toNat - (s.gscPos + 1) + 1 < _
      omega
    · intro sp a hb
      cases sp <;> exact hb
  · rename_i h2
    have h3 : s.gif.GIF_FRAME_COUNT.toNat + 1 ≠ 2 := fun e => h2 (BitVec.eq_of_toNat_eq (by rw [show BitVec.toNat _ = _ from hc, e]; rfl))
    refine goes_on ⟨h.cfg, h.mem, ?_, h.ready⟩ hf rfl ⟨a, b, ?_, rfl, ?_, e, f⟩ rfl ?_ rfl rfl ?_
    · show s.status.MULTIFRAME = true ↔ 2 ≤ (trunc32 (s.gif.GIF_FRAME_COUNT.toNat + 1)).toNat
      rw [hc, hm]; omega
    · show 13 ≤ s.gscPos + 1; omega
    · show (trunc32 (s.gif.GIF_FRAME_COUNT.toNat + 1)).toNat ≤ s.gscPos + 1; omega
    · rw [hw]
      show s.SRC_LEN.toNat - (s.gscPos + 1) + 1 < _
      omega
    · intro sp a hb
      cases sp <;> exact hb

/-! ### `GSC` in the concatenation -/

/-- What copying data bytes keeps. -/
structure Copies (s t : State) : Prop where
  base : Base t
  frame : t = { s with cbuf := t.cbuf }
  grows : ∀ a, (s.byteAt .cbuf a).isSome = true → (t.byteAt .cbuf a).isSome = true

theorem concat_goes {s : State} (h : Base s) (hf : s.fault = Machine.noFault) (hs : s.status.STATE = .busy .concat)
    (hu : concatOk s) (hp : s.gscPos < s.SRC_LEN.toNat) (len : Byte) : Goes s (exec (.gifSubblock len) s) := by
  have hw : workLeft s = s.SRC_LEN.toNat - s.gscPos + 1 := by rw [workLeft, hs]
  obtain ⟨a, b, c, d, e, f⟩ := hu
  show Goes s (execGifSubblock len s)
  rw [execGifSubblock, if_pos (by simp [isConcat, hs])]
  refine copyData_answers (J := Copies s) ⟨h, rfl, fun _ h => h⟩ ?_ (fun c i t ht => goes_fault ht.base (by rw [ht.frame]) c i)
    (fun i t ht => unread_src (by rw [ht.frame]) (by rw [ht.frame])) fun t ht hm _ _ => ?_
  · intro off b t ht ho
    refine ⟨ht.base.writeByte (sp := .cbuf) ho b, ?_, fun a ha => ?_⟩
    · rw [ht.frame]; rfl
    · rw [byteAt_writeByte]
      split
      · rfl
      · exact ht.grows a ha
  · have ht1 := ht.frame
    have hc := ht.base
    have hgr := ht.grows
    generalize hcb : t.cbuf = cb at ht1
    subst ht1
    refine goes_on ⟨hc.cfg, hc.mem, hc.multi, hc.ready⟩ hf rfl ⟨a, b, c, rfl, ?_, ?_⟩ rfl ?_ rfl rfl ?_
    · show s.gscCount + len.toNat ≤ s.gscPos + 1 + len.toNat; omega
    · show s.gscCount + len.toNat ≤ s.cfg.CBUF_CAP
      rcases hm with hm | hm
      · omega
      · exact hm
    · rw [hw]
      show s.SRC_LEN.toNat - (s.gscPos + 1 + len.toNat) + 1 < _
      omega
    · intro sp a hb
      cases sp <;> first | exact hb | exact hgr a hb

theorem concatEnd_goes {s : State} (h : Base s) (hf : s.fault = Machine.noFault) (hs : s.status.STATE = .busy .concat) :
    Goes s (exec .gifTerminator s) := by
  show Goes s (execGifTerminator s)
  rw [execGifTerminator, if_pos (by simp [isConcat, hs])]
  exact goes_stop ⟨h.cfg, h.mem, h.multi, h.ready⟩ hf rfl

/-- A byte at `GSC`'s cursor, or the end of the command. -/
theorem gsc_goes {site : Site} {s : State} (h : Base s)
    (hk : ∀ b, s.gscPos < s.SRC_LEN.toNat → Goes s (ran (.instr site [b] s))) : Goes s (ran (fetchGsc site s)) := by
  by_cases hp : s.gscPos < s.SRC_LEN.toNat
  · cases hb : s.byteAt .src s.gscPos with
    | none =>
      rw [fetchGsc, if_neg (by omega), hb]
      exact unread_src rfl rfl hp hb
    | some b => rw [fetchGsc_ok hp hb]; exact hk b hp
  · rw [fetchGsc_short (by omega)]
    exact goes_fault h rfl _ _

/-! ### `BPD` -/

section Pixels

variable {P : State → Prop} {F : Fault → Prop} {R : Refusal → Prop} {s : State} {k : Cell → Out}

theorem palColour_answers {index : Nat} (hf : ∀ c i, P (faultEntry c i s))
    (hr : ∀ i, i < s.SRC_LEN.toNat → s.byteAt .src i = none → R (.unwrittenByte .src i)) (hk : ∀ px, Answers P F R (k px)) :
    Answers P F R (palColour index s k) := by
  unfold palColour
  split
  · exact hf _ _
  · exact srcRead_answers (fun _ => hf _ _) (hr _) fun _ _ _ => srcRead_answers (fun _ => hf _ _) (hr _) fun _ _ _ =>
      srcRead_answers (fun _ => hf _ _) (hr _) fun _ _ _ => hk _

/-- Every mode's pixel: a fault, an unread byte, or a cell. -/
theorem pixel_answers {base col : Nat} (hf : ∀ c i, P (faultEntry c i s))
    (hr : ∀ i, i < s.SRC_LEN.toNat → s.byteAt .src i = none → R (.unwrittenByte .src i)) (hk : ∀ px, Answers P F R (k px))
    {pixel : Nat → Nat → State → (Cell → Out) → Out}
    (hp : pixel ∈ [pixelP1, pixelP4, pixelP8, pixelRgb555, pixelBf16, pixelBgr24, pixelBgra32, pixelBf32]) :
    Answers P F R (pixel base col s k) := by
  simp only [List.mem_cons, List.not_mem_nil, or_false] at hp
  rcases hp with rfl | rfl | rfl | rfl | rfl | rfl | rfl | rfl
  · exact srcRead_answers (fun _ => hf _ _) (hr _) fun _ _ _ => palColour_answers hf hr hk
  · exact srcRead_answers (fun _ => hf _ _) (hr _) fun _ _ _ => palColour_answers hf hr hk
  · exact srcRead_answers (fun _ => hf _ _) (hr _) fun _ _ _ => palColour_answers hf hr hk
  · exact srcRead16_answers (hf _) hr fun _ _ _ => hk _
  · exact srcRead16_answers (hf _) hr fun _ _ _ => hk _
  · exact srcRead_answers (fun _ => hf _ _) (hr _) fun _ _ _ => srcRead_answers (fun _ => hf _ _) (hr _) fun _ _ _ =>
      srcRead_answers (fun _ => hf _ _) (hr _) fun _ _ _ => hk _
  · exact srcRead_answers (fun _ => hf _ _) (hr _) fun _ _ _ => srcRead_answers (fun _ => hf _ _) (hr _) fun _ _ _ =>
      srcRead_answers (fun _ => hf _ _) (hr _) fun _ _ _ => srcRead_answers (fun _ => hf _ _) (hr _) fun _ _ _ => hk _
  · exact srcRead32_answers (hf _) hr fun _ _ => hk _

end Pixels

/-- After a pixel, whatever of `SINK` was written. -/
theorem bmpNext_goes {s t : State} (h : Base t) (ht : t = { s with sink := t.sink }) (hf : s.fault = Machine.noFault)
    (hs : s.status.STATE = .busy .bmp) (hu : bmpOk s) (hg : ∀ a, (s.byteAt .sink a).isSome = true → (t.byteAt .sink a).isSome = true) :
    Goes s (.next (bmpNext s.bmpWork.BMP_ROW.toNat s.bmpWork.BMP_X.toNat t)) := by
  have hw := s.bmp.BMP_WIDTH.isLt
  have hh := s.bmp.BMP_HEIGHT.isLt
  obtain ⟨a, b, c, d, e⟩ := hu
  generalize t.sink = sk at ht
  subst ht
  have hmul : ∀ r < s.bmp.BMP_HEIGHT.toNat,
      r * s.bmp.BMP_WIDTH.toNat + s.bmp.BMP_WIDTH.toNat ≤ s.bmp.BMP_WIDTH.toNat * s.bmp.BMP_HEIGHT.toNat := fun r hr => by
    calc r * s.bmp.BMP_WIDTH.toNat + s.bmp.BMP_WIDTH.toNat = (r + 1) * s.bmp.BMP_WIDTH.toNat := by ring
      _ ≤ s.bmp.BMP_HEIGHT.toNat * s.bmp.BMP_WIDTH.toNat := Nat.mul_le_mul_right _ hr
      _ = _ := Nat.mul_comm _ _
  have hm := hmul _ d
  have hwl : workLeft s = s.bmp.BMP_WIDTH.toNat * s.bmp.BMP_HEIGHT.toNat -
      (s.bmpWork.BMP_ROW.toNat * s.bmp.BMP_WIDTH.toNat + s.bmpWork.BMP_X.toNat) := by rw [workLeft, hs]
  have grows : ∀ (u : State), u.src = s.src → u.cbuf = s.cbuf → u.obuf = s.obuf → u.sink = sk → ∀ sp a,
      (s.byteAt sp a).isSome = true → (u.byteAt sp a).isSome = true := fun u g1 g2 g3 g4 sp x hx => by
    cases sp <;> simp only [State.byteAt, State.mem, g1, g2, g3, g4] at hx ⊢
    all_goals first | exact hx | exact hg x hx
  generalize hr : s.bmpWork.BMP_ROW.toNat = r at *
  generalize hx : s.bmpWork.BMP_X.toNat = x at *
  have tr : ∀ v, v < 2 ^ 32 → (trunc32 v).toNat = v := fun v hv => by rw [BitVec.toNat_ofNat]; exact Nat.mod_eq_of_lt hv
  unfold bmpNext
  split
  · rename_i h1
    have h1' : x + 1 < s.bmp.BMP_WIDTH.toNat := h1
    refine goes_on ⟨h.cfg, h.mem, h.multi, h.ready⟩ hf hs ⟨a, b, ?_, ?_, ?_⟩ rfl ?_ rfl rfl (grows _ rfl rfl rfl rfl)
    · show (trunc32 (x + 1)).toNat < s.bmp.BMP_WIDTH.toNat; rw [tr _ (by omega)]; exact h1'
    · show (trunc32 r).toNat < s.bmp.BMP_HEIGHT.toNat; rw [tr _ (by omega)]; exact d
    · show trunc32 _ = trunc32 (sampleOffset _ (trunc32 r).toNat (trunc32 (x + 1)).toNat)
      rw [tr _ (by omega), tr _ (by omega)]; rfl
    · rw [hwl, workLeft]
      simp only [bmpAt, hs]
      rw [tr _ (by omega), tr _ (by omega)]
      omega
  · rename_i h1
    have h1' : ¬x + 1 < s.bmp.BMP_WIDTH.toNat := h1
    split
    · rename_i h2
      have h2' : r + 1 < s.bmp.BMP_HEIGHT.toNat := h2
      have hm2 := hmul _ h2'
      have hr1 : (r + 1) * s.bmp.BMP_WIDTH.toNat = r * s.bmp.BMP_WIDTH.toNat + s.bmp.BMP_WIDTH.toNat := by ring
      refine goes_on ⟨h.cfg, h.mem, h.multi, h.ready⟩ hf hs ⟨a, b, ?_, ?_, ?_⟩ rfl ?_ rfl rfl (grows _ rfl rfl rfl rfl)
      · show (trunc32 0).toNat < s.bmp.BMP_WIDTH.toNat; rw [tr _ (by omega)]; omega
      · show (trunc32 (r + 1)).toNat < s.bmp.BMP_HEIGHT.toNat; rw [tr _ (by omega)]; exact h2'
      · show trunc32 _ = trunc32 (sampleOffset _ (trunc32 (r + 1)).toNat (trunc32 0).toNat)
        rw [tr _ (by omega), tr _ (by omega)]; rfl
      · rw [hwl, workLeft]
        simp only [bmpAt, hs]
        rw [tr _ (by omega), tr _ (by omega)]
        omega
    · exact goes_stop ⟨h.cfg, h.mem, h.multi, h.ready⟩ hf rfl

theorem renderPixel_goes {s : State} (h : Base s) (hf : s.fault = Machine.noFault) (hs : s.status.STATE = .busy .bmp) (hu : bmpOk s)
    {pixel : Nat → Nat → State → (Cell → Out) → Out}
    (hp : pixel ∈ [pixelP1, pixelP4, pixelP8, pixelRgb555, pixelBf16, pixelBgr24, pixelBgra32, pixelBf32]) :
    Goes s (renderPixel pixel s) := by
  refine pixel_answers (fun _ _ => goes_fault h rfl _ _) (fun _ => unread_src rfl rfl) (fun px => ?_) hp
  split
  · refine sinkWrite_answers (fun _ => goes_fault h rfl _ _) fun ho => ?_
    refine bmpNext_goes (h.sinkPut ho px) rfl hf hs hu fun a ha => ?_
    rw [sinkPut_byteAt]
    repeat' split
    all_goals first | rfl | exact ha
  · exact bmpNext_goes h rfl hf hs hu fun _ ha => ha

/-- The mode registers of a running `BPD` select one of the eight modes. -/
theorem bmp_goes {s : State} (h : Base s) (hf : s.fault = Machine.noFault) (hs : s.status.STATE = .busy .bmp) (hu : bmpOk s) :
    Goes s (exec (decodeMode s.bmp.BMP_BPP s.bmp.BMP_COMP s.bmp.BMP_MASK_R s.bmp.BMP_MASK_G s.bmp.BMP_MASK_B) s) := by
  have hm : modeFault s.bmp.BMP_BPP.toNat s.bmp.BMP_COMP.toNat = none := by
    have := hu.2.1
    rw [bmpStartFault] at this
    split at this
    · cases this
    · assumption
  have ill : ∀ i, decodeMode s.bmp.BMP_BPP s.bmp.BMP_COMP s.bmp.BMP_MASK_R s.bmp.BMP_MASK_G s.bmp.BMP_MASK_B = i →
      i ∈ [.bmpP1, .bmpP4, .bmpP8, .bmpRgb555, .bmpBf16, .bmpBgr24, .bmpBgra32, .bmpBf32] → Goes s (exec i s) := fun i _ hi => by
    simp only [List.mem_cons, List.not_mem_nil, or_false] at hi
    rcases hi with rfl | rfl | rfl | rfl | rfl | rfl | rfl | rfl
    · exact renderPixel_goes h hf hs hu (pixel := pixelP1) (by simp)
    · exact renderPixel_goes h hf hs hu (pixel := pixelP4) (by simp)
    · exact renderPixel_goes h hf hs hu (pixel := pixelP8) (by simp)
    · exact renderPixel_goes h hf hs hu (pixel := pixelRgb555) (by simp)
    · exact renderPixel_goes h hf hs hu (pixel := pixelBf16) (by simp)
    · exact renderPixel_goes h hf hs hu (pixel := pixelBgr24) (by simp)
    · exact renderPixel_goes h hf hs hu (pixel := pixelBgra32) (by simp)
    · exact renderPixel_goes h hf hs hu (pixel := pixelBf32) (by simp)
  refine ill _ rfl ?_
  have hl := modeFault_eq_none.1 hm
  generalize s.bmp.BMP_BPP = bpp at hl
  generalize s.bmp.BMP_COMP = comp at hl
  simp only [modePairLegal, Bool.or_eq_true, Bool.and_eq_true, beq_iff_eq] at hl
  rcases hl with ⟨rfl, h⟩ | ⟨rfl, h⟩
  · rcases h with ((((rfl | rfl) | rfl) | rfl) | rfl) | rfl <;> simp [decodeMode]
  · rcases h with rfl | rfl
    · simp [decodeMode]
    · rw [decodeMode, if_neg (by decide), if_pos rfl, if_neg (by decide), if_pos rfl]
      split <;> simp

end Sys2Proof.Machine
end

