-- ==== Sys2Proof/Laws/Lzw.lean ====
section
/-! SUPPORT. The dictionary of a run (rule R237), and what one code of `LZW_RUN` answers from a state that meets the
invariant. -/

namespace Sys2Proof.Machine

/-! ### Strings and the dictionary -/

@[simp] theorem Str.snoc_last (x : Str) (b : Byte) : (x.snoc b).last = b := by simp [Str.snoc, Str.last, List.getLastD_eq_getLast?]

@[simp] theorem Str.snoc_head (x : Str) (b : Byte) : (x.snoc b).head = x.head := rfl

@[simp] theorem Str.snoc_toList (x : Str) (b : Byte) : (x.snoc b).toList = x.toList ++ [b] := rfl

theorem dictOk_literals (n : Nat) : dictOk n (2 ^ n + 2) (literals (2 ^ n)) := by
  refine ⟨literals_rising _, fun x hx => .inl (literals_mem hx), fun c hc hd => ?_⟩
  rw [literals_get, if_pos (by omega)]
  rfl

variable {n next : Nat} {d : List (Nat × Str)}

/-- The codes of the domain. -/
theorem dictOk_mem (h : dictOk n next d) (hx : 2 ^ n + 2 ≤ next) {x : Nat × Str} (hm : x ∈ d) :
    x.1 < next ∧ (x.1 < 2 ^ n ∨ 2 ^ n + 2 ≤ x.1) := by
  rcases h.2.1 x hm with ⟨h1, -⟩ | ⟨h1, h2, -⟩ <;> omega

theorem dictOk_get (h : dictOk n next d) (hx : 2 ^ n + 2 ≤ next) {c : Nat} {x : Str} (hg : Table.get d c = some x) :
    c < next ∧ (c < 2 ^ n ∨ 2 ^ n + 2 ≤ c) :=
  dictOk_mem h hx (Table.mem_of_get hg)

/-- Every string's first byte is a literal (rule R237 (d)). -/
theorem dictOk_head (h : dictOk n next d) (hn : n ≤ 8) : ∀ (k : Nat) (x : Nat × Str), x.1 < k → x ∈ d → x.2.head.toNat < 2 ^ n := by
  intro k
  induction k with
  | zero => intro x hk; omega
  | succ k ih =>
    intro x hk hm
    rcases h.2.1 x hm with ⟨h1, h2⟩ | ⟨-, -, -, y, hy, hlt, he⟩
    · have h8 : 2 ^ n ≤ 2 ^ 8 := Nat.pow_le_pow_right (by decide) hn
      rw [h2]
      show (trunc8 x.1).toNat < 2 ^ n
      rw [BitVec.toNat_ofNat, Nat.mod_eq_of_lt (by omega)]
      exact h1
    · rw [he]
      exact ih y (by omega) hy

/-- Inserting a known string and a literal's byte (rules R230 to R232) keeps the dictionary's shape. -/
theorem dictOk_insert (h : dictOk n next d) (hx : 2 ^ n + 2 ≤ next) {p : Nat} {prev : Str} (hp : Table.get d p = some prev)
    {b : Byte} (hb : b.toNat < 2 ^ n) : dictOk n (next + 1) (Table.set d next (prev.snoc b)) := by
  refine ⟨Table.rising_set h.1 _ _, fun x hm => ?_, fun c hc hd => ?_⟩
  · rcases Table.mem_set hm with rfl | hm
    · exact .inr ⟨hx, by omega, by simpa using hb, (p, prev),
        Table.mem_set_of_mem h.1 (Table.mem_of_get hp) (by have := (dictOk_get h hx hp).1; simp only; omega),
        (dictOk_get h hx hp).1, by simp⟩
    · rcases h.2.1 x hm with h1 | ⟨h1, h2, h3, y, hy, hlt, he⟩
      · exact .inl h1
      · exact .inr ⟨h1, by omega, h3, y, Table.mem_set_of_mem h.1 hy (by omega), hlt, he⟩
  · rw [Table.get_set]
    split
    · rfl
    · exact h.2.2 c (by omega) hd

/-! ### Appending -/

theorem emitted_grows {bs : List Byte} {s : State} (h : s.lzw.LZW_OLEN.toNat + bs.length < 2 ^ 32) (a : Nat)
    (ha : (s.byteAt .obuf a).isSome = true) : ((emitted bs s).byteAt .obuf a).isSome = true := by
  rw [emitted_byteAt _ _ h]
  split
  · rw [List.getElem?_eq_getElem (by omega)]; rfl
  · exact ha

/-! ### One code -/

/-- The state in which a code's class rule runs: the bit cursor is past the code (rule R226). -/
def pastCode (s : State) : State :=
  { s with lzw := { s.lzw with LZW_BITPOS := trunc32 (s.lzw.LZW_BITPOS.toNat + s.lzw.LZW_W.toNat) } }

/-- A code that goes on: what is left to show of the state after it. -/
theorem lzw_on {s t : State} (hs : s.status.STATE = .busy .lzw) (hk : lzwOk s)
    (hp : s.lzw.LZW_BITPOS.toNat + s.lzw.LZW_W.toNat ≤ 8 * s.lzw.LZW_CLEN.toNat) (h : Base t)
    (hf : t.fault = Machine.noFault) (ht : t.status.STATE = .busy .lzw) (hu : lzwOk t) (hh : t.host = s.host)
    (hl : t.SRC_LEN = s.SRC_LEN) (hc : t.lzw.LZW_CLEN = s.lzw.LZW_CLEN) (hn : t.lzw.LZW_N = s.lzw.LZW_N)
    (hb : t.lzw.LZW_BITPOS = trunc32 (s.lzw.LZW_BITPOS.toNat + s.lzw.LZW_W.toNat))
    (hm : t.src = s.src ∧ t.cbuf = s.cbuf ∧ t.sink = s.sink)
    (ho : ∀ a, (s.byteAt .obuf a).isSome = true → (t.byteAt .obuf a).isSome = true) : Inv t ∧ Progress s t := by
  refine goes_on h hf ht hu hh ?_ hl hc fun sp a ha => ?_
  · rw [workLeft, workLeft, hs, ht]
    simp only [hc, hn, hb]
    obtain ⟨-, -, -, h29, -, -, -, hw, -⟩ := hk
    rw [BitVec.toNat_ofNat, Nat.mod_eq_of_lt (by omega)]
    generalize s.lzw.LZW_BITPOS.toNat = p at *
    generalize s.lzw.LZW_W.toNat = w at *
    generalize s.lzw.LZW_CLEN.toNat = l at *
    generalize s.lzw.LZW_N.toNat = m at *
    have h1 : (8 * l - (p + w)) / (m + 1) ≤ (8 * l - p - (m + 1)) / (m + 1) := Nat.div_le_div_right (by omega)
    have h2 : (8 * l - p) / (m + 1) = (8 * l - p - (m + 1)) / (m + 1) + 1 := by
      have := Nat.add_div_right (8 * l - p - (m + 1)) (z := m + 1) (by omega)
      rwa [Nat.sub_add_cancel (by omega)] at this
    omega
  · obtain ⟨h1, h2, h3⟩ := hm
    cases sp <;> simp only [State.byteAt, State.mem, h1, h2, h3] at ha ⊢
    all_goals first | exact ha | exact ho a ha

/-- `next` stays far below the code that `NONE` would be. -/
theorem next_lt {s : State} (hk : lzwOk s) : s.lzw.LZW_NEXT.toNat < 2 ^ 32 - 2 := by
  obtain ⟨h1, h2, -, h3, h4, -, -, -, -, -, h5, -⟩ := hk
  have h6 : 2 ^ s.lzw.LZW_N.toNat ≤ 2 ^ 8 := Nat.pow_le_pow_right (by decide) h2
  have h7 : (s.lzw.LZW_NEXT.toNat - (2 ^ s.lzw.LZW_N.toNat + 2)) * 3 ≤
      (s.lzw.LZW_NEXT.toNat - (2 ^ s.lzw.LZW_N.toNat + 2)) * (s.lzw.LZW_N.toNat + 1) :=
    Nat.mul_le_mul_left _ (by have : NMIN = 2 := rfl; omega)
  omega

/-- Away from `NONE`, the previous code is in the dictionary (rule R237 (e)). -/
theorem prev_isSome {s : State} (hk : lzwOk s) (h : s.lzw.LZW_PREV ≠ NONE) :
    ∃ x, Table.get s.dict s.lzw.LZW_PREV.toNat = some x := by
  obtain ⟨-, -, -, -, -, -, -, -, -, -, -, -, -, h1, -⟩ := hk
  rcases h1 with ⟨h1, -⟩ | h1
  · exact absurd h1 h
  · exact Option.isSome_iff_exists.1 h1

/-- With no previous code, nothing has been inserted. -/
theorem next_of_none {s : State} (hk : lzwOk s) (h : s.lzw.LZW_PREV = NONE) : s.lzw.LZW_NEXT.toNat = 2 ^ s.lzw.LZW_N.toNat + 2 := by
  have hlt := next_lt hk
  obtain ⟨-, -, -, -, -, h0, -, -, -, -, -, -, hd, h1, -⟩ := hk
  rcases h1 with ⟨-, h1⟩ | h1
  · exact h1
  · obtain ⟨x, hx⟩ := Option.isSome_iff_exists.1 h1
    have := (dictOk_get hd h0 hx).1
    rw [h] at this
    simp [NONE] at this
    omega

/-- A code whose window's bytes are known, read under the width cap (rules R225, R226, R66). -/
theorem ran_fetchCode_known {s : State} {f : Nat → Byte}
    (hp : s.lzw.LZW_BITPOS.toNat + s.lzw.LZW_W.toNat ≤ 8 * s.lzw.LZW_CLEN.toNat) (hw : s.lzw.LZW_W.toNat ≤ s.cfg.WMAX)
    (hb : ∀ a < s.lzw.LZW_CLEN.toNat, s.byteAt .cbuf a = some (f a)) :
    ran (fetchCode s) =
      exec (decodeCode (codeCtx s) (streamValue f s.lzw.LZW_BITPOS.toNat s.lzw.LZW_W.toNat)) (pastCode s) := by
  have hl : (codeCtx s).windowLen = (s.lzw.LZW_BITPOS.toNat % 8 + s.lzw.LZW_W.toNat + 7) / 8 := rfl
  have hbs : cbufBytes s (s.lzw.LZW_BITPOS.toNat / 8) (codeCtx s).windowLen =
      .ok ((List.range (codeCtx s).windowLen).map fun i => f (s.lzw.LZW_BITPOS.toNat / 8 + i)) :=
    cbufBytes_of_bytes (by simp) fun i hi => by rw [hb _ (by omega)]; simp [hi]
  unfold fetchCode
  dsimp only
  rw [if_neg (by omega), if_neg (by omega), hbs]
  dsimp only
  rw [ran_code (by simp)]
  rw [readBitsMSB_eq, ← streamValue_shift f s.lzw.LZW_BITPOS.toNat]
  refine congrArg (fun v => exec (decodeCode (codeCtx s) v) (pastCode s)) (streamValue_congr fun a _ ha => ?_)
  have ha : 8 * a < s.lzw.LZW_BITPOS.toNat % 8 + s.lzw.LZW_W.toNat := ha
  have : a < (codeCtx s).windowLen := by rw [hl]; omega
  simp [this]

section Code

variable {s : State} (h : Base s) (hf : s.fault = Machine.noFault) (hs : s.status.STATE = .busy .lzw) (hk : lzwOk s)
  (hp : s.lzw.LZW_BITPOS.toNat + s.lzw.LZW_W.toNat ≤ 8 * s.lzw.LZW_CLEN.toNat)

include h in
theorem pastCode_base : Base (pastCode s) := ⟨h.cfg, h.mem, h.multi, h.ready⟩

include hk hp in
theorem pastCode_bitpos : (pastCode s).lzw.LZW_BITPOS.toNat = s.lzw.LZW_BITPOS.toNat + s.lzw.LZW_W.toNat := by
  have := hk.2.2.2.1
  show (trunc32 _).toNat = _
  rw [BitVec.toNat_ofNat, Nat.mod_eq_of_lt (by omega)]

include h hf hs hk hp in
theorem clear_goes : Goes s (exec .lzwClear (pastCode s)) := by
  have hb := pastCode_bitpos hk hp
  have hw := h.wmax
  obtain ⟨h1, h2, h3, h4, h5, h6, h7, h8, h9, h10, h11, h12, h13, h14, h15⟩ := id hk
  have hn8 : s.lzw.LZW_N.toNat ≤ 8 := h2
  have hn2 : 2 ≤ s.lzw.LZW_N.toNat := h1
  have h2n : 2 ^ s.lzw.LZW_N.toNat ≤ 2 ^ 8 := Nat.pow_le_pow_right (by decide) hn8
  have h4n : 2 ^ 2 ≤ 2 ^ s.lzw.LZW_N.toNat := Nat.pow_le_pow_right (by decide) hn2
  have e1 : (trunc32 (s.lzw.LZW_N.toNat + 1)).toNat = s.lzw.LZW_N.toNat + 1 := by
    rw [BitVec.toNat_ofNat, Nat.mod_eq_of_lt (by omega)]
  have e2 : (trunc32 (2 ^ s.lzw.LZW_N.toNat + 2)).toNat = 2 ^ s.lzw.LZW_N.toNat + 2 := by
    rw [BitVec.toNat_ofNat, Nat.mod_eq_of_lt (by omega)]
  refine lzw_on hs hk hp (t := dictReset (pastCode s)) ⟨h.cfg, h.mem, h.multi, h.ready⟩ hf hs
    ⟨h1, h2, h3, h4, ?_, ?_, ?_, ?_, ?_, ?_, ?_, h12, ?_, .inl ⟨rfl, ?_⟩, h15⟩ rfl rfl rfl rfl rfl ⟨rfl, rfl, rfl⟩ fun _ ha => ha
  · show (pastCode s).lzw.LZW_BITPOS.toNat ≤ 8 * s.lzw.LZW_CLEN.toNat
    omega
  · show 2 ^ s.lzw.LZW_N.toNat + 2 ≤ (trunc32 (2 ^ s.lzw.LZW_N.toNat + 2)).toNat
    omega
  · show (trunc32 (2 ^ s.lzw.LZW_N.toNat + 2)).toNat < 2 ^ (trunc32 (s.lzw.LZW_N.toNat + 1)).toNat
    rw [e1, e2, Nat.pow_succ]
    omega
  · show s.lzw.LZW_N.toNat + 1 ≤ (trunc32 (s.lzw.LZW_N.toNat + 1)).toNat
    omega
  · show (trunc32 (s.lzw.LZW_N.toNat + 1)).toNat ≤ s.cfg.WMAX + 1
    omega
  · exact .inl e1
  · show ((trunc32 (2 ^ s.lzw.LZW_N.toNat + 2)).toNat - (2 ^ s.lzw.LZW_N.toNat + 2)) * (s.lzw.LZW_N.toNat + 1) ≤ _
    rw [e2, Nat.sub_self, Nat.zero_mul]
    exact Nat.zero_le _
  · show dictOk s.lzw.LZW_N.toNat (trunc32 (2 ^ s.lzw.LZW_N.toNat + 2)).toNat (literals (2 ^ s.lzw.LZW_N.toNat))
    rw [e2]
    exact dictOk_literals _
  · exact e2

include h hf hs hk hp in
theorem first_goes (v : Nat) (hn : s.lzw.LZW_PREV = NONE) (hv : v < 2 ^ s.lzw.LZW_N.toNat) :
    Goes s (exec (.lzwFirst v) (pastCode s)) := by
  have hb := pastCode_bitpos hk hp
  obtain ⟨h1, h2, h3, h4, h5, h6, h7, h8, h9, h10, h11, h12, h13, h14, h15⟩ := id hk
  have hn8 : s.lzw.LZW_N.toNat ≤ 8 := h2
  have h2n : 2 ^ s.lzw.LZW_N.toNat ≤ 2 ^ 8 := Nat.pow_le_pow_right (by decide) hn8
  have hc := (h.caps .obuf).2
  simp only [capacity] at hc
  show Goes s (execLzwFirst v (pastCode s))
  refine emit_answers h12 hc (fun ho => goes_fault ((pastCode_base h).emitted ?_) ?_ _ _) fun ho => ?_
  · simp only [List.length_take]
    show s.lzw.LZW_OLEN.toNat + _ ≤ s.cfg.OBUF_CAP
    have : s.lzw.LZW_OLEN.toNat ≤ s.cfg.OBUF_CAP := h12
    show s.lzw.LZW_OLEN.toNat + min (s.cfg.OBUF_CAP - s.lzw.LZW_OLEN.toNat) _ ≤ s.cfg.OBUF_CAP
    omega
  · rw [emitted_frame]; rfl
  · have ho' : s.lzw.LZW_OLEN.toNat + 1 ≤ s.cfg.OBUF_CAP := ho
    have hB := (pastCode_base h).emitted (bs := [trunc8 v]) ho
    have hg := fun a => emitted_grows (bs := [trunc8 v]) (s := pastCode s) (by show s.lzw.LZW_OLEN.toNat + 1 < 2 ^ 32; omega) a
    rw [emitted_frame] at hB hg ⊢
    have e1 : (trunc32 (s.lzw.LZW_OLEN.toNat + 1)).toNat = s.lzw.LZW_OLEN.toNat + 1 := by
      rw [BitVec.toNat_ofNat, Nat.mod_eq_of_lt (by omega)]
    have e2 : (trunc32 v).toNat = v := by rw [BitVec.toNat_ofNat, Nat.mod_eq_of_lt (by omega)]
    have hnext := next_of_none hk hn
    refine lzw_on hs hk hp ⟨hB.cfg, hB.mem, hB.multi, hB.ready⟩ hf hs
      ⟨h1, h2, h3, h4, ?_, h6, h7, h8, h9, h10, ?_, ?_, h13, .inr ?_, h15⟩ rfl rfl rfl rfl rfl ⟨rfl, rfl, rfl⟩ hg
    · show (pastCode s).lzw.LZW_BITPOS.toNat ≤ 8 * s.lzw.LZW_CLEN.toNat
      omega
    · show _ ≤ (pastCode s).lzw.LZW_BITPOS.toNat
      exact le_trans h11 (by omega)
    · show (trunc32 (s.lzw.LZW_OLEN.toNat + 1)).toNat ≤ s.cfg.OBUF_CAP
      omega
    · show (Table.get s.dict (trunc32 v).toNat).isSome = true
      rw [e2]
      exact h13.2.2 v (by omega) (.inl hv)

include h hf hs hk hp in
/-- A code that emits `cur`, inserts `prev` with `cur`'s first byte, and is remembered (rules R230 to R232). -/
theorem emit_insert_goes {p v : Nat} {cur prev : Str} (hpv : Table.get s.dict p = some prev)
    (hcur : cur.head.toNat < 2 ^ s.lzw.LZW_N.toNat) (hv : v ≤ s.lzw.LZW_NEXT.toNat)
    (hd : v < 2 ^ s.lzw.LZW_N.toNat ∨ 2 ^ s.lzw.LZW_N.toNat + 2 ≤ v) (hcap : s.lzw.LZW_W.toNat ≤ s.cfg.WMAX) {k : State → Out}
    (hkk : ∀ t, t.lzw.LZW_PREV = s.lzw.LZW_PREV → t.dict = s.dict →
      k t = .next (lzwRemember v (dictInsert (prev.snoc cur.head) t))) :
    Goes s (emit cur.toList (pastCode s) k) := by
  have hb := pastCode_bitpos hk hp
  have hlt := next_lt hk
  obtain ⟨h1, h2, h3, h4, h5, h6, h7, h8, h9, h10, h11, h12, h13, h14, h15⟩ := id hk
  have hc := (h.caps .obuf).2
  simp only [capacity] at hc
  refine emit_answers h12 hc (fun ho => goes_fault ((pastCode_base h).emitted ?_) ?_ _ _) fun ho => ?_
  · simp only [List.length_take]
    have : s.lzw.LZW_OLEN.toNat ≤ s.cfg.OBUF_CAP := h12
    show s.lzw.LZW_OLEN.toNat + min (s.cfg.OBUF_CAP - s.lzw.LZW_OLEN.toNat) _ ≤ s.cfg.OBUF_CAP
    omega
  · rw [emitted_frame]; rfl
  · have ho' : s.lzw.LZW_OLEN.toNat + cur.toList.length ≤ s.cfg.OBUF_CAP := ho
    have hB := (pastCode_base h).emitted ho
    have hg := fun a => emitted_grows (bs := cur.toList) (s := pastCode s)
      (by show s.lzw.LZW_OLEN.toNat + cur.toList.length < 2 ^ 32; omega) a
    rw [hkk _ (by rw [emitted_frame]; rfl) (by rw [emitted_frame]; rfl)]
    rw [emitted_frame] at hB hg ⊢
    have e1 : (trunc32 (s.lzw.LZW_OLEN.toNat + cur.toList.length)).toNat = s.lzw.LZW_OLEN.toNat + cur.toList.length := by
      rw [BitVec.toNat_ofNat, Nat.mod_eq_of_lt (by omega)]
    have e2 : (trunc32 v).toNat = v := by rw [BitVec.toNat_ofNat, Nat.mod_eq_of_lt (by omega)]
    have e3 : (trunc32 (s.lzw.LZW_NEXT.toNat + 1)).toNat = s.lzw.LZW_NEXT.toNat + 1 := by
      rw [BitVec.toNat_ofNat, Nat.mod_eq_of_lt (by omega)]
    have e4 : (trunc32 (s.lzw.LZW_W.toNat + 1)).toNat = s.lzw.LZW_W.toNat + 1 := by
      rw [BitVec.toNat_ofNat, Nat.mod_eq_of_lt (by omega)]
    have hin := dictOk_insert h13 h6 hpv hcur
    generalize (emitted cur.toList (pastCode s)).obuf = ob at *
    generalize hw' : (if s.lzw.LZW_NEXT.toNat + 1 = 2 ^ s.lzw.LZW_W.toNat then trunc32 (s.lzw.LZW_W.toNat + 1) else s.lzw.LZW_W) = w'
    have hwt : (w'.toNat = s.lzw.LZW_W.toNat + 1 ∧ s.lzw.LZW_NEXT.toNat + 1 = 2 ^ s.lzw.LZW_W.toNat) ∨
        (w'.toNat = s.lzw.LZW_W.toNat ∧ s.lzw.LZW_NEXT.toNat + 1 ≠ 2 ^ s.lzw.LZW_W.toNat) := by
      rw [← hw']
      split
      · exact .inl ⟨e4, ‹_›⟩
      · exact .inr ⟨rfl, ‹_›⟩
    refine lzw_on hs hk hp (t := { pastCode s with
        obuf := ob
        dict := Table.set s.dict s.lzw.LZW_NEXT.toNat (prev.snoc cur.head)
        lzw := { (pastCode s).lzw with
          LZW_OLEN := trunc32 (s.lzw.LZW_OLEN.toNat + cur.toList.length)
          LZW_NEXT := trunc32 (s.lzw.LZW_NEXT.toNat + 1)
          LZW_W := w'
          LZW_PREV := trunc32 v } }) ⟨hB.cfg, hB.mem, hB.multi, hB.ready⟩ hf hs
      ⟨h1, h2, h3, h4, ?_, ?_, ?_, ?_, ?_, ?_, ?_, ?_, ?_, .inr ?_, h15⟩ rfl rfl rfl rfl rfl ⟨rfl, rfl, rfl⟩ hg |> fun r => ?_
    · subst hw'
      exact r
    · show (pastCode s).lzw.LZW_BITPOS.toNat ≤ 8 * s.lzw.LZW_CLEN.toNat
      omega
    · show 2 ^ s.lzw.LZW_N.toNat + 2 ≤ (trunc32 (s.lzw.LZW_NEXT.toNat + 1)).toNat
      omega
    · show (trunc32 (s.lzw.LZW_NEXT.toNat + 1)).toNat < 2 ^ w'.toNat
      rw [e3]
      rcases hwt with ⟨e, e'⟩ | ⟨e, e'⟩
      · rw [e, Nat.pow_succ]; omega
      · rw [e]; omega
    · show s.lzw.LZW_N.toNat + 1 ≤ w'.toNat
      omega
    · show w'.toNat ≤ s.cfg.WMAX + 1
      omega
    · show w'.toNat = s.lzw.LZW_N.toNat + 1 ∨ 2 ^ (w'.toNat - 1) ≤ (trunc32 (s.lzw.LZW_NEXT.toNat + 1)).toNat
      rw [e3]
      rcases hwt with ⟨e, e'⟩ | ⟨e, e'⟩
      · right; rw [e, Nat.add_sub_cancel]; omega
      · rw [e]; rcases h10 with h10 | h10
        · exact .inl h10
        · right; omega
    · show ((trunc32 (s.lzw.LZW_NEXT.toNat + 1)).toNat - (2 ^ s.lzw.LZW_N.toNat + 2)) * (s.lzw.LZW_N.toNat + 1) ≤
        (pastCode s).lzw.LZW_BITPOS.toNat
      rw [e3, hb, show s.lzw.LZW_NEXT.toNat + 1 - (2 ^ s.lzw.LZW_N.toNat + 2) =
        (s.lzw.LZW_NEXT.toNat - (2 ^ s.lzw.LZW_N.toNat + 2)) + 1 by omega, Nat.add_mul, Nat.one_mul]
      omega
    · show (trunc32 (s.lzw.LZW_OLEN.toNat + cur.toList.length)).toNat ≤ s.cfg.OBUF_CAP
      omega
    · show dictOk s.lzw.LZW_N.toNat (trunc32 (s.lzw.LZW_NEXT.toNat + 1)).toNat _
      rw [e3]
      exact hin
    · show (Table.get _ (trunc32 v).toNat).isSome = true
      rw [e2]
      exact hin.2.2 v (by omega) hd

include h hf hs hk hp in
/-- The class rules of a code read under the width cap (rules R92, R225). -/
theorem class_goes {v : Nat} (hcap : s.lzw.LZW_W.toNat ≤ s.cfg.WMAX) :
    Goes s (exec (decodeCode (codeCtx s) v) (pastCode s)) := by
  have hn8 : s.lzw.LZW_N.toNat ≤ 8 := hk.2.1
  have hnext : 2 ^ s.lzw.LZW_N.toNat + 2 ≤ s.lzw.LZW_NEXT.toNat := hk.2.2.2.2.2.1
  have hd : dictOk s.lzw.LZW_N.toNat s.lzw.LZW_NEXT.toNat s.dict := hk.2.2.2.2.2.2.2.2.2.2.2.2.1
  have range : Goes s (exec (.lzwRange v) (pastCode s)) :=
    goes_fault (s := s) (pastCode_base h) rfl .L_CODE_RANGE v
  unfold decodeCode
  by_cases c1 : v = (codeCtx s).clear
  · rw [if_pos c1]; exact clear_goes h hf hs hk hp
  rw [if_neg c1]
  by_cases c2 : v = (codeCtx s).eoi
  · rw [if_pos c2]; exact goes_stop ⟨h.cfg, h.mem, h.multi, h.ready⟩ hf rfl
  rw [if_neg c2]
  have c1 : v ≠ 2 ^ s.lzw.LZW_N.toNat := c1
  have c2 : v ≠ 2 ^ s.lzw.LZW_N.toNat + 1 := c2
  by_cases c3 : s.lzw.LZW_PREV = NONE
  · rw [if_pos (by simp [codeCtx, c3])]
    by_cases c4 : v < (codeCtx s).clear
    · rw [if_pos c4]; exact first_goes h hf hs hk hp v c3 c4
    · rw [if_neg c4]; exact range
  rw [if_neg (by simp [codeCtx, c3])]
  obtain ⟨prev, hprev⟩ := prev_isSome hk c3
  by_cases c4 : v < (codeCtx s).next
  · rw [if_pos c4]
    have c4 : v < s.lzw.LZW_NEXT.toNat := c4
    obtain ⟨cur, hcur⟩ := Option.isSome_iff_exists.1 (hd.2.2 v c4 (by omega))
    show Goes s (execLzwDict v (pastCode s))
    rw [execLzwDict, dictRead_ok (by exact hcur)]
    refine emit_insert_goes h hf hs hk hp (v := v) (cur := cur) hprev
      (dictOk_head hd hn8 _ (v, cur) (Nat.lt_succ_self _) (Table.mem_of_get hcur)) (by omega) (by omega) hcap fun t h1 h2 => ?_
    rw [h1, dictRead_ok (by rw [h2]; exact hprev)]
  rw [if_neg c4]
  by_cases c5 : v = (codeCtx s).next
  · rw [if_pos c5]
    have hph := dictOk_head hd hn8 _ (_, prev) (Nat.lt_succ_self _) (Table.mem_of_get hprev)
    show Goes s (execLzwKwkwk (pastCode s))
    rw [execLzwKwkwk, dictRead_ok (by exact hprev)]
    exact emit_insert_goes h hf hs hk hp hprev (by exact hph) (Nat.le_refl _) (.inr hnext) hcap fun t h1 h2 => rfl
  · rw [if_neg c5]; exact range

end Code

/-- One iteration of the fetch loop (rule R225). -/
theorem code_goes {s : State} (h : Base s) (hf : s.fault = Machine.noFault) (hs : s.status.STATE = .busy .lzw) (hk : lzwOk s) :
    Goes s (ran (fetchCode s)) := by
  unfold fetchCode
  dsimp only
  split
  · exact goes_stop h hf rfl
  · rename_i hp
    split
    · exact goes_fault h rfl _ _
    · rename_i hcap
      have hlen : (codeCtx s).windowLen = (s.lzw.LZW_BITPOS.toNat % 8 + s.lzw.LZW_W.toNat + 7) / 8 := rfl
      split
      · rename_i a hb
        have ha := cbufBytes_error hb
        exact ⟨.cbuf, a, rfl, ha.2.2, .inr ⟨rfl, by omega⟩⟩
      · rename_i bs hb
        rw [ran_code (cbufBytes_ok hb).1]
        exact class_goes h hf hs hk (by omega) (by omega)

/-! ### The running unit -/

/-- The running unit's next element, from a state that meets the invariant. -/
theorem unit_goes {s : State} (hi : Inv s) (hb : s.busy = true) : Goes s (ran (fetchRunning s)) := by
  have h := hi.base
  cases hs : s.status.STATE with
  | idle => rw [State.busy, hs] at hb; cases hb
  | done => rw [State.busy, hs] at hb; cases hb
  | fault => rw [State.busy, hs] at hb; cases hb
  | busy ph =>
    have hf := hi.noFault (by rw [hs]; simp)
    have hu := hi.unitAt hs
    rw [fetchRunning_busy hs]
    cases ph with
    | start => exact absurd hu id
    | scan =>
      refine gsc_goes h fun b hp => ?_
      rw [ran_separator, decodeSeparator]
      split
      · exact image_goes h hf hs hu
      · split
        · exact trailer_goes h hf hu
        · exact goes_fault h rfl _ _
    | skip =>
      refine gsc_goes h fun b hp => ?_
      rw [ran_length, decodeLength]
      split
      · exact frameEnd_goes h hf hs hu hp
      · exact skip_goes h hf hs hu hp b
    | concat =>
      refine gsc_goes h fun b hp => ?_
      rw [ran_length, decodeLength]
      split
      · exact concatEnd_goes h hf hs
      · exact concat_goes h hf hs hu hp b
    | lzw => exact code_goes h hf hs hu
    | bmp =>
      rw [fetchUnit, ran_mode]
      exact bmp_goes h hf hs hu

end Sys2Proof.Machine
end

