-- ==== Sys2Proof/Laws/Alike.lean ====
section
/-! SUPPORT. Rule R220, step by step: two machines alike in what `LZW_RUN` depends on stay alike. -/

namespace Sys2Proof.Machine

/-- Two states in a run of `LZW_RUN`, or after it, alike in all the run depends on. -/
structure LzwTwin (s t : State) : Prop where
  hs : s.host = []
  ht : t.host = []
  alike : LzwAlike s t
  st : s.status.STATE = .done ∨ s.status.STATE = .fault ∨ s.status.STATE = .busy .lzw

/-- Two answers: where the first is a state, the second is one alike. -/
def TwinOut (o o' : Out) : Prop := ∀ s', o = .next s' → ∃ t', o' = .next t' ∧ LzwTwin s' t'

theorem TwinOut.next {s t : State} (h : LzwTwin s t) : TwinOut (.next s) (.next t) := fun s' e => by cases e; exact ⟨t, rfl, h⟩

theorem LzwTwin.fault {s t : State} (h : LzwTwin s t) (c : Cause) (i : Nat) : LzwTwin (faultEntry c i s) (faultEntry c i t) :=
  ⟨h.hs, h.ht, ⟨h.alike.wmax, h.alike.obufCap, h.alike.lzw, h.alike.dict, rfl, h.alike.eoi, rfl, h.alike.cbuf, h.alike.obuf⟩, .inr (.inl rfl)⟩

theorem LzwTwin.stop {s t : State} (h : LzwTwin s t) : LzwTwin (stop s) (stop t) :=
  ⟨h.hs, h.ht, ⟨h.alike.wmax, h.alike.obufCap, h.alike.lzw, h.alike.dict, rfl, h.alike.eoi, h.alike.fault, h.alike.cbuf, h.alike.obuf⟩, .inl rfl⟩

theorem LzwTwin.put {s t : State} (h : LzwTwin s t) (b : Byte) : LzwTwin (obufPut b s) (obufPut b t) := by
  obtain ⟨h1, h2, h3, h4⟩ := h
  have hl := h3.lzw
  refine ⟨h1, h2, ⟨h3.wmax, h3.obufCap, ?_, h3.dict, h3.state, h3.eoi, h3.fault, h3.cbuf, fun a ha => ?_⟩, h4⟩
  · rw [obufPut_lzw, obufPut_lzw, hl]
  · show (s.writeByte .obuf s.lzw.LZW_OLEN.toNat b).byteAt .obuf a = (t.writeByte .obuf t.lzw.LZW_OLEN.toNat b).byteAt .obuf a
    rw [byteAt_writeByte, byteAt_writeByte, ← hl]
    split
    · rfl
    · rename_i hne
      have ha : a < (trunc32 (s.lzw.LZW_OLEN.toNat + 1)).toNat := ha
      rw [BitVec.toNat_ofNat] at ha
      have hol := s.lzw.LZW_OLEN.isLt
      simp only [true_and] at hne
      refine h3.obuf a ?_
      have := Nat.mod_le (s.lzw.LZW_OLEN.toNat + 1) (2 ^ 32)
      omega

theorem TwinOut.emit {k k' : State → Out} (hk : ∀ s t, LzwTwin s t → TwinOut (k s) (k' t)) (bs : List Byte) : ∀ {s t : State}, LzwTwin s t → TwinOut (emit bs s k) (emit bs t k') := by
  induction bs with
  | nil => exact fun h => hk _ _ h
  | cons b bs ih =>
    intro s t h
    simp only [Machine.emit, obufAppend]
    rw [← h.alike.lzw, ← h.alike.obufCap]
    split
    · exact .next (h.fault _ _)
    · exact ih (h.put b)

theorem LzwTwin.lzw {s t : State} (h : LzwTwin s t) {g : LzwRegs} (hn : g.LZW_CLEN = s.lzw.LZW_CLEN) (ho : g.LZW_OLEN = s.lzw.LZW_OLEN) {d : List (Nat × Str)} : LzwTwin { s with lzw := g, dict := d } { t with lzw := g, dict := d } :=
  ⟨h.hs, h.ht, ⟨h.alike.wmax, h.alike.obufCap, rfl, rfl, h.alike.state, h.alike.eoi, h.alike.fault, fun a ha => h.alike.cbuf a (by rw [← hn]; exact ha), fun a ha => h.alike.obuf a (by rw [← ho]; exact ha)⟩, h.st⟩

theorem LzwTwin.remember {s t : State} (h : LzwTwin s t) (v : Nat) (x : Str) : LzwTwin (lzwRemember v (dictInsert x s)) (lzwRemember v (dictInsert x t)) := by
  have := h.lzw (g := (lzwRemember v (dictInsert x s)).lzw) (d := (dictInsert x s).dict) rfl rfl
  have e : lzwRemember v (dictInsert x t) = { t with lzw := (lzwRemember v (dictInsert x s)).lzw, dict := (dictInsert x s).dict } := by
    rw [lzwRemember, dictInsert, ← h.alike.lzw, ← h.alike.dict]; rfl
  rw [e]; exact this

theorem TwinOut.read {s t : State} (h : LzwTwin s t) {c : Nat} {k k' : Str → Out} (hk : ∀ x, TwinOut (k x) (k' x)) : TwinOut (dictRead c s k) (dictRead c t k') := by
  unfold dictRead
  rw [← h.alike.dict]
  split
  · intro s' e; cases e
  · exact hk _

/-- A code's class rule keeps them alike. -/
theorem LzwTwin.exec_code {s t : State} (h : LzwTwin s t) (c : CodeCtx) (v : Nat) : TwinOut (exec (decodeCode c v) s) (exec (decodeCode c v) t) := by
  have hl := h.alike.lzw
  unfold decodeCode
  repeat' split
  · refine .next ?_
    have := h.lzw (g := (dictReset s).lzw) (d := (dictReset s).dict) rfl rfl
    have e : dictReset t = { t with lzw := (dictReset s).lzw, dict := (dictReset s).dict } := by
      unfold dictReset; rw [← hl]
    rw [e]; exact this
  · refine .next (LzwTwin.stop ⟨h.hs, h.ht, ⟨h.alike.wmax, h.alike.obufCap, h.alike.lzw, h.alike.dict, h.alike.state, rfl, h.alike.fault, h.alike.cbuf, h.alike.obuf⟩, h.st⟩)
  · refine TwinOut.emit (fun s t h => .next ?_) _ h
    have := h.lzw (g := (lzwRemember v s).lzw) (d := s.dict) rfl rfl
    have e : lzwRemember v t = { t with lzw := (lzwRemember v s).lzw, dict := s.dict } := by
      unfold lzwRemember; rw [← h.alike.lzw, h.alike.dict]
    rw [e]; exact this
  · exact .next (h.fault _ _)
  · refine TwinOut.read h fun cur => TwinOut.emit (fun s t h => ?_) _ h
    rw [← h.alike.lzw]
    exact TwinOut.read h fun prev => .next (h.remember _ _)
  · show TwinOut (execLzwKwkwk s) (execLzwKwkwk t)
    unfold execLzwKwkwk
    rw [← h.alike.lzw]
    exact TwinOut.read h fun prev => TwinOut.emit (fun s t h => .next (h.remember _ _)) _ h
  · exact .next (h.fault _ _)

theorem cbufBytes_congr {s t : State} {n : Nat} : ∀ {a : Nat}, (∀ i, a ≤ i → i < a + n → s.byteAt .cbuf i = t.byteAt .cbuf i) → cbufBytes s a n = cbufBytes t a n := by
  induction n with
  | zero => intros; rfl
  | succ n ih =>
    intro a h
    simp only [cbufBytes]
    rw [h a (by omega) (by omega), ih fun i h1 h2 => h i (by omega) (by omega)]

/-- A step keeps them alike. -/
theorem LzwTwin.step_twin {s t : State} (h : LzwTwin s t) : TwinOut (step s) (step t) := by
  have e : ∀ s : State, s.host = [] → step s = ran (fetchRunning s) := fun s hs => by rw [step_eq, fetch, hs]
  rw [e s h.hs, e t h.ht]
  have wait : ∀ s : State, s.status.STATE = .done ∨ s.status.STATE = .fault → ran (fetchRunning s) = .next s := fun s hs => by
    rw [fetchRunning_waits (by rcases hs with hs | hs <;> rw [State.busy, hs] <;> rfl)]; rfl
  rcases h.st with hs | hs | hs
  · rw [wait s (.inl hs), wait t (.inl (h.alike.state.symm.trans hs))]; exact .next h
  · rw [wait s (.inr hs), wait t (.inr (h.alike.state.symm.trans hs))]; exact .next h
  · rw [fetchRunning_busy hs, fetchRunning_busy (h.alike.state.symm.trans hs), fetchUnit, fetchUnit]
    have hc : codeCtx t = codeCtx s := by rw [codeCtx, codeCtx, ← h.alike.lzw]
    unfold fetchCode
    dsimp only
    rw [hc, ← h.alike.lzw, ← h.alike.wmax]
    split
    · exact .next h.stop
    · rename_i hp
      split
      · exact .next (h.fault _ _)
      · have hl : (codeCtx s).windowLen = (s.lzw.LZW_BITPOS.toNat % 8 + s.lzw.LZW_W.toNat + 7) / 8 := rfl
        rw [← cbufBytes_congr (s := s) (t := t) fun i h1 h2 => h.alike.cbuf i (by omega)]
        split
        · intro s' e; cases e
        · rename_i bs hb
          rw [ran_code (cbufBytes_ok hb).1, ran_code (cbufBytes_ok hb).1]
          have := h.lzw (g := (pastCode s).lzw) (d := s.dict) rfl rfl
          have e : { t with lzw := (pastCode s).lzw } = { t with lzw := (pastCode s).lzw, dict := s.dict } := by rw [h.alike.dict]
          refine LzwTwin.exec_code (s := pastCode s) (t := { t with lzw := (pastCode s).lzw }) ?_ _ _
          rw [e]; exact this

/-- A run keeps them alike. -/
theorem LzwTwin.run_twin (k : Nat) : ∀ {s t : State}, LzwTwin s t → ∀ s', core.run k s = (.next s' : Out) → ∃ t', core.run k t = (.next t' : Out) ∧ LzwTwin s' t' := by
  induction k with
  | zero => intro s t h s' e; cases e; exact ⟨t, rfl, h⟩
  | succ k ih =>
    intro s t h s' e
    obtain ⟨u, h1, h2⟩ := core_run_succ_eq_next e
    obtain ⟨v, h3, h4⟩ := h.step_twin u h1
    obtain ⟨t', h5, h6⟩ := ih h4 s' h2
    exact ⟨t', (core_run_next h3).trans h5, h6⟩

end Sys2Proof.Machine
end

