-- ==== Sys2Proof/Laws/RegFile.lean ====
section
/-! SUPPORT. The register file by index: `Reg.index` is the inverse of `Reg.ofIndex`, one lemma says what a host write does to every
register, and the tables of the claims' vocabulary hold of reads and writes. -/

namespace Sys2Proof.Machine

/-- A register's index (the table of 10_state.md section 8). -/
def Reg.index (r : Reg) : Nat :=
  match r with
  | .CMD => 0x00
  | .STATUS => 0x01
  | .FAULT_KIND => 0x02
  | .FAULT_CAUSE => 0x03
  | .FAULT_INFO => 0x04
  | .SRC_LEN => 0x05
  | .GIF_VERSION => 0x10
  | .GIF_SCREEN_W => 0x11
  | .GIF_SCREEN_H => 0x12
  | .GIF_FLAGS => 0x13
  | .GIF_BG => 0x14
  | .GIF_ASPECT => 0x15
  | .GIF_GCT_COLORS => 0x16
  | .GIF_GCT_OFF => 0x17
  | .GIF_FRAME_COUNT => 0x18
  | .GIF_POS => 0x19
  | .F0_LEFT => 0x20
  | .F0_TOP => 0x21
  | .F0_W => 0x22
  | .F0_H => 0x23
  | .F0_FLAGS => 0x24
  | .F0_LCT_COLORS => 0x25
  | .F0_LCT_OFF => 0x26
  | .F0_CODESIZE => 0x27
  | .F0_DATA_OFF => 0x28
  | .LZW_N => 0x30
  | .LZW_CLEN => 0x31
  | .LZW_OLEN => 0x32
  | .LZW_BITPOS => 0x33
  | .LZW_W => 0x34
  | .LZW_NEXT => 0x35
  | .LZW_PREV => 0x36
  | .BMP_DATA_OFF => 0x40
  | .BMP_WIDTH => 0x41
  | .BMP_HEIGHT => 0x42
  | .BMP_BPP => 0x43
  | .BMP_COMP => 0x44
  | .BMP_PAL_BASE => 0x45
  | .BMP_PAL_COUNT => 0x46
  | .BMP_MASK_R => 0x47
  | .BMP_MASK_G => 0x48
  | .BMP_MASK_B => 0x49
  | .BMP_MASK_A => 0x4A
  | .BMP_HAS_AMASK => 0x4B
  | .VIEW_W => 0x4C
  | .VIEW_H => 0x4D
  | .SINK_STRIDE => 0x4E
  | .BMP_CUR => 0x4F
  | .BMP_X => 0x50
  | .BMP_ROW => 0x51

theorem Reg.ofIndex_index (r : Reg) : Reg.ofIndex r.index = some r := by cases r <;> rfl

theorem Reg.ofIndex_high {i : Nat} (h : 0x51 < i) : Reg.ofIndex i = none := by
  unfold Reg.ofIndex
  repeat rw [if_neg (by omega)]

theorem Reg.index_of_ofIndex {i : Nat} {r : Reg} (h : Reg.ofIndex i = some r) : i = r.index := by
  have key : ∀ i < 0x52, ∀ r ∈ Reg.ofIndex i, i = r.index := by decide
  by_cases hi : 0x51 < i
  · rw [Reg.ofIndex_high hi] at h; cases h
  · exact key i (by omega) r h

/-- The reserved indices (rule R20). -/
theorem Reg.ofIndex_reserved {i : Nat}
    (h : 0x05 < i ∧ i < 0x10 ∨ 0x19 < i ∧ i < 0x20 ∨ 0x28 < i ∧ i < 0x30 ∨ 0x36 < i ∧ i < 0x40 ∨ 0x51 < i) :
    Reg.ofIndex i = none := by
  unfold Reg.ofIndex
  repeat rw [if_neg (by omega)]

/-- A host write changes the register written, where it is `RW`, and no other; `STATUS` aside, where a write to `SRC_LEN`
clears `GIF_READY` (rules R20, R25). -/
theorem State.reg_setReg (s : State) (r r' : Reg) (v : Word) (h : r' ≠ .STATUS) :
    (s.setReg r v).reg r' = if r' = r ∧ r.access = .RW then v else s.reg r' := by
  cases r <;> cases r' <;> first | rfl | exact absurd rfl h

/-- Which indices are `RW`. -/
theorem Reg.access_RW (r : Reg) : r.access = .RW ↔
    r.index = 0x05 ∨ r.index = 0x30 ∨ r.index = 0x31 ∨ 0x40 ≤ r.index ∧ r.index ≤ 0x4E := by
  cases r <;> decide

/-- What a host write touches. -/
theorem State.setReg_frame (s : State) (r : Reg) (v : Word) :
    s.setReg r v =
      { s with
        status := if r = .SRC_LEN then { s.status with GIF_READY := false } else s.status
        SRC_LEN := (s.setReg r v).SRC_LEN
        lzw := (s.setReg r v).lzw
        bmp := (s.setReg r v).bmp } := by
  cases r <;> rfl

/-- A read answers the field that the table names. -/
theorem State.readIndex_of_mem {s : State} {i : Nat} {w : Word} (h : (i, w) ∈ registerTable s) : s.readIndex i = w := by
  have key : ∀ row ∈ registerTable s, s.readIndex row.1 = row.2 := by
    unfold registerTable
    simp only [List.forall_mem_append, List.forall_mem_cons, List.not_mem_nil, false_implies, implies_true]
    repeat' constructor
  exact key _ h

/-- A write sets the field that the table names, and `writableTable` is all that a write can do. -/
theorem State.writeIndex_of_mem {s t : State} {i : Nat} {v : Word} (h : (i, t) ∈ writableTable v s) :
    s.writeIndex i v = t := by
  have key : ∀ row ∈ writableTable v s, s.writeIndex row.1 v = row.2 := by
    unfold writableTable
    simp only [List.forall_mem_append, List.forall_mem_cons, List.not_mem_nil, false_implies, implies_true]
    repeat' constructor
  exact key _ h

theorem State.writeIndex_of_not_mem {s : State} {i : Nat} {v : Word} (h : i ∉ (writableTable v s).map Prod.fst) :
    s.writeIndex i v = s := by
  rw [State.writeIndex]
  cases hr : Reg.ofIndex i with
  | none => rfl
  | some r =>
    obtain rfl := Reg.index_of_ofIndex hr
    cases r <;> first | rfl | exact absurd (by simp [writableTable, Reg.index]) h

end Sys2Proof.Machine
end

