-- ==== Sys2Proof/Laws/Invariant.lean ====
section
/-! SUPPORT. The invariant at reset, after each command's start, after a host write, and after the running unit's turn. -/

namespace Sys2Proof.Machine

theorem reset_inv {cfg : Config} (h : cfg.admissible = true) : Inv (State.resetWith cfg) := by
  refine ⟨h, ?_, ?_, trivial⟩
  · have e : ∀ sp, spaceOk (State.resetWith cfg) sp := fun sp => by
      cases sp <;> exact ⟨List.Pairwise.nil, fun x hx => by cases hx⟩
    exact ⟨e _, e _, e _, e _⟩
  · refine ⟨fun e => (by cases e), fun _ => rfl, ?_, fun e => (by cases e)⟩
    exact ⟨fun e => (by cases e), fun e => absurd e (by decide : ¬ 2 ≤ (0 : Word).toNat)⟩

theorem globalTable_inv {s : State} (h : Base s) (hf : s.fault = Machine.noFault) (hr : s.status.GIF_READY = false)
    (hl : s.SRC_LEN.toNat ≤ s.cfg.SRC_CAP) (hc : s.gif.GIF_FRAME_COUNT = 0) (hw : s.gif.GIF_SCREEN_W ≠ 0)
    (hh : s.gif.GIF_SCREEN_H ≠ 0) (fl : Byte) :
    Inv (gifGlobalTable fl s) := by
  have hc' : s.gif.GIF_FRAME_COUNT.toNat = 0 := by rw [hc]; rfl
  unfold gifGlobalTable
  split
  · refine Base.toBusy (ph := .scan) ⟨h.cfg, h.mem, h.multi, h.ready⟩ hf rfl
      ⟨hl, hr, Nat.le_add_right _ _, rfl, ?_, hw, hh⟩
    show s.gif.GIF_FRAME_COUNT.toNat ≤ _
    omega
  · refine Base.toBusy (ph := .scan) ⟨h.cfg, h.mem, h.multi, h.ready⟩ hf rfl
      ⟨hl, hr, Nat.le_refl _, rfl, ?_, hw, hh⟩
    show s.gif.GIF_FRAME_COUNT.toNat ≤ _
    omega

theorem gifOpen_inv {s : State} (h : Base s) : Ends Inv (exec .gifOpen s) := by
  show Ends Inv (execGifOpen s)
  have hb : Base (commandStart 1 s) := ⟨h.cfg, h.mem, h.multi, h.ready⟩
  refine checkSrcLen_answers (fun _ => hb.toFault _ _) fun hl => ?_
  have h0 : Base (gifClear (commandStart 1 s)) :=
    ⟨h.cfg, h.mem, ⟨fun e => (by cases e), fun e => absurd e (by decide : ¬ 2 ≤ (0 : Word).toNat)⟩, fun e => by cases e⟩
  generalize hg : gifClear (commandStart 1 s) = g at h0
  have e1 : g.fault = noFault := by rw [← hg]; rfl
  have e2 : g.status.GIF_READY = false := by rw [← hg]; rfl
  have e3 : g.gif.GIF_FRAME_COUNT = 0 := by rw [← hg]; rfl
  have e4 : g.SRC_LEN.toNat ≤ g.cfg.SRC_CAP := by rw [← hg]; exact hl
  refine gifHeader_keeps (J := fun t => Base t ∧ t.fault = noFault ∧ t.status.GIF_READY = false ∧
      t.SRC_LEN.toNat ≤ t.cfg.SRC_CAP ∧ t.gif.GIF_FRAME_COUNT = 0)
    (fun t g' ht hc => ⟨⟨ht.1.cfg, ht.1.mem, ?_, fun e => ?_⟩, ht.2.1, ht.2.2.1, ht.2.2.2.1,
      hc.trans ht.2.2.2.2⟩)
    (fun c i t ht => ht.1.toFault c i) (fun _ => trivial)
    (fun fl t ht h1 h2 => globalTable_inv ht.1 ht.2.1 ht.2.2.1 ht.2.2.2.1 ht.2.2.2.2 h1 h2 fl) ⟨h0, e1, e2, e4, e3⟩
  · show t.status.MULTIFRAME = true ↔ 2 ≤ (g' t.gif).GIF_FRAME_COUNT.toNat
    rw [hc]; exact ht.1.multi
  · exact absurd (ht.2.2.1.symm.trans e) (by decide)

theorem lzwRun_inv {s : State} (h : Base s) : Ends Inv (exec .lzwRun s) := by
  show Ends Inv (execLzwRun s)
  unfold execLzwRun
  dsimp only
  split
  · exact Base.toFault (s := commandStart 3 s) ⟨h.cfg, h.mem, h.multi, h.ready⟩ _ _
  · rename_i hn
    have hw := h.wmax
    rw [show lzwStartFault (commandStart 3 s) = lzwStartFault s from rfl, lzwStartFault] at hn
    split at hn
    · cases hn
    · rename_i c1
      split at hn
      · cases hn
      · rename_i c2
        have hM : NMAX = 8 := rfl
        have hm : NMIN = 2 := rfl
        have h2n : 2 ^ s.lzw.LZW_N.toNat ≤ 2 ^ 8 := Nat.pow_le_pow_right (by decide) (by omega)
        have h4n : 2 ^ 2 ≤ 2 ^ s.lzw.LZW_N.toNat := Nat.pow_le_pow_right (by decide) (by omega)
        have e1 : (trunc32 (s.lzw.LZW_N.toNat + 1)).toNat = s.lzw.LZW_N.toNat + 1 := by
          rw [BitVec.toNat_ofNat, Nat.mod_eq_of_lt (by omega)]
        have e2 : (trunc32 (2 ^ s.lzw.LZW_N.toNat + 2)).toNat = 2 ^ s.lzw.LZW_N.toNat + 2 := by
          rw [BitVec.toNat_ofNat, Nat.mod_eq_of_lt (by omega)]
        refine Base.toBusy (ph := .lzw) ⟨h.cfg, h.mem, h.multi, h.ready⟩ rfl rfl
          ⟨?_, ?_, ?_, ?_, ?_, ?_, ?_, ?_, ?_, .inl ?_, ?_, ?_, ?_, .inl ⟨rfl, ?_⟩, rfl⟩
        · show 2 ≤ s.lzw.LZW_N.toNat; omega
        · show s.lzw.LZW_N.toNat ≤ 8; omega
        · show s.lzw.LZW_CLEN.toNat ≤ s.cfg.CBUF_CAP; omega
        · show s.lzw.LZW_CLEN.toNat < 2 ^ 29; omega
        · exact Nat.zero_le _
        · show 2 ^ s.lzw.LZW_N.toNat + 2 ≤ (trunc32 (2 ^ s.lzw.LZW_N.toNat + 2)).toNat; omega
        · show (trunc32 (2 ^ s.lzw.LZW_N.toNat + 2)).toNat < 2 ^ (trunc32 (s.lzw.LZW_N.toNat + 1)).toNat
          rw [e1, e2, Nat.pow_succ]; omega
        · show s.lzw.LZW_N.toNat + 1 ≤ (trunc32 (s.lzw.LZW_N.toNat + 1)).toNat; omega
        · show (trunc32 (s.lzw.LZW_N.toNat + 1)).toNat ≤ s.cfg.WMAX + 1; omega
        · exact e1
        · show ((trunc32 (2 ^ s.lzw.LZW_N.toNat + 2)).toNat - (2 ^ s.lzw.LZW_N.toNat + 2)) * _ ≤ 0
          rw [e2, Nat.sub_self, Nat.zero_mul]
        · exact Nat.zero_le _
        · show dictOk s.lzw.LZW_N.toNat (trunc32 (2 ^ s.lzw.LZW_N.toNat + 2)).toNat (literals (2 ^ s.lzw.LZW_N.toNat))
          rw [e2]; exact dictOk_literals _
        · exact e2

theorem command_inv {s : State} (h : Base s) (c : Word) : Ends Inv (exec (decodeCommand c) s) := by
  have hb : ∀ c, Base (commandStart c s) := fun c => ⟨h.cfg, h.mem, h.multi, h.ready⟩
  unfold decodeCommand
  split
  · exact (hb 0).toDone rfl
  split
  · exact gifOpen_inv h
  split
  · show Ends Inv (execGifConcat s)
    refine checkSrcLen_answers (fun _ => (hb 2).toFault _ _) fun hl => ?_
    split
    · exact (hb 2).toFault _ _
    · rename_i hr
      split
      · exact (hb 2).toFault _ _
      · rename_i hc
        refine Base.toBusy (ph := .concat) ⟨h.cfg, h.mem, h.multi, h.ready⟩ rfl rfl
          ⟨hl, ?_, hc, rfl, Nat.zero_le _, Nat.zero_le _⟩
        simpa using hr
  split
  · exact lzwRun_inv h
  split
  · show Ends Inv (execBmpRender s)
    refine checkSrcLen_answers (fun _ => (hb 4).toFault _ _) fun hl => ?_
    split
    · exact (hb 4).toFault _ _
    · rename_i hn
      refine Base.toBusy (ph := .bmp) ⟨h.cfg, h.mem, h.multi, h.ready⟩ rfl rfl ⟨hl, hn, ?_, ?_, rfl⟩
      all_goals
        rw [bmpStartFault] at hn
        split at hn
        · cases hn
        · rw [geometryFault] at hn
          split at hn
          · cases hn
          · rename_i hz
            rw [not_or] at hz
            first
              | exact Nat.pos_of_ne_zero hz.1
              | exact Nat.pos_of_ne_zero hz.2
  · exact (hb c).toFault _ _

theorem setReg_inv {s : State} (h : Inv s) (hb : s.busy = false) (r : Reg) (v : Word) : Inv (s.setReg r v) := by
  have triv : ∀ t : State, t.status.STATE = s.status.STATE → unitOk t t.status.STATE := fun t ht => by
    rw [ht]
    rw [State.busy] at hb
    cases hs : s.status.STATE <;> rw [hs] at hb <;> trivial
  have B := h.base
  cases r <;> first
    | exact h
    | exact ⟨B.cfg, B.mem, h.status, triv _ rfl⟩
    | exact ⟨B.cfg, B.mem, ⟨h.status.1, h.status.2.1, B.multi, fun e => by cases e⟩, triv _ rfl⟩

theorem running_inv {u t : State} (hi : Inv u) (ht : ran (fetchRunning u) = .next t) : Inv t := by
  cases hb : u.busy with
  | true => exact ((unit_goes hi hb).next ht).1
  | false => rw [fetchRunning_waits hb] at ht; cases ht; exact hi

end Sys2Proof.Machine
end

