-- ==== Sys2Proof/Laws/Keeps.lean ====
section
/-! SUPPORT. What no meaning and no step can do, in any state: change a parameter, clear `STICKY_FAULT` without a reset, or show the
host a state between the one before a command and the one after. -/

namespace Sys2Proof.Machine

/-- No meaning changes a parameter or clears `STICKY_FAULT` (rule R272): and none touches `statusBefore`: it keeps every
property of states that holds on with these three alone. -/
theorem exec_keeps {J : State → Prop}
    (hw : ∀ (t u : State), J t → u.cfg = t.cfg → u.statusBefore = t.statusBefore →
      (t.status.STICKY_FAULT = true → u.status.STICKY_FAULT = true) → J u)
    (i : Instr) {s : State} (hJ : J s) : Ends J (exec i s) := by
  have hf : ∀ c i t, J t → J (faultEntry c i t) := fun c i t ht => hw t _ ht rfl rfl fun _ => rfl
  have id' : ∀ (t u : State), J t → u.cfg = t.cfg → u.statusBefore = t.statusBefore →
      u.status.STICKY_FAULT = t.status.STICKY_FAULT → J u := fun t u h1 h2 h3 h4 => hw t u h1 h2 h3 fun h => h4.trans h
  have hcs : ∀ c, J (commandStart c s) := fun c => id' s _ hJ rfl rfl rfl
  have r8 : ∀ {c : Cause} {a : Nat} {t : State} {k : Byte → Out}, J t → (∀ b, Ends J (k b)) → Ends J (srcRead c a t k) :=
    fun ht hk => srcRead_answers (fun _ => hf _ _ _ ht) (fun _ _ => trivial) fun b _ _ => hk b
  have r16 : ∀ {c : Cause} {a : Nat} {t : State} {k : Nat → Out}, J t → (∀ b, Ends J (k b)) → Ends J (srcRead16 c a t k) :=
    fun ht hk => srcRead16_answers (fun _ => hf _ _ _ ht) (fun _ _ _ => trivial) fun b _ _ => hk b
  have em : ∀ {bs : List Byte} {t : State} {k : State → Out}, J t → (∀ t, J t → Ends J (k t)) → Ends J (emit bs t k) :=
    fun ht hk => emit_keeps ht (fun b t ht => id' t _ ht rfl rfl rfl) (fun i t ht => hf _ i t ht) hk
  have dr : ∀ {c : Nat} {t : State} {k : Str → Out}, (∀ x, Ends J (k x)) → Ends J (dictRead c t k) :=
    fun hk => dictRead_answers (fun _ => trivial) fun x _ => hk x
  have rp : ∀ {pixel : Nat → Nat → State → (Cell → Out) → Out},
     pixel ∈ [pixelP1, pixelP4, pixelP8, pixelRgb555, pixelBf16, pixelBgr24, pixelBgra32, pixelBf32] →
      Ends J (renderPixel pixel s) := fun hp => by
    have hn : ∀ fr col t, J t → J (bmpNext fr col t) := fun fr col t ht =>
      id' t _ ht (by rw [bmpNext_frame]) (by rw [bmpNext_frame]) (by unfold bmpNext; split; rfl; split <;> rfl)
    refine pixel_answers (fun _ _ => hf _ _ _ hJ) (fun _ _ _ => trivial) (fun px => ?_) hp
    split
    · exact sinkWrite_answers (fun _ => hf _ _ _ hJ) fun _ => hn _ _ _ (id' s _ hJ rfl rfl rfl)
    · exact hn _ _ _ hJ
  cases i with
  | nop => exact id' s _ hJ rfl rfl rfl
  | cmdReserved c => exact hf _ _ _ (hcs _)
  | gifOpen =>
    show Ends J (execGifOpen s)
    refine checkSrcLen_answers (fun _ => hf _ _ _ (hcs 1)) fun _ => ?_
    refine gifHeader_keeps (J := J) (fun t g ht _ => id' t _ ht rfl rfl rfl) hf (fun _ => trivial)
      (fun fl t ht _ _ => ?_) (id' s _ hJ rfl rfl rfl)
    unfold gifGlobalTable
    split <;> exact id' t _ ht rfl rfl rfl
  | gifConcat =>
    show Ends J (execGifConcat s)
    refine checkSrcLen_answers (fun _ => hf _ _ _ (hcs 2)) fun _ => ?_
    split
    · exact hf _ _ _ (hcs 2)
    · split
      · exact hf _ _ _ (hcs 2)
      · exact id' s _ hJ rfl rfl rfl
  | lzwRun =>
    show Ends J (execLzwRun s)
    unfold execLzwRun
    dsimp only
    split
    · exact hf _ _ _ (hcs 3)
    · exact id' s _ hJ rfl rfl rfl
  | bmpRender =>
    show Ends J (execBmpRender s)
    refine checkSrcLen_answers (fun _ => hf _ _ _ (hcs 4)) fun _ => ?_
    split
    · exact hf _ _ _ (hcs 4)
    · exact id' s _ hJ rfl rfl rfl
  | lzwClear => exact id' s _ hJ rfl rfl rfl
  | lzwEoi => exact id' s _ hJ rfl rfl rfl
  | lzwFirst v => exact em hJ fun t ht => id' t _ ht rfl rfl rfl
  | lzwDict v => exact dr fun cur => em hJ fun t ht => dr fun prev => id' t _ ht rfl rfl rfl
  | lzwKwkwk => exact dr fun prev => em hJ fun t ht => id' t _ ht rfl rfl rfl
  | lzwRange v => exact hf _ _ _ hJ
  | gifImage =>
    exact gifImage_answers (fun i f0 => hf _ i _ (id' s _ hJ rfl rfl rfl)) (fun _ _ _ => trivial) fun f0 q _ _ =>
      id' s _ hJ rfl rfl rfl
  | gifTrailer => exact id' s _ hJ rfl rfl rfl
  | gifBadsep b => exact hf _ _ _ hJ
  | gifSubblock len =>
    show Ends J (execGifSubblock len s)
    unfold execGifSubblock
    dsimp only
    split
    · exact copyData_answers (J := J) hJ (fun off b t ht _ => id' t _ ht rfl rfl rfl) hf (fun _ _ _ _ _ => trivial)
        fun t ht _ _ _ => id' t _ ht rfl rfl rfl
    · exact id' s _ hJ rfl rfl rfl
  | gifTerminator =>
    show Ends J (execGifTerminator s)
    unfold execGifTerminator
    dsimp only
    split
    · exact id' s _ hJ rfl rfl rfl
    · refine id' s _ hJ ?_ ?_ ?_ <;> (unfold frameEnd; dsimp only; split <;> rfl)
  | bmpP1 => exact rp (pixel := pixelP1) (by simp)
  | bmpP4 => exact rp (pixel := pixelP4) (by simp)
  | bmpP8 => exact rp (pixel := pixelP8) (by simp)
  | bmpRgb555 => exact rp (pixel := pixelRgb555) (by simp)
  | bmpBf16 => exact rp (pixel := pixelBf16) (by simp)
  | bmpBgr24 => exact rp (pixel := pixelBgr24) (by simp)
  | bmpBgra32 => exact rp (pixel := pixelBgra32) (by simp)
  | bmpBf32 => exact rp (pixel := pixelBf32) (by simp)
  | bmpIllegal bpp comp =>
    show Ends J (execBmpIllegal bpp comp s)
    unfold execBmpIllegal
    split
    · exact hf _ _ _ hJ
    · trivial

/-- `GSC`'s fetch, for what every next state satisfies. -/
theorem gsc_ends {J : State → Prop} {site : Site} {s : State} (hf : ∀ c i, J (faultEntry c i s))
    (hk : ∀ b, Ends J (ran (.instr site [b] s))) : Ends J (ran (fetchGsc site s)) := by
  unfold fetchGsc
  split
  · exact hf _ _
  · split
    · trivial
    · exact hk _

/-- `LZWD`'s fetch, for what every next state satisfies. -/
theorem code_ends {J : State → Prop} {s : State} (hs : J (stop s)) (hf : ∀ c i, J (faultEntry c i s))
    (hk : ∀ v, Ends J (exec (decodeCode (codeCtx s) v) (pastCode s))) :
    Ends J (ran (fetchCode s)) := by
  unfold fetchCode
  dsimp only
  split
  · exact hs
  · split
    · exact hf _ _
    · split
      · trivial
      · rename_i bs hb
        rw [ran_code (cbufBytes_ok hb).1]
        exact hk _

theorem running_keeps {J : State → Prop}
    (hw : ∀ (t u : State), J t → u.cfg = t.cfg → u.statusBefore = t.statusBefore →
      (t.status.STICKY_FAULT = true → u.status.STICKY_FAULT = true) → J u)
    {s : State} (hJ : J s) : Ends J (ran (fetchRunning s)) := by
  unfold fetchRunning
  split
  · exact hJ
  · rename_i ph _
    cases ph with
    | start => trivial
    | scan => exact gsc_ends (fun c i => hw s _ hJ rfl rfl fun _ => rfl) fun b => exec_keeps hw _ hJ
    | skip => exact gsc_ends (fun c i => hw s _ hJ rfl rfl fun _ => rfl) fun b => exec_keeps hw _ hJ
    | concat => exact gsc_ends (fun c i => hw s _ hJ rfl rfl fun _ => rfl) fun b => exec_keeps hw _ hJ
    | lzw =>
      exact code_ends (hw s _ hJ rfl rfl id) (fun c i => hw s _ hJ rfl rfl fun _ => rfl) fun v => exec_keeps hw _ (hw s _ hJ rfl rfl id)
    | bmp => rw [fetchUnit, ran_mode]; exact exec_keeps hw _ hJ
  · exact hJ
  · exact hJ

/-- No step changes a parameter or clears `STICKY_FAULT`, reset apart. -/
theorem step_keeps {J : State → Prop}
    (hw : ∀ (t u : State), J t → u.cfg = t.cfg → (t.status.STICKY_FAULT = true → u.status.STICKY_FAULT = true) → J u)
    {s t : State} (hJ : J s) (hr : ∀ rest, s.host ≠ .reset :: rest) (ht : step s = .next t) : J t := by
  rw [step_eq, fetch] at ht
  have hw' : ∀ (t u : State), J t → u.cfg = t.cfg → u.statusBefore = t.statusBefore →
      (t.status.STICKY_FAULT = true → u.status.STICKY_FAULT = true) → J u := fun t u h1 h2 _ h3 => hw t u h1 h2 h3
  have h' : ∀ rest d, J { s with host := rest, hostData := d } := fun rest d => hw s _ hJ rfl id
  have h'' : ∀ rest, J { s with host := rest } := fun rest => h' rest s.hostData
  cases hh : s.host with
  | nil => rw [hh] at ht; exact (running_keeps hw' hJ).next ht
  | cons a rest =>
    rw [hh] at ht
    cases a with
    | wait => exact (running_keeps hw' (h'' rest)).next ht
    | poll =>
      dsimp only at ht
      split at ht
      · exact (running_keeps hw' hJ).next ht
      · cases ht; exact h' _ _
    | writeReg i v =>
      simp only [hostWriteReg] at ht
      split at ht
      · cases ht; exact h'' _
      · split at ht
        · rw [ran_command] at ht
          exact (exec_keeps (J := J) hw' _ (hw { s with host := rest } (State.keepStatus { s with host := rest }) (h'' rest) rfl id)).next ht
        · cases ht
          rw [State.writeIndex]
          split
          · exact h'' _
          · rename_i r _
            rw [State.setReg_frame]
            refine hw _ _ (h'' rest) rfl fun h => ?_
            dsimp only at h ⊢
            split <;> exact h
    | readReg i =>
      simp only [hostReadReg, ran_effect] at ht
      split at ht
      · split at ht
        · cases ht; exact h' _ _
        · cases ht
      · cases ht; exact h' _ _
    | writeMem sp off b =>
      simp only [hostWriteMem, ran_effect] at ht
      split at ht
      · cases ht
      · split at ht
        · cases ht
        · cases ht
          refine hw _ _ (h'' rest) ?_ ?_ <;> cases sp <;> first | rfl | exact id
    | readMem sp off =>
      simp only [hostReadMem, ran_effect] at ht
      split at ht
      · cases ht
      · split at ht
        · cases ht
        · split at ht
          · cases ht
          · cases ht; exact h' _ _
    | reset => exact absurd hh (hr rest)

/-- A step from one state of a running command to another keeps what `STATUS` was before the command (rule R132). -/
theorem step_statusBefore {s t : State} (hs : s.busy = true) (ht : step s = .next t) (hb : t.busy = true) :
    t.statusBefore = s.statusBefore := by
  have run : ∀ u : State, u.statusBefore = s.statusBefore → ran (fetchRunning u) = .next t →
      t.statusBefore = s.statusBefore := fun u hu h =>
    (running_keeps (J := fun v => v.statusBefore = s.statusBefore) (fun v w h1 _ h2 _ => h2.trans h1) hu).next h
  rw [step_eq, fetch] at ht
  cases hh : s.host with
  | nil => rw [hh] at ht; exact run s rfl ht
  | cons a rest =>
    have hs' : State.busy { s with host := rest } = true := hs
    rw [hh] at ht
    cases a with
    | wait => exact run { s with host := rest } rfl ht
    | poll => simp only [hs, if_true] at ht; exact run s rfl ht
    | writeReg i v => simp only [hostWriteReg, hs', if_true, ran_effect] at ht; cases ht; rfl
    | readReg i =>
      simp only [hostReadReg, hs', if_true, ran_effect] at ht
      split at ht <;> cases ht
      rfl
    | writeMem sp off b => simp only [hostWriteMem, hs', if_true, ran_effect] at ht; cases ht
    | readMem sp off => simp only [hostReadMem, hs', if_true, ran_effect] at ht; cases ht
    | reset => cases ht; cases hb

/-- The step that takes a write to `CMD` keeps `STATUS` as it stood (rule R132). -/
theorem step_command_statusBefore {s t : State} {c : Word} {rest : List HostAction} (hb : s.busy = false)
    (hh : s.host = .writeReg 0 c :: rest) (ht : step s = .next t) : t.statusBefore = s.status := by
  rw [step_command hb hh] at ht
  exact (exec_keeps (J := fun v => v.statusBefore = s.status) (fun v w h1 _ h2 _ => h2.trans h1) _ rfl).next ht

/-- As long as a command runs, what `STATUS` was before it is kept. -/
theorem run_statusBefore : ∀ (k : Nat) (s t : State), (∀ j ≤ k, ∀ v, core.run j s = .next v → v.busy = true) →
    core.run k s = .next t → t.statusBefore = s.statusBefore
  | 0, s, t, _, h => by cases h; rfl
  | k + 1, s, t, hb, h => by
    obtain ⟨u, h1, h2⟩ := core_run_succ_eq_next h
    have hu : u.busy = true := hb 1 (by omega) u (core_run_next (k := 0) h1)
    rw [run_statusBefore k u t (fun j hj v hv => hb (j + 1) (by omega) v ((core_run_next h1).trans hv)) h2]
    exact step_statusBefore (hb 0 (by omega) s rfl) h1 hu

end Sys2Proof.Machine
end

