-- ==== Sys2Proof/Laws/PerInstr.lean ====
section
/-! SUPPORT. Statements made per instruction. `EncodeLen`: an instruction's encoding has the number of bytes its site has. -/

namespace Sys2Proof.Laws.EncodeLen

open Sys2Proof

/-- Wherever the instruction is well-formed, its encoding is as long as the site needs (30_encoding.md). -/
def Statement (i : Instr) : Prop := ∀ site : Site, i.wf site = true → (encode site i).length = site.byteLen

theorem of_command {site : Site} (h : site.isCommand = true) (c : Nat) : (encodeWord c).length = site.byteLen := by
  cases site <;> first | rfl | cases h

theorem of_byte {site : Site} (h : site.isSeparator = true ∨ site.isLength = true) (b : Byte) : [b].length = site.byteLen := by
  cases site <;> first | rfl | (rcases h with h | h <;> cases h)

theorem of_mode {site : Site} (h : site.isMode = true) (a b c d e : Nat) : (encodeMode a b c d e).length = site.byteLen := by
  cases site <;> first | rfl | cases h

theorem beBytes_length (m v : Nat) : (beBytes m v).length = m := by
  induction m with
  | zero => rfl
  | succ m ih => simp only [beBytes, List.length_cons, ih]

theorem of_code {site : Site} {p : CodeCtx → Bool} (h : site.isCode p = true) (v : CodeCtx → Nat) :
    (encodeCode site v).length = site.byteLen := by
  cases site <;> first | exact beBytes_length _ _ | cases h

theorem nop : Statement .nop := fun _ h => of_command h _
theorem gifOpen : Statement .gifOpen := fun _ h => of_command h _
theorem gifConcat : Statement .gifConcat := fun _ h => of_command h _
theorem lzwRun : Statement .lzwRun := fun _ h => of_command h _
theorem bmpRender : Statement .bmpRender := fun _ h => of_command h _
theorem cmdReserved (c : Word) : Statement (.cmdReserved c) := fun _ h => of_command ((Bool.and_eq_true _ _).mp h).1 _
theorem lzwClear : Statement .lzwClear := fun _ h => of_code h _
theorem lzwEoi : Statement .lzwEoi := fun _ h => of_code h _
theorem lzwFirst (v : Nat) : Statement (.lzwFirst v) := fun _ h => of_code h _
theorem lzwDict (v : Nat) : Statement (.lzwDict v) := fun _ h => of_code h _
theorem lzwKwkwk : Statement .lzwKwkwk := fun _ h => of_code h _
theorem lzwRange (v : Nat) : Statement (.lzwRange v) := fun _ h => of_code h _
theorem gifImage : Statement .gifImage := fun _ h => of_byte (.inl h) _
theorem gifTrailer : Statement .gifTrailer := fun _ h => of_byte (.inl h) _
theorem gifBadsep (b : Byte) : Statement (.gifBadsep b) := fun _ h => of_byte (.inl ((Bool.and_eq_true _ _).mp ((Bool.and_eq_true _ _).mp h).1).1) _
theorem gifSubblock (len : Byte) : Statement (.gifSubblock len) := fun _ h => of_byte (.inr ((Bool.and_eq_true _ _).mp h).1) _
theorem gifTerminator : Statement .gifTerminator := fun _ h => of_byte (.inr h) _
theorem bmpP1 : Statement .bmpP1 := fun _ h => of_mode h _ _ _ _ _
theorem bmpP4 : Statement .bmpP4 := fun _ h => of_mode h _ _ _ _ _
theorem bmpP8 : Statement .bmpP8 := fun _ h => of_mode h _ _ _ _ _
theorem bmpRgb555 : Statement .bmpRgb555 := fun _ h => of_mode h _ _ _ _ _
theorem bmpBf16 : Statement .bmpBf16 := fun _ h => of_mode h _ _ _ _ _
theorem bmpBgr24 : Statement .bmpBgr24 := fun _ h => of_mode h _ _ _ _ _
theorem bmpBgra32 : Statement .bmpBgra32 := fun _ h => of_mode h _ _ _ _ _
theorem bmpBf32 : Statement .bmpBf32 := fun _ h => of_mode h _ _ _ _ _
theorem bmpIllegal (bpp comp : Word) : Statement (.bmpIllegal bpp comp) := fun _ h => of_mode ((Bool.and_eq_true _ _).mp h).1 _ _ _ _ _

end Sys2Proof.Laws.EncodeLen
end

