-- ==== Sys2Proof/Laws/Prefix.lean ====
section
/-! SUPPORT. The prefix-table decoder of rule R238 beside the machine: its strings, and one code of both. -/

namespace Sys2Proof.Machine

namespace PrefixLzw

/-- The walked string of a code depends on the entries before it only, and on no fuel above it. -/
theorem string_ext {m m' : PrefixLzw} (hn : m'.n = m.n) {l : List (Nat × Byte)} (ht : m'.table = m.table ++ l)
    (hp : ∀ i p b, m.table[i]? = some (p, b) → p < 2 ^ m.n + 2 + i ∧ (p < 2 ^ m.n ∨ 2 ^ m.n + 2 ≤ p)) (c : Nat) :
    c < m.next → (c < 2 ^ m.n ∨ 2 ^ m.n + 2 ≤ c) → ∀ k k', c < k → c < k' → m'.string k' c = m.string k c := by
  induction c using Nat.strongRecOn with
  | ind c ih =>
    intro hc hd k k' hk hk'
    obtain ⟨k, rfl⟩ : ∃ j, k = j + 1 := ⟨k - 1, by omega⟩
    obtain ⟨k', rfl⟩ : ∃ j, k' = j + 1 := ⟨k' - 1, by omega⟩
    simp only [string, hn]
    by_cases h1 : c < 2 ^ m.n
    · rw [if_pos h1, if_pos h1]
    · rw [if_neg h1, if_neg h1]
      simp only [next] at hc
      have hi : c - (2 ^ m.n + 2) < m.table.length := by omega
      rw [ht, List.getElem?_append_left hi, List.getElem?_eq_getElem hi]
      rcases hpb : m.table[c - (2 ^ m.n + 2)] with ⟨p, b⟩
      have := hp _ p b (by rw [List.getElem?_eq_getElem hi, hpb])
      simp only
      rw [ih p (by omega) (by simp only [next]; omega) this.2 k k' (by omega) (by omega)]

/-- Before the first code. -/
theorem start_stands {s t : State} (h : execLzwRun s = .next t) (hs : lzwStartFault s = none) :
    (start s.lzw.LZW_N.toNat).Stands t := by
  have hM : NMAX = 8 := rfl
  have hm : NMIN = 2 := rfl
  have hN : s.lzw.LZW_N.toNat ≤ 8 := by
    rw [lzwStartFault] at hs
    split at hs
    · cases hs
    · split at hs
      · cases hs
      · omega
  have h2n : 2 ^ s.lzw.LZW_N.toNat ≤ 2 ^ 8 := Nat.pow_le_pow_right (by decide) hN
  unfold execLzwRun at h
  dsimp only at h
  rw [show lzwStartFault (commandStart 3 s) = none from hs] at h
  cases h
  refine ⟨rfl, ?_, ?_, rfl, fun c x hx => ?_, fun i p b hb => by simp [start] at hb, rfl, fun a ha => absurd ha (Nat.not_lt_zero a)⟩
  · show _ = (trunc32 (s.lzw.LZW_N.toNat + 1)).toNat
    rw [BitVec.toNat_ofNat, Nat.mod_eq_of_lt (by omega)]; rfl
  · show _ = (trunc32 (2 ^ s.lzw.LZW_N.toNat + 2)).toNat
    rw [BitVec.toNat_ofNat, Nat.mod_eq_of_lt (by omega)]; rfl
  · have hx : Table.get (literals (2 ^ s.lzw.LZW_N.toNat)) c = some x := hx
    rw [literals_get] at hx
    split at hx
    · rename_i hc
      cases hx
      show (if c < 2 ^ s.lzw.LZW_N.toNat then _ else _) = _
      rw [if_pos hc]
      rfl
    · cases hx

variable {m : PrefixLzw} {s : State}

/-- The state after a clear code. -/
theorem clear_stands (hk : lzwOk s) (h : m.Stands s) : (m.code (2 ^ m.n)).Stands (dictReset (pastCode s)) := by
  have hN : s.lzw.LZW_N.toNat ≤ 8 := hk.2.1
  have h2n : 2 ^ s.lzw.LZW_N.toNat ≤ 2 ^ 8 := Nat.pow_le_pow_right (by decide) hN
  rw [code, if_pos rfl]
  refine ⟨h.n, ?_, ?_, rfl, fun c x hx => ?_, fun i p b hb => by simp at hb, h.olen, h.out⟩
  · show m.n + 1 = (trunc32 (s.lzw.LZW_N.toNat + 1)).toNat
    rw [BitVec.toNat_ofNat, Nat.mod_eq_of_lt (by omega), h.n]
  · show 2 ^ m.n + 2 + 0 = (trunc32 (2 ^ s.lzw.LZW_N.toNat + 2)).toNat
    rw [BitVec.toNat_ofNat, Nat.mod_eq_of_lt (by omega), h.n]
  · have hx : Table.get (literals (2 ^ s.lzw.LZW_N.toNat)) c = some x := hx
    rw [literals_get] at hx
    split at hx
    · rename_i hc
      cases hx
      show (if c < 2 ^ m.n then _ else _) = _
      rw [h.n, if_pos hc]
      rfl
    · cases hx

/-- Where the appended bytes are, beside the decoder's output. -/
theorem out_append {out bs : List Byte} {t : State} (hl : s.lzw.LZW_OLEN.toNat = out.length)
    (ho : ∀ a < out.length, s.byteAt .obuf a = out[a]?) (hb : s.lzw.LZW_OLEN.toNat + bs.length < 2 ^ 32)
    (ht : t.obuf = (emitted bs (pastCode s)).obuf) : ∀ a < (out ++ bs).length, t.byteAt .obuf a = (out ++ bs)[a]? := by
  intro a ha
  have e : t.byteAt .obuf a = (emitted bs (pastCode s)).byteAt .obuf a := by simp only [State.byteAt, State.mem, ht]
  rw [List.length_append] at ha
  rw [e, emitted_byteAt _ _ (by exact hb)]
  show (if s.lzw.LZW_OLEN.toNat ≤ a ∧ a < s.lzw.LZW_OLEN.toNat + bs.length then bs[a - s.lzw.LZW_OLEN.toNat]?
    else s.byteAt .obuf a) = _
  by_cases h : out.length ≤ a
  · rw [if_pos (by omega), List.getElem?_append_right h, hl]
  · rw [if_neg (by omega), List.getElem?_append_left (by omega), ho a (by omega)]

/-- The state after a first code. -/
theorem first_stands (hk : lzwOk s) (h : m.Stands s) (hn : s.lzw.LZW_PREV = NONE) {v : Nat} (hv : v < 2 ^ m.n)
    (ho : s.lzw.LZW_OLEN.toNat + 1 < 2 ^ 32) : (m.code v).Stands (lzwRemember v (emitted [trunc8 v] (pastCode s))) := by
  have hN : s.lzw.LZW_N.toNat ≤ 8 := hk.2.1
  have h2n : 2 ^ s.lzw.LZW_N.toNat ≤ 2 ^ 8 := Nat.pow_le_pow_right (by decide) hN
  have hmn := h.n
  rw [code, if_neg (by omega), h.prev, if_pos hn]
  dsimp only
  have e2 : (trunc32 v).toNat = v := by rw [BitVec.toNat_ofNat, Nat.mod_eq_of_lt (by rw [hmn] at hv; omega)]
  have hob := out_append (s := s) (t := lzwRemember v (emitted [trunc8 v] (pastCode s))) h.olen h.out
    (bs := [trunc8 v]) ho rfl
  rw [emitted_frame] at hob ⊢
  refine ⟨h.n, h.w, h.next, ?_, fun c x hx => ?_, h.prefixes, ?_, hob⟩
  · show some v = if trunc32 v = NONE then none else some (trunc32 v).toNat
    rw [if_neg, e2]
    intro e
    have := congrArg BitVec.toNat e
    rw [e2, show NONE.toNat = 4294967295 from rfl] at this
    rw [hmn] at hv
    omega
  · have hd := dictOk_get hk.2.2.2.2.2.2.2.2.2.2.2.2.1 hk.2.2.2.2.2.1 (c := c) (x := x) hx
    rw [← h.string c x hx]
    exact string_ext (m := m) (l := []) (m' := { m with prev := some v, out := m.out ++ [trunc8 v] }) rfl (by simp) h.prefixes
      c (by rw [h.next]; exact hd.1) (by rw [h.n]; exact hd.2) _ _
      (Nat.lt_succ_self _) (Nat.lt_succ_self _)
  · show (trunc32 (s.lzw.LZW_OLEN.toNat + 1)).toNat = (m.out ++ [trunc8 v]).length
    rw [BitVec.toNat_ofNat, Nat.mod_eq_of_lt ho, h.olen, List.length_append]; rfl

/-- The state after a code that emits and inserts. -/
theorem insert_stands (hk : lzwOk s) (h : m.Stands s) {cur prev : Str} {v : Nat}
    (hprev : Table.get s.dict s.lzw.LZW_PREV.toNat = some prev) (hv : v ≤ s.lzw.LZW_NEXT.toNat)
    (hp : s.lzw.LZW_BITPOS.toNat + s.lzw.LZW_W.toNat ≤ 8 * s.lzw.LZW_CLEN.toNat)
    (ho : s.lzw.LZW_OLEN.toNat + cur.toList.length < 2 ^ 32) :
    ({ m with
        w := if m.next + 1 = 2 ^ m.w then m.w + 1 else m.w
        prev := some v
        table := m.table ++ [(s.lzw.LZW_PREV.toNat, cur.head)]
        out := m.out ++ cur.toList } : PrefixLzw).Stands
      (lzwRemember v (dictInsert (prev.snoc cur.head) (emitted cur.toList (pastCode s)))) := by
  have hlt := next_lt hk
  have hd := hk.2.2.2.2.2.2.2.2.2.2.2.2.1
  have hnx := hk.2.2.2.2.2.1
  have h29 := hk.2.2.2.1
  have hmn := h.n
  have hmx : 2 ^ m.n + 2 + m.table.length = s.lzw.LZW_NEXT.toNat := h.next
  have hdp := dictOk_get hd hnx hprev
  have e2 : (trunc32 v).toNat = v := by rw [BitVec.toNat_ofNat, Nat.mod_eq_of_lt (by omega)]
  have e3 : (trunc32 (s.lzw.LZW_NEXT.toNat + 1)).toNat = s.lzw.LZW_NEXT.toNat + 1 := by
    rw [BitVec.toNat_ofNat, Nat.mod_eq_of_lt (by omega)]
  have e4 : (trunc32 (s.lzw.LZW_W.toNat + 1)).toNat = s.lzw.LZW_W.toNat + 1 := by
    rw [BitVec.toNat_ofNat, Nat.mod_eq_of_lt (by omega)]
  have hob := out_append (s := s) (t := lzwRemember v (dictInsert (prev.snoc cur.head) (emitted cur.toList (pastCode s))))
    h.olen h.out (bs := cur.toList) ho rfl
  rw [emitted_frame] at hob ⊢
  generalize (emitted cur.toList (pastCode s)).obuf = ob at hob ⊢
  refine ⟨h.n, ?_, ?_, ?_, fun c x hx => ?_, fun i p b hb => ?_, ?_, hob⟩
  · show (if m.next + 1 = 2 ^ m.w then m.w + 1 else m.w) =
      (if s.lzw.LZW_NEXT.toNat + 1 = 2 ^ s.lzw.LZW_W.toNat then trunc32 (s.lzw.LZW_W.toNat + 1) else s.lzw.LZW_W).toNat
    rw [h.next, h.w]
    split
    · rw [e4]
    · rfl
  · show 2 ^ m.n + 2 + (m.table ++ [(s.lzw.LZW_PREV.toNat, cur.head)]).length = (trunc32 (s.lzw.LZW_NEXT.toNat + 1)).toNat
    rw [e3, List.length_append, List.length_singleton]
    omega
  · show some v = if trunc32 v = NONE then none else some (trunc32 v).toNat
    rw [if_neg, e2]
    intro e
    have := congrArg BitVec.toNat e
    rw [e2, show NONE.toNat = 4294967295 from rfl] at this
    omega
  · have old : ∀ c x, Table.get s.dict c = some x → ∀ k, c < k → PrefixLzw.string
        { m with
          w := if m.next + 1 = 2 ^ m.w then m.w + 1 else m.w
          prev := some v
          table := m.table ++ [(s.lzw.LZW_PREV.toNat, cur.head)]
          out := m.out ++ cur.toList } k c = x.toList := fun c x hx k hck => by
      have hdc := dictOk_get hd hnx hx
      rw [← h.string c x hx]
      exact string_ext (m := m) (l := [(s.lzw.LZW_PREV.toNat, cur.head)]) (m' := { m with
          w := if m.next + 1 = 2 ^ m.w then m.w + 1 else m.w
          prev := some v
          table := m.table ++ [(s.lzw.LZW_PREV.toNat, cur.head)]
          out := m.out ++ cur.toList }) rfl rfl h.prefixes c (by rw [h.next]; exact hdc.1) (by rw [h.n]; exact hdc.2) _ _
        (Nat.lt_succ_self _) hck
    have hx : Table.get (Table.set s.dict s.lzw.LZW_NEXT.toNat (prev.snoc cur.head)) c = some x := hx
    rw [Table.get_set] at hx
    split at hx
    · rename_i hc
      cases hx
      have hidx : c - (2 ^ m.n + 2) = m.table.length := by omega
      rw [string]
      simp only
      rw [if_neg (by omega), hidx, List.getElem?_append_right (Nat.le_refl _), Nat.sub_self]
      simp only [List.getElem?_cons_zero]
      rw [old _ _ hprev c (by omega), Str.snoc_toList]
    · exact old c x hx _ (Nat.lt_succ_self _)
  · simp only at hb
    by_cases hi : i < m.table.length
    · rw [List.getElem?_append_left hi] at hb
      exact h.prefixes i p b hb
    · rw [List.getElem?_append_right (by omega)] at hb
      have h0 : i - m.table.length = 0 := by
        by_contra h0
        obtain ⟨j, hj⟩ := Nat.exists_eq_succ_of_ne_zero h0
        rw [hj] at hb
        simp at hb
      rw [h0] at hb
      simp only [List.getElem?_cons_zero, Option.some.injEq, Prod.mk.injEq] at hb
      obtain ⟨rfl, -⟩ := hb
      show _ < 2 ^ m.n + 2 + i ∧ (_ < 2 ^ m.n ∨ 2 ^ m.n + 2 ≤ _)
      rw [hmn] at hmx ⊢
      exact ⟨by omega, hdp.2⟩
  · show (trunc32 (s.lzw.LZW_OLEN.toNat + cur.toList.length)).toNat = (m.out ++ cur.toList).length
    rw [BitVec.toNat_ofNat, Nat.mod_eq_of_lt ho, h.olen, List.length_append]

/-! ### One code -/

/-- What a code leaves: the run goes on, and the decoder's next state stands for it; it has ended, and the decoder stands as
it was; or it has faulted. -/
def Follows (m : PrefixLzw) (s : State) (bits v : Nat) (t : State) : Prop :=
  (t.status.STATE = .busy .lzw ∧ s.lzw.LZW_BITPOS.toNat + s.lzw.LZW_W.toNat ≤ bits ∧ v ≠ 2 ^ m.n + 1 ∧ (m.code v).Stands t ∧
      t = { s with obuf := t.obuf, dict := t.dict, lzw := { t.lzw with
        LZW_N := s.lzw.LZW_N
        LZW_CLEN := s.lzw.LZW_CLEN
        LZW_BITPOS := trunc32 (s.lzw.LZW_BITPOS.toNat + s.lzw.LZW_W.toNat) } }) ∨
    (t.status.STATE = .done ∧ (bits < s.lzw.LZW_BITPOS.toNat + s.lzw.LZW_W.toNat ∨ v = 2 ^ m.n + 1) ∧ m.Stands t) ∨
    t.status.STATE = .fault

/-- One iteration of the fetch loop beside the decoder's. -/
theorem code_follows {f : Nat → Byte} (hi : Inv s) (hs : s.status.STATE = .busy .lzw)
    (hf : ∀ a < s.lzw.LZW_CLEN.toNat, s.byteAt .cbuf a = some (f a)) (h : m.Stands s) :
    Ends (Follows m s (8 * s.lzw.LZW_CLEN.toNat) (streamValue f s.lzw.LZW_BITPOS.toNat s.lzw.LZW_W.toNat))
      (ran (fetchCode s)) := by
  have hk : lzwOk s := hi.unitAt hs
  have hnx : 2 ^ s.lzw.LZW_N.toNat + 2 ≤ s.lzw.LZW_NEXT.toNat := hk.2.2.2.2.2.1
  have hd : dictOk s.lzw.LZW_N.toNat s.lzw.LZW_NEXT.toNat s.dict := hk.2.2.2.2.2.2.2.2.2.2.2.2.1
  have hcap := (hi.base.caps .obuf).2
  simp only [capacity] at hcap
  have hol : s.lzw.LZW_OLEN.toNat ≤ s.cfg.OBUF_CAP := hk.2.2.2.2.2.2.2.2.2.2.2.1
  have hmn := h.n
  generalize hv : streamValue f s.lzw.LZW_BITPOS.toNat s.lzw.LZW_W.toNat = v
  by_cases hp : s.lzw.LZW_BITPOS.toNat + s.lzw.LZW_W.toNat ≤ 8 * s.lzw.LZW_CLEN.toNat
  swap
  · rw [fetchCode]
    dsimp only
    rw [if_pos (by omega)]
    exact .inr (.inl ⟨rfl, .inl (by omega), ⟨h.n, h.w, h.next, h.prev, h.string, h.prefixes, h.olen, h.out⟩⟩)
  by_cases hw : s.lzw.LZW_W.toNat ≤ s.cfg.WMAX
  swap
  · rw [fetchCode]
    dsimp only
    rw [if_neg (by omega), if_pos (by omega)]
    exact .inr (.inr rfl)
  rw [ran_fetchCode_known hp hw hf, hv]
  have fault : ∀ c i t, Follows m s (8 * s.lzw.LZW_CLEN.toNat) v (faultEntry c i t) := fun c i t => .inr (.inr rfl)
  unfold decodeCode
  by_cases c1 : v = (codeCtx s).clear
  · rw [if_pos c1]
    have c1 : v = 2 ^ s.lzw.LZW_N.toNat := c1
    refine .inl ⟨hs, hp, by rw [hmn]; omega, ?_, rfl⟩
    rw [c1, ← hmn]
    exact clear_stands hk h
  rw [if_neg c1]
  by_cases c2 : v = (codeCtx s).eoi
  · rw [if_pos c2]
    have c2 : v = 2 ^ s.lzw.LZW_N.toNat + 1 := c2
    exact .inr (.inl ⟨rfl, .inr (by rw [hmn]; exact c2), ⟨h.n, h.w, h.next, h.prev, h.string, h.prefixes, h.olen, h.out⟩⟩)
  rw [if_neg c2]
  have c1 : v ≠ 2 ^ s.lzw.LZW_N.toNat := c1
  have c2 : v ≠ 2 ^ s.lzw.LZW_N.toNat + 1 := c2
  by_cases c3 : s.lzw.LZW_PREV = NONE
  · rw [if_pos (by simp [codeCtx, c3])]
    by_cases c4 : v < (codeCtx s).clear
    · rw [if_pos c4]
      have c4 : v < 2 ^ s.lzw.LZW_N.toNat := c4
      refine emit_answers hol hcap (fun _ => fault _ _ _) fun ho => ?_
      have ho : s.lzw.LZW_OLEN.toNat + 1 ≤ s.cfg.OBUF_CAP := ho
      refine .inl ⟨by rw [emitted_frame]; exact hs, hp, by rw [hmn]; exact c2, first_stands hk h c3 (by rw [hmn]; exact c4) (by omega), ?_⟩
      rw [emitted_frame]; rfl
    · rw [if_neg c4]; exact fault _ _ _
  rw [if_neg (by simp [codeCtx, c3])]
  obtain ⟨prev, hprev⟩ := prev_isSome hk c3
  have hsp : m.string (s.lzw.LZW_PREV.toNat + 1) s.lzw.LZW_PREV.toNat = prev.toList := h.string _ _ hprev
  have fin : ∀ cur : Str, s.lzw.LZW_OLEN.toNat + cur.toList.length ≤ s.cfg.OBUF_CAP → v ≤ s.lzw.LZW_NEXT.toNat →
      (if v < m.next then m.string (v + 1) v else prev.toList ++ prev.toList.take 1) = cur.toList →
      Follows m s (8 * s.lzw.LZW_CLEN.toNat) v
        (lzwRemember v (dictInsert (prev.snoc cur.head) (emitted cur.toList (pastCode s)))) := fun cur ho hvn hc => by
    refine .inl ⟨by rw [emitted_frame]; exact hs, hp, by rw [hmn]; exact c2, ?_, by rw [emitted_frame]; rfl⟩
    rw [code, if_neg (by rw [hmn]; exact c1), h.prev, if_neg c3]
    dsimp only
    simp only [hsp, hc]
    exact insert_stands hk h hprev hvn hp (by omega)
  by_cases c4 : v < (codeCtx s).next
  · rw [if_pos c4]
    have c4 : v < s.lzw.LZW_NEXT.toNat := c4
    obtain ⟨cur, hcur⟩ := Option.isSome_iff_exists.1 (hd.2.2 v c4 (by omega))
    show Ends _ (execLzwDict v (pastCode s))
    rw [execLzwDict, dictRead_ok (by exact hcur)]
    refine emit_answers hol hcap (fun _ => fault _ _ _) fun ho => ?_
    have hpe : (emitted cur.toList (pastCode s)).lzw.LZW_PREV = s.lzw.LZW_PREV := by rw [emitted_frame]; rfl
    rw [hpe, dictRead_ok (x := prev) (by rw [emitted_frame]; exact hprev)]
    exact fin cur ho (by omega) (by rw [if_pos (by rw [h.next]; exact c4)]; exact h.string v cur hcur)
  rw [if_neg c4]
  by_cases c5 : v = (codeCtx s).next
  · rw [if_pos c5]
    have c5 : v = s.lzw.LZW_NEXT.toNat := c5
    show Ends _ (execLzwKwkwk (pastCode s))
    rw [execLzwKwkwk, dictRead_ok (by exact hprev)]
    refine emit_answers hol hcap (fun _ => fault _ _ _) fun ho => ?_
    have := fin (prev.snoc prev.head) ho (by omega) (by rw [if_neg (by rw [h.next]; omega)]; rfl)
    rw [c5] at this ⊢
    exact this
  · rw [if_neg c5]; exact fault _ _ _

end PrefixLzw

end Sys2Proof.Machine
end

