-- ==== Sys2Proof/Laws/Runs.lean ====
section
/-! SUPPORT. The loops of the units as runs of many steps, each from any place in the loop: the induction of the whole-run
statements, once. -/

namespace Sys2Proof.Machine

/-! ### `LZW_RUN` -/

/-- The start checks of `LZW_RUN` pass. -/
theorem lzwStart_ok {s : State} (a : s.lzw.LZW_CLEN.toNat ≤ s.cfg.CBUF_CAP) (b : s.lzw.LZW_CLEN.toNat < 2 ^ 29)
    (c : 2 ≤ s.lzw.LZW_N.toNat) (d : s.lzw.LZW_N.toNat ≤ 8) : lzwStartFault s = none := by
  have hM : NMAX = 8 := rfl
  have hm : NMIN = 2 := rfl
  rw [lzwStartFault, if_neg (by omega), if_neg (by omega)]

/-- A run of `LZW_RUN` from any code on, beside the prefix-table decoder. -/
theorem lzw_run_stands (bits : Nat) (f : Nat → Byte) (t : State) (k : Nat) : ∀ (s : State) (m : PrefixLzw) (F : Nat), Inv s → s.host = [] →
    s.status.STATE = .busy .lzw → 8 * s.lzw.LZW_CLEN.toNat = bits → (∀ a < s.lzw.LZW_CLEN.toNat, s.byteAt .cbuf a = some (f a)) →
    m.Stands s → bits ≤ F + s.lzw.LZW_BITPOS.toNat → core.run k s = (.next t : Out) → t.status.STATE = .done →
    (PrefixLzw.decodeFrom f bits F s.lzw.LZW_BITPOS.toNat m).Stands t := by
  induction k with
  | zero => intro s m F _ _ hs _ _ _ _ hr hd; cases hr; rw [hs] at hd; cases hd
  | succ k ih =>
    intro s m F hi hh hs hb hf hm hF hr hd
    obtain ⟨u, h1, h2⟩ := core_run_succ_eq_next hr
    have st : step s = ran (fetchCode s) := by rw [step_eq, fetch, hh]; dsimp only; rw [fetchRunning_busy hs]; rfl
    have hg := unit_goes hi (busy_of_state hs)
    rw [fetchRunning_busy hs, show fetchUnit .lzw s = fetchCode s from rfl, ← st] at hg
    have hiu := (hg.next h1).1
    have hc := PrefixLzw.code_follows (f := f) hi hs hf hm
    rw [← st, h1, hb] at hc
    have hk : lzwOk s := hi.unitAt hs
    have hww : s.lzw.LZW_N.toNat + 1 ≤ s.lzw.LZW_W.toNat := hk.2.2.2.2.2.2.2.1
    have hcl : s.lzw.LZW_CLEN.toNat < 2 ^ 29 := hk.2.2.2.1
    rcases hc with ⟨a1, a2, a3, a4, a5⟩ | ⟨a1, a2, a3⟩ | a1
    · obtain ⟨F, rfl⟩ : ∃ G, F = G + 1 := ⟨F - 1, by omega⟩
      have e : (trunc32 (s.lzw.LZW_BITPOS.toNat + s.lzw.LZW_W.toNat)).toNat = s.lzw.LZW_BITPOS.toNat + s.lzw.LZW_W.toNat := by
        rw [BitVec.toNat_ofNat, Nat.mod_eq_of_lt (by omega)]
      have ep : u.lzw.LZW_BITPOS.toNat = s.lzw.LZW_BITPOS.toNat + s.lzw.LZW_W.toNat := by rw [a5]; exact e
      have ec : u.lzw.LZW_CLEN = s.lzw.LZW_CLEN := by rw [a5]
      rw [PrefixLzw.decodeFrom, hm.w, if_neg (by omega), if_neg a3, ← ep]
      refine ih u _ F hiu (by rw [a5]; exact hh) a1 (by rw [ec]; exact hb) (fun a ha => ?_) a4 (by omega) h2 hd
      rw [ec] at ha
      rw [show u.byteAt .cbuf a = s.byteAt .cbuf a by rw [a5]; rfl]
      exact hf a ha
    · have hu : u.host = [] := by
        have := hg; rw [h1] at this; obtain ⟨-, hp⟩ := this; rw [hp.host]; exact hh
      rw [core_run_waits hu (by rw [State.busy, a1]; rfl)] at h2
      cases h2
      cases F with
      | zero => exact a3
      | succ F =>
        rw [PrefixLzw.decodeFrom, hm.w]
        rcases a2 with a2 | a2
        · rw [if_pos a2]; exact a3
        · split
          · exact a3
          · exact a3
    · have hu : u.host = [] := by
        have := hg; rw [h1] at this; obtain ⟨-, hp⟩ := this; rw [hp.host]; exact hh
      rw [core_run_waits hu (by rw [State.busy, a1]; rfl)] at h2
      cases h2
      rw [a1] at hd; cases hd

/-! ### `GIF_CONCAT` -/

/-- A run of `GIF_CONCAT` from any element of the chain on, given what each element does. -/
theorem concat_run (el : Obligations.GifConcatElements) (blocks : List (List Byte)) : ∀ s : State, s.host = [] → s.status.STATE = .busy .concat →
    (∀ d ∈ blocks, 1 ≤ d.length ∧ d.length ≤ 255) → s.gscCount + blocks.flatten.length ≤ s.cfg.CBUF_CAP →
    s.gscPos + (chainBytes blocks).length ≤ s.SRC_LEN.toNat →
    (∀ i < (chainBytes blocks).length, s.byteAt .src (s.gscPos + i) = (chainBytes blocks)[i]?) →
    ∃ t, core.run (blocks.length + 1) s = (.next t : Out) ∧
      t = { s with
        status := { s.status with STATE := .done }
        cbuf := t.cbuf
        gscPos := t.gscPos
        gscCount := t.gscCount
        gif := { s.gif with GIF_POS := trunc32 (s.gscPos + (chainBytes blocks).length) }
        lzw := { s.lzw with LZW_CLEN := trunc32 (s.gscCount + blocks.flatten.length), LZW_N := s.frame0.F0_CODESIZE } } ∧
      ∀ a, t.byteAt .cbuf a =
        if s.gscCount ≤ a ∧ a < s.gscCount + blocks.flatten.length then blocks.flatten[a - s.gscCount]? else s.byteAt .cbuf a := by
  induction blocks with
  | nil =>
    intro s hh hs hl hc hL hb
    have h0 := hb 0 (by simp [chainBytes])
    simp [chainBytes] at h0
    simp [chainBytes] at hL
    have := (el s hs).2
    have st : step s = exec .gifTerminator s := by
      rw [step_eq, fetch, hh]
      simp only
      rw [fetchRunning_busy hs, fetchUnit, fetchGsc_ok (by omega) h0]
      rfl
    refine ⟨_, (core_run_next (st.trans this)).trans rfl, ?_, fun a => ?_⟩
    · simp [chainBytes]
    · rw [if_neg (by simp)]; rfl
  | cons d ds ih =>
    intro s hh hs hl hc hL hb
    have hd := hl d (by simp)
    have e1 : chainBytes (d :: ds) = trunc8 d.length :: (d ++ chainBytes ds) := by simp [chainBytes]
    have e2 : (chainBytes (d :: ds)).length = 1 + d.length + (chainBytes ds).length := by rw [e1]; simp; omega
    have e3 : (d :: ds).flatten.length = d.length + ds.flatten.length := by simp
    have hL' := hL
    rw [e2] at hL
    have hn : (trunc8 d.length).toNat = d.length := by simp; omega
    have h0 := hb 0 (by rw [e2]; omega)
    rw [e1] at h0
    simp at h0
    have st : step s = exec (.gifSubblock (trunc8 d.length)) s := by
      rw [step_eq, fetch, hh]
      simp only
      rw [fetchRunning_busy hs, fetchUnit, fetchGsc_ok (by omega) h0, ran_length, decodeLength, if_neg]
      intro hz
      have := congrArg BitVec.toNat hz
      rw [hn] at this
      have h9 : d.length = 0 := this
      omega
    have hsrc : SrcHas s (s.gscPos + 1) (trunc8 d.length).toNat (fun i => d.getD i 0) := by
      rw [hn]
      refine ⟨by show s.gscPos + 1 + d.length ≤ s.SRC_LEN.toNat; omega, fun i hi => ?_⟩
      have := hb (1 + i) (by rw [e2]; omega)
      rw [e1, Nat.add_comm 1 i, List.getElem?_cons_succ, List.getElem?_append_left hi] at this
      rw [show s.gscPos + 1 + i = s.gscPos + (i + 1) by omega, this]
      simp [hi]
    obtain ⟨u, hu, hcp⟩ := (el s hs).1 _ _ hsrc (by rw [hn]; omega)
    rw [hn] at hcp
    obtain ⟨hu1, hu2⟩ := hcp
    generalize u.cbuf = c at hu1
    have g1 : u.gscPos = s.gscPos + 1 + d.length := by rw [hu1]
    have g2 : u.gscCount = s.gscCount + d.length := by rw [hu1]
    have g3 : u.cfg = s.cfg := by rw [hu1]
    have g4 : u.SRC_LEN = s.SRC_LEN := by rw [hu1]
    have g5 : ∀ a, u.byteAt .src a = s.byteAt .src a := fun a => by rw [hu1]; rfl
    obtain ⟨t, ht, ht1, ht2⟩ := ih u (by rw [hu1]; exact hh) (by rw [hu1]; exact hs) (fun x hx => hl x (by simp [hx]))
      (by rw [g2, g3]; omega) (by rw [g1, g4]; omega)
      (fun i hi => by
        have := hb (1 + d.length + i) (by rw [e2]; omega)
        rw [e1, show 1 + d.length + i = (d.length + i) + 1 by omega, List.getElem?_cons_succ, List.getElem?_append_right (by omega), Nat.add_sub_cancel_left] at this
        rw [← this, g5, g1, show s.gscPos + 1 + d.length + i = s.gscPos + (d.length + i + 1) by omega]
        )
    refine ⟨t, (core_run_next (st.trans hu)).trans ht, ?_, fun a => ?_⟩
    · refine ht1.trans ?_
      rw [e2, e3, g1, g2]
      rw [show s.gscPos + 1 + d.length + (chainBytes ds).length = s.gscPos + (1 + d.length + (chainBytes ds).length) by omega, show s.gscCount + d.length + ds.flatten.length = s.gscCount + (d.length + ds.flatten.length) by omega]
      clear g1 g2 g3 g4 g5 ht ht1 ht2 hu2 hu
      subst hu1
      rfl
    · rw [ht2, e3, hu2, g2]
      by_cases c1 : s.gscCount + d.length ≤ a ∧ a < s.gscCount + d.length + ds.flatten.length
      · rw [if_pos c1, if_pos (by omega), List.flatten_cons, List.getElem?_append_right (by omega)]
        congr 1; omega
      · rw [if_neg c1]
        by_cases c2 : s.gscCount ≤ a ∧ a < s.gscCount + d.length
        · rw [if_pos c2, if_pos (by omega), List.flatten_cons, List.getElem?_append_left (by omega)]
          simp [show a - s.gscCount < d.length by omega]
        · rw [if_neg c2, if_neg (by omega)]

/-! ### `BMP_RENDER` -/

/-- A cell's index names its column and its row. -/
theorem cell_index_inj {S x y x' y' : Nat} (hx : x < S) (hx' : x' < S) (h : y * S + x = y' * S + x') : x = x' ∧ y = y' := by
  have e1 : (y * S + x) % S = x := by rw [Nat.mul_comm, Nat.mul_add_mod]; exact Nat.mod_eq_of_lt hx
  have e2 : (y' * S + x') % S = x' := by rw [Nat.mul_comm, Nat.mul_add_mod]; exact Nat.mod_eq_of_lt hx'
  have e3 : x = x' := by rw [← e1, ← e2, h]
  subst e3
  refine ⟨rfl, ?_⟩
  exact Nat.eq_of_mul_eq_mul_right (by omega) (Nat.add_right_cancel h)

/-- The offset in `SINK` of the cell at `(x, y)` with stride `S`. -/
abbrev cellAt (S x y : Nat) : Nat := (y * S + x) * 4

/-- The cells of two pixels share no byte. -/
theorem cellAt_disj {S x y x' y' a : Nat} (hx : x < S) (hx' : x' < S) (h1 : cellAt S x y ≤ a) (h2 : a < cellAt S x y + 4) (h3 : cellAt S x' y' ≤ a) (h4 : a < cellAt S x' y' + 4) :
    x = x' ∧ y = y' := by
  simp only [cellAt] at *
  exact cell_index_inj hx hx' (by omega)

/-- A run of `BMP_RENDER` in 24-bit mode from any pixel on, given what each pixel does. -/
theorem bgr24_run (px : Obligations.DirectPixelRenders) (f : Nat → Byte) (w h vw vh : Nat) (n : Nat) : ∀ s : State, s.host = [] → s.status.STATE = .busy .bmp →
    s.bmp.BMP_BPP = 24 → s.bmp.BMP_COMP = 0 → w = s.bmp.BMP_WIDTH.toNat → h = s.bmp.BMP_HEIGHT.toNat →
    s.bmpWork.BMP_X.toNat < w → s.bmpWork.BMP_ROW.toNat < h →
    s.bmpWork.BMP_ROW.toNat * w + s.bmpWork.BMP_X.toNat + n = w * h →
    s.bmp.BMP_DATA_OFF.toNat + rowBytes s * h ≤ s.SRC_LEN.toNat →
    (∀ a < s.SRC_LEN.toNat, s.byteAt .src a = some (f a)) →
    vw = min s.bmp.VIEW_W.toNat w → vh = min s.bmp.VIEW_H.toNat h → vw ≤ s.bmp.SINK_STRIDE.toNat →
    (∀ x < vw, ∀ y < vh, (y * s.bmp.SINK_STRIDE.toNat + x) * 4 + 4 ≤ s.cfg.SINK_CAP) →
    ∃ t, core.run n s = (.next t : Out) ∧
      t = { s with
        status := { s.status with STATE := .done }
        sink := t.sink
        bmpWork :=
          { BMP_CUR := trunc32 (s.bmp.BMP_DATA_OFF.toNat + rowBytes s * h)
            BMP_X := 0
            BMP_ROW := s.bmp.BMP_HEIGHT } } ∧
      (∀ x < vw, ∀ y < vh, s.bmpWork.BMP_ROW.toNat * w + s.bmpWork.BMP_X.toNat ≤ (h - 1 - y) * w + x →
        let sample := s.bmp.BMP_DATA_OFF.toNat + (h - 1 - y) * rowBytes s + 3 * x
        let cell := cellAt s.bmp.SINK_STRIDE.toNat x y
        t.byteAt .sink cell = some (f (sample + 2)) ∧ t.byteAt .sink (cell + 1) = some (f (sample + 1)) ∧
          t.byteAt .sink (cell + 2) = some (f sample) ∧ t.byteAt .sink (cell + 3) = some 255) ∧
      ∀ a, (∀ x < vw, ∀ y < vh, s.bmpWork.BMP_ROW.toNat * w + s.bmpWork.BMP_X.toNat ≤ (h - 1 - y) * w + x →
          ¬(cellAt s.bmp.SINK_STRIDE.toNat x y ≤ a ∧ a < cellAt s.bmp.SINK_STRIDE.toNat x y + 4)) →
        t.byteAt .sink a = s.byteAt .sink a := by
  induction n with
  | zero =>
    intro s _ _ _ _ _ _ hX hR hn
    exfalso
    have : s.bmpWork.BMP_ROW.toNat * w + s.bmpWork.BMP_X.toNat < w * h := by
      calc _ < s.bmpWork.BMP_ROW.toNat * w + w := by omega
        _ = (s.bmpWork.BMP_ROW.toNat + 1) * w := by ring
        _ ≤ h * w := Nat.mul_le_mul_right _ hR
        _ = w * h := Nat.mul_comm _ _
    omega
  | succ n ih =>
    intro s hh hs hb hc hw hH hX hR hn hL hsrc hvw hvh hS hcell
    have st : step s = exec .bmpBgr24 s := by
      rw [step_eq, fetch, hh]
      simp only
      rw [fetchRunning_busy hs, fetchUnit, ran_mode, hb, hc]
      rfl
    generalize hr : s.bmpWork.BMP_ROW.toNat = r at *
    generalize hx0 : s.bmpWork.BMP_X.toNat = c at *
    have hrb : 3 * w ≤ rowBytes s := by rw [rowBytes, hb, ← hw]; simp; omega
    have hrow : pixelBase s + rowBytes s ≤ s.SRC_LEN.toNat := by
      rw [pixelBase, pixelRow, hr]
      have : (r + 1) * rowBytes s ≤ h * rowBytes s := Nat.mul_le_mul_right _ hR
      rw [Nat.add_mul, Nat.one_mul] at this
      have : rowBytes s * h = h * rowBytes s := Nat.mul_comm _ _
      omega
    have hsrc3 : SrcHas s (pixelBase s + 3 * pixelCol s) 3 (fun i => f (pixelBase s + 3 * pixelCol s + i)) := by
      have hcc : pixelCol s = c := hx0
      have hle : pixelBase s + 3 * pixelCol s + 3 ≤ s.SRC_LEN.toNat := by rw [hcc]; omega
      refine ⟨hle, fun i hi => hsrc _ (by omega)⟩
    have hpy : pixelY s = h - 1 - r := by rw [pixelY, pixelRow, hr, ← hH]
    have hin : PixelInside s ↔ c < vw ∧ h - 1 - r < vh := by
      rw [PixelInside, hpy, show pixelCol s = c from hx0]; omega
    have hco : cellOffset s = cellAt s.bmp.SINK_STRIDE.toNat c (h - 1 - r) := by
      rw [cellOffset, hpy, show pixelCol s = c from hx0]
    have hfit : CellFits s := fun h => by rw [hco]; exact hcell _ (hin.1 h).1 _ (hin.1 h).2
    obtain ⟨t, ht, ht1, hmv, hwr, hnw⟩ := (px s .bmpBgr24 _ _ (.inl ⟨rfl, hsrc3, rfl⟩)).1 hfit
    have hW : ∀ a, t.byteAt .sink a = if (c < vw ∧ h - 1 - r < vh) ∧ (cellAt s.bmp.SINK_STRIDE.toNat c (h - 1 - r) ≤ a ∧ a < cellAt s.bmp.SINK_STRIDE.toNat c (h - 1 - r) + 4)
        then [f (pixelBase s + 3 * pixelCol s + 2), f (pixelBase s + 3 * pixelCol s + 1), f (pixelBase s + 3 * pixelCol s + 0), 255][a - cellAt s.bmp.SINK_STRIDE.toNat c (h - 1 - r)]?
        else s.byteAt .sink a := by
      intro a
      by_cases hi : PixelInside s
      · rw [hwr hi, hco]
        simp only [hin.1 hi, true_and]
      · rw [hnw hi, if_neg (fun h => hi (hin.2 h.1))]
    have hwl := s.bmp.BMP_WIDTH.isLt
    have hhl := s.bmp.BMP_HEIGHT.isLt
    have nxt : (t.status = s.status ∧ t.bmpWork.BMP_X.toNat < w ∧ t.bmpWork.BMP_ROW.toNat < h ∧
          t.bmpWork.BMP_ROW.toNat * w + t.bmpWork.BMP_X.toNat = r * w + c + 1) ∨
        (n = 0 ∧ t.status = { s.status with STATE := .done } ∧ t.bmpWork = { BMP_CUR := trunc32 (s.bmp.BMP_DATA_OFF.toNat + rowBytes s * h)
                                                                             BMP_X := 0
                                                                             BMP_ROW := s.bmp.BMP_HEIGHT } ∧ r + 1 = h ∧ r * w + c + 1 = w * h) := by
      rcases Nat.lt_or_ge (c + 1) w with h1 | h1
      · obtain ⟨q1, q2⟩ := hmv.1 (by rw [show pixelCol s = c from hx0, ← hw]; exact h1)
        have hc1 : (trunc32 (pixelCol s + 1)).toNat = c + 1 := by
          rw [show pixelCol s = c from hx0, BitVec.toNat_ofNat]; exact Nat.mod_eq_of_lt (by omega)
        exact .inl ⟨q1, by rw [q2]; show (trunc32 (pixelCol s + 1)).toNat < w; omega, by rw [q2]; show s.bmpWork.BMP_ROW.toNat < h; omega,
          by rw [q2]; show s.bmpWork.BMP_ROW.toNat * w + (trunc32 (pixelCol s + 1)).toNat = _; rw [hc1, hr]; rfl⟩
      · rcases Nat.lt_or_ge (r + 1) h with h2 | h2
        · obtain ⟨q1, q2⟩ := hmv.2.1 (by rw [show pixelCol s = c from hx0, ← hw]; exact h1) (by rw [show pixelRow s = r from hr, ← hH]; exact h2)
          have hc1 : (trunc32 (pixelRow s + 1)).toNat = r + 1 := by
            rw [show pixelRow s = r from hr, BitVec.toNat_ofNat]; exact Nat.mod_eq_of_lt (by omega)
          refine .inl ⟨q1, by rw [q2]; show 0 < w; omega, by rw [q2]; show (trunc32 (pixelRow s + 1)).toNat < h; omega, ?_⟩
          rw [q2]; show (trunc32 (pixelRow s + 1)).toNat * w + 0 = _; rw [hc1, Nat.add_mul]; omega
        · obtain ⟨q1, q2⟩ := hmv.2.2 (by rw [show pixelCol s = c from hx0, ← hw]; exact h1) (by rw [show pixelRow s = r from hr, ← hH]; exact h2)
          have hrh : r + 1 = h := by omega
          have hn0 : r * w + c + 1 = w * h := by rw [← hrh, Nat.mul_add, Nat.mul_comm w r]; omega
          exact .inr ⟨by omega, q1, by rw [q2, ← hH], hrh, hn0⟩
    have rest : ∃ u, core.run n t = (.next u : Out) ∧
      u = { s with
        status := { s.status with STATE := .done }
        sink := u.sink
        bmpWork :=
          { BMP_CUR := trunc32 (s.bmp.BMP_DATA_OFF.toNat + rowBytes s * h)
            BMP_X := 0
            BMP_ROW := s.bmp.BMP_HEIGHT } } ∧
      (∀ x < vw, ∀ y < vh, r * w + c + 1 ≤ (h - 1 - y) * w + x →
        let sample := s.bmp.BMP_DATA_OFF.toNat + (h - 1 - y) * rowBytes s + 3 * x
        let cell := cellAt s.bmp.SINK_STRIDE.toNat x y
        u.byteAt .sink cell = some (f (sample + 2)) ∧ u.byteAt .sink (cell + 1) = some (f (sample + 1)) ∧
          u.byteAt .sink (cell + 2) = some (f sample) ∧ u.byteAt .sink (cell + 3) = some 255) ∧
      ∀ a, (∀ x < vw, ∀ y < vh, r * w + c + 1 ≤ (h - 1 - y) * w + x →
          ¬(cellAt s.bmp.SINK_STRIDE.toNat x y ≤ a ∧ a < cellAt s.bmp.SINK_STRIDE.toNat x y + 4)) →
        u.byteAt .sink a = t.byteAt .sink a := by
      rcases nxt with ⟨g1, g2, g3, g4⟩ | ⟨rfl, q1, q2, hrh, hn0⟩
      · obtain ⟨u, k1, k2, k3, k4⟩ := ih t (by rw [ht1]; exact hh) (by rw [g1]; exact hs) (by rw [ht1]; exact hb) (by rw [ht1]; exact hc) (by rw [ht1]; exact hw) (by rw [ht1]; exact hH)
          g2 g3 (by rw [g4]; omega) (by rw [ht1]; exact hL) (by rw [ht1]; exact hsrc) (by rw [ht1]; exact hvw) (by rw [ht1]; exact hvh) (by rw [ht1]; exact hS)
          (by rw [ht1]; exact hcell)
        rw [g4] at k3 k4
        have e1 : t.bmp = s.bmp := by rw [ht1]
        have e2 : rowBytes t = rowBytes s := by rw [rowBytes, e1]; rfl
        rw [e1, e2] at k2 k3
        rw [e1] at k4
        refine ⟨u, k1, ?_, k3, k4⟩
        refine k2.trans ?_
        rw [g1]
        clear hwr hnw hW k1 k2 k3 k4 g1 g2 g3 g4 e2 ht hmv
        generalize t.sink = q at ht1
        generalize t.bmpWork = q2 at ht1
        generalize t.status = q3 at ht1
        rw [ht1]
      · refine ⟨t, rfl, ?_, fun x hx y hy hle => ?_, fun a _ => rfl⟩
        · refine ht1.trans ?_
          rw [q1, q2]
        · exfalso
          have : (h - 1 - y) * w ≤ (h - 1) * w := Nat.mul_le_mul_right _ (by omega)
          have : (h - 1) * w + w = w * h := by rw [← hrh, Nat.add_sub_cancel]; rw [Nat.mul_add, Nat.mul_comm]; omega
          omega
    obtain ⟨u, k1, k2, k3, k4⟩ := rest
    have ycase : ∀ x < vw, ∀ y < vh, r * w + c ≤ (h - 1 - y) * w + x → ¬ r * w + c + 1 ≤ (h - 1 - y) * w + x → x = c ∧ h - 1 - y = r := fun x hx y hy h1 h2 =>
      cell_index_inj (S := w) (by omega) (by omega) (by omega)
    refine ⟨u, (core_run_next (st.trans ht)).trans k1, k2, fun x hx y hy hle => ?_, fun a ha => ?_⟩
    · by_cases hlt : r * w + c + 1 ≤ (h - 1 - y) * w + x
      · exact k3 x hx y hy hlt
      · obtain ⟨rfl, hyr⟩ := ycase x hx y hy hle hlt
        have hyy : h - 1 - r = y := by omega
        have later : ∀ j < 4, u.byteAt .sink (cellAt s.bmp.SINK_STRIDE.toNat x y + j) = t.byteAt .sink (cellAt s.bmp.SINK_STRIDE.toNat x y + j) := fun j hj =>
          k4 _ fun x' hx' y' hy' hle' ⟨c1, c2⟩ => by
            obtain ⟨rfl, rfl⟩ := cellAt_disj (S := s.bmp.SINK_STRIDE.toNat) (x := x) (y := y) (x' := x') (y' := y') (a := cellAt s.bmp.SINK_STRIDE.toNat x y + j) (by omega) (by omega) (by omega) (by omega) c1 c2
            exact hlt hle'
        have now : ∀ j < 4, t.byteAt .sink (cellAt s.bmp.SINK_STRIDE.toNat x y + j) = [f (pixelBase s + 3 * pixelCol s + 2), f (pixelBase s + 3 * pixelCol s + 1), f (pixelBase s + 3 * pixelCol s + 0), 255][j]? := fun j hj => by
          rw [hW, hyy, if_pos ⟨⟨hx, hy⟩, by omega, by omega⟩, Nat.add_sub_cancel_left]
        have base : pixelBase s + 3 * pixelCol s = s.bmp.BMP_DATA_OFF.toNat + (h - 1 - y) * rowBytes s + 3 * x := by
          rw [pixelBase, show pixelCol s = x from hx0, show pixelRow s = r from hr, hyr]
        rw [base] at now
        refine ⟨?_, ?_, ?_, ?_⟩
        · have := later 0 (by omega); rw [Nat.add_zero] at this; rw [this]; exact now 0 (by omega)
        · rw [later 1 (by omega)]; exact now 1 (by omega)
        · rw [later 2 (by omega)]; exact now 2 (by omega)
        · rw [later 3 (by omega)]; exact now 3 (by omega)
    · rw [k4 a (fun x hx y hy hle => ha x hx y hy (by omega)), hW, if_neg]
      rintro ⟨⟨c1, c2⟩, c3⟩
      exact ha c c1 _ c2 (by
        have : h - 1 - (h - 1 - r) = r := by omega
        rw [this]) c3

end Sys2Proof.Machine
end

