-- ==== Sys2Proof/Tests/Slice0.lean ====
section
/-! SUPPORT. The model's own tests: ill-formed terms the checks refuse, words written out from 30_encoding.md, single steps
against the vectors of 95_test_vectors.md (named in each docstring), and a witness for the hypotheses of every obligation. -/

namespace Sys2Proof.Tests

open Sys2Proof Sys2Proof.Machine

/-! ### Small states -/

/-- Bytes listed from an offset on. -/
def cells : Nat → List Byte → List Host.Cell
  | _, [] => []
  | a, b :: bs => (a, b) :: cells (a + 1) bs

/-- After reset, with a file in `SRC`. -/
def srcOf (bs : List Byte) : State := { State.reset with src := cells 0 bs, SRC_LEN := trunc32 bs.length }

/-- `GSC` at a cursor of a file. -/
def gscOf (ph : Phase) (p : Nat) (bs : List Byte) : State := { (srcOf bs).setState (.busy ph) with gscPos := p }

/-- A stream in `CBUF` and the registers that describe it. -/
def cbufOf (n : Nat) (bs : List Byte) : State :=
  { State.reset with
    cbuf := cells 0 bs
    lzw := { State.reset.lzw with LZW_N := trunc32 n, LZW_CLEN := trunc32 bs.length } }

/-- `LZWD` between two codes: inserted strings `ins`, output `out`. -/
def lzwOf (n w next : Nat) (prev : Word) (pos : Nat) (ins : List (Nat × Str)) (out bs : List Byte) : State :=
  { (cbufOf n bs).setState (.busy .lzw) with
    obuf := cells 0 out
    dict := literals (2 ^ n) ++ ins
    lzw :=
      { LZW_N := trunc32 n
        LZW_CLEN := trunc32 bs.length
        LZW_OLEN := trunc32 out.length
        LZW_BITPOS := trunc32 pos
        LZW_W := trunc32 w
        LZW_NEXT := trunc32 next
        LZW_PREV := prev } }

/-- `BMP_*` registers, the masks absent. -/
def bmpRegs (off w h bpp comp pal count : Nat) : BmpRegs :=
  { State.reset.bmp with
    BMP_DATA_OFF := trunc32 off
    BMP_WIDTH := trunc32 w
    BMP_HEIGHT := trunc32 h
    BMP_BPP := trunc32 bpp
    BMP_COMP := trunc32 comp
    BMP_PAL_BASE := trunc32 pal
    BMP_PAL_COUNT := trunc32 count
    VIEW_W := trunc32 w
    VIEW_H := trunc32 h
    SINK_STRIDE := trunc32 w }

/-- The same with masks. -/
def maskRegs (w bpp : Nat) (r g b a has : Word) : BmpRegs :=
  { bmpRegs 0 w 1 bpp 1 0 0 with BMP_MASK_R := r, BMP_MASK_G := g, BMP_MASK_B := b, BMP_MASK_A := a, BMP_HAS_AMASK := has }

/-- `BPD` at a pixel. -/
def bmpOf (bs : List Byte) (g : BmpRegs) (row col : Nat) : State :=
  bmpAt row col { (srcOf bs).setState (.busy .bmp) with bmp := g }

/-- The state reached, if one is. -/
def reached : Out → Option State
  | .next t => some t
  | .fault _ => none
  | .refused _ => none

/-- The host's script. -/
def does (as : List HostAction) (s : State) : State := { s with host := as }

/-- `STATUS` and the fault record. -/
def report (t : State) : Word × Word × Word × Word :=
  (t.status.word, t.fault.FAULT_KIND, t.fault.FAULT_CAUSE, t.fault.FAULT_INFO)

/-- The four bytes of `SINK` at an offset. -/
def cell (off : Nat) (t : State) : List (Option Byte) :=
  [t.byteAt .sink off, t.byteAt .sink (off + 1), t.byteAt .sink (off + 2), t.byteAt .sink (off + 3)]

/-- The head of a GIF file, 13 bytes (95_test_vectors.md section 2.4). -/
def head : List Byte := [0x47, 0x49, 0x46, 0x38, 0x39, 0x61, 1, 0, 1, 0, 0, 0, 0]

/-- From offset 37 on, the file of P3, at offset 0 here: an image descriptor, its chain, the trailer. -/
def frame : List Byte :=
  [0x2C, 0, 0, 0, 0, 0x0B, 0, 1, 0, 0, 3] ++ [2, 0x81, 0xA2, 3, 0x2A, 0xE1, 0x48, 0, 0x3B]

/-- The pixels of P4, at offset 0 here. -/
def pixels : List Byte := [1, 2, 3, 4, 5, 6, 0xEE, 0xEE] ++ [0x11, 0x12, 0x13, 0x14, 0x15, 0x16, 0xEE, 0xEE]

/-- The file of BV5: three palette entries and two rows. -/
def nibbles : List Byte :=
  [0x10, 0x20, 0x30, 0, 0x40, 0x50, 0x60, 0, 0x70, 0x80, 0x90, 0] ++ [1, 0x2F, 0, 0, 0x21, 0x0F, 0, 0]

/-- A one-byte and a longer string. -/
def str (x : Byte) (xs : List Byte) : Str := { head := x, tail := xs }

/-! ### Well-formedness refuses -/

/-- A context of LV1. -/
def ctx : CodeCtx := { n := 3, w := 4, next := 10, hasPrev := true, off := 0 }

theorem test_wf_site : Instr.wf .separator .nop = false ∧ Instr.wf .command .gifImage = false ∧
    Instr.wf .command .gifTerminator = false ∧ Instr.wf .length .lzwClear = false ∧ Instr.wf (.code ctx) .bmpP1 = false := by
  decide

theorem test_wf_reserved : Instr.wf .command (.cmdReserved 4) = false ∧ Instr.wf .command (.cmdReserved 5) = true := by decide

theorem test_wf_first : Instr.wf (.code ctx) (.lzwFirst 1) = false ∧
    Instr.wf (.code { ctx with hasPrev := false }) (.lzwFirst 8) = false ∧
    Instr.wf (.code { ctx with hasPrev := false }) (.lzwFirst 7) = true := by decide

theorem test_wf_dict : Instr.wf (.code ctx) (.lzwDict 10) = false ∧ Instr.wf (.code ctx) (.lzwDict 8) = false ∧
    Instr.wf (.code ctx) (.lzwDict 9) = false ∧ Instr.wf (.code { ctx with hasPrev := false }) (.lzwDict 1) = false := by decide

theorem test_wf_kwkwk_range : Instr.wf (.code { ctx with hasPrev := false }) .lzwKwkwk = false ∧
    Instr.wf (.code ctx) (.lzwRange 10) = false ∧ Instr.wf (.code ctx) (.lzwRange 16) = false ∧
    Instr.wf (.code { ctx with hasPrev := false }) (.lzwRange 9) = false := by decide

theorem test_wf_context : Instr.wf (.code { ctx with n := 1 }) .lzwEoi = false ∧
    Instr.wf (.code { ctx with n := 9, w := 10, next := 514 }) .lzwEoi = false ∧
    Instr.wf (.code { ctx with w := 3 }) .lzwEoi = false ∧ Instr.wf (.code { ctx with next := 9 }) .lzwEoi = false ∧
    Instr.wf (.code { ctx with next := 16 }) .lzwEoi = false ∧ Instr.wf (.code { ctx with off := 8 }) .lzwEoi = false := by
  decide

theorem test_wf_bytes : Instr.wf .separator (.gifBadsep 0x2C) = false ∧ Instr.wf .separator (.gifBadsep 0x3B) = false ∧
    Instr.wf .length (.gifSubblock 0) = false ∧ Instr.wf .mode (.bmpIllegal 16 1) = false ∧
    Instr.wf .mode (.bmpIllegal 24 1) = true := by decide

/-! ### Words written out from the encodings -/

/-- Rule R91. -/
theorem test_decode_commands : decode .command [0, 0, 0, 0] = .ok .nop ∧ decode .command [1, 0, 0, 0] = .ok .gifOpen ∧
    decode .command [2, 0, 0, 0] = .ok .gifConcat ∧ decode .command [3, 0, 0, 0] = .ok .lzwRun ∧
    decode .command [4, 0, 0, 0] = .ok .bmpRender ∧ decode .command [5, 0, 0, 0] = .ok (.cmdReserved 5) ∧
    decode .command [0, 0, 0, 0x80] = .ok (.cmdReserved 0x80000000) := ⟨rfl, rfl, rfl, rfl, rfl, rfl, rfl⟩

/-- Rule R92 with the bytes of MV4 and LV1: `1000 0001`, `1010 0010`, `01001 000`. -/
theorem test_decode_codes : decode (.code ctx) [0x81] = .ok .lzwClear ∧
    decode (.code { ctx with hasPrev := false, off := 4 }) [0x81] = .ok (.lzwFirst 1) ∧
    decode (.code ctx) [0xA2] = .ok .lzwKwkwk ∧ decode (.code { ctx with next := 11, off := 4 }) [0xA2] = .ok (.lzwDict 2) ∧
    decode (.code { ctx with w := 5, next := 16 }) [0x48] = .ok .lzwEoi ∧ decode (.code ctx) [0xC0] = .ok (.lzwRange 12) ∧
    decode (.code { ctx with hasPrev := false }) [0xA0] = .ok (.lzwRange 10) := ⟨rfl, rfl, rfl, rfl, rfl, rfl, rfl⟩

/-- Rules R66, R92: `13/5` from bit 6 of `81 A2` crosses a byte (MV1). -/
theorem test_decode_code_across_bytes :
    decode (.code { ctx with w := 5, next := 16, off := 6 }) [0x81, 0xA2] = .ok (.lzwDict 13) := rfl

/-- Rules R99, R102. -/
theorem test_decode_bytes : decode .separator [0x2C] = .ok .gifImage ∧ decode .separator [0x3B] = .ok .gifTrailer ∧
    decode .separator [0x21] = .ok (.gifBadsep 0x21) ∧ decode .length [0] = .ok .gifTerminator ∧
    decode .length [255] = .ok (.gifSubblock 255) := ⟨rfl, rfl, rfl, rfl, rfl⟩

/-- Rule R104, without masks. -/
theorem test_decode_modes :
    decode .mode ([1, 0, 0, 0] ++ List.replicate 16 0) = .ok .bmpP1 ∧
    decode .mode ([4, 0, 0, 0] ++ List.replicate 16 0) = .ok .bmpP4 ∧
    decode .mode ([8, 0, 0, 0] ++ List.replicate 16 0) = .ok .bmpP8 ∧
    decode .mode ([16, 0, 0, 0] ++ List.replicate 16 0) = .ok .bmpRgb555 ∧
    decode .mode ([16, 0, 0, 0, 1, 0, 0, 0] ++ List.replicate 12 0) = .ok .bmpBf16 ∧
    decode .mode ([24, 0, 0, 0] ++ List.replicate 16 0) = .ok .bmpBgr24 ∧
    decode .mode ([32, 0, 0, 0] ++ List.replicate 16 0) = .ok .bmpBgra32 := ⟨rfl, rfl, rfl, rfl, rfl, rfl, rfl⟩

/-- Rule R104, with masks: a zero green mask selects `BMP.BGRA32` (BV12); and a pair outside the table. -/
theorem test_decode_masked_modes :
    decode .mode ([32, 0, 0, 0, 1, 0, 0, 0] ++ [0, 0, 255, 0] ++ [0, 255, 0, 0] ++ [255, 0, 0, 0]) = .ok .bmpBf32 ∧
    decode .mode ([32, 0, 0, 0, 1, 0, 0, 0] ++ [0, 0, 255, 0] ++ [0, 0, 0, 0] ++ [255, 0, 0, 0]) = .ok .bmpBgra32 ∧
    decode .mode ([24, 0, 0, 0, 4, 0, 0, 0] ++ List.replicate 12 0) = .ok (.bmpIllegal 24 4) := ⟨rfl, rfl, rfl⟩

theorem test_decode_rejects : decode .command [0, 0, 0] = .error (.wrongLength 4 3) ∧
    decode .separator [] = .error (.wrongLength 1 0) := ⟨rfl, rfl⟩

/-- The words of the opcode table (log 15). -/
theorem test_table_words : decodeTableWord 32 3 = some .lzwRun ∧ decodeTableWord 8 0x2C = some .gifImage ∧
    decodeTableWord 8 0 = some .gifTerminator ∧ decodeTableWord 16 0x7FFF = some .bmpRgb555 := ⟨rfl, rfl, rfl, rfl⟩

/-- The next step after reset runs a placed word: a command, a length byte, a sample. -/
theorem test_withFetchWord :
    (reached (step (State.reset.withFetchWord 32 0))).map report = some (0x2, 0, 0, 0) ∧
    (reached (step (State.reset.withFetchWord 8 5))).map (·.gscPos) = some 6 ∧
    (reached (step (State.reset.withFetchWord 16 0x7C00))).map (·.status.STATE) = some .done := by decide

/-! ### Host commands -/

/-- CV2, second half. -/
theorem test_nop_acknowledges :
    (reached (step (does [.writeReg 0 0] (refusedAtStart 9 7 1 9 State.reset)))).map report = some (0x0A, 0, 0, 0) := by decide

/-- CV3. -/
theorem test_reserved : (reached (step (does [.writeReg 0 19] State.reset))).map report = some (0x30B, 7, 1, 19) := by decide

/-- GV8, the header: version 2, a 1 x 1 screen, the scan at 13. -/
theorem test_gifOpen_accepts :
    (reached (step (does [.writeReg 0 1] (srcOf (head ++ [0x3B]))))).map (fun t =>
      (t.status.STATE, t.gif.GIF_VERSION, t.gif.GIF_SCREEN_W, t.gif.GIF_SCREEN_H, t.gif.GIF_POS)) =
      some (.busy .scan, 2, 1, 1, 13) := by decide

/-- GV5: the version is tested before the trailer. -/
theorem test_gifOpen_version :
    (reached (step (does [.writeReg 0 1] (srcOf [0x47, 0x49, 0x46, 0x38, 0x39, 0x3B])))).map report =
      some (0x10B, 2, 0x12, 0x3B3938) := by decide

/-- CV5. -/
theorem test_gifConcat_not_ready :
    (reached (step (does [.writeReg 0 2] State.reset))).map report = some (0x20B, 7, 3, 0) := by decide

/-- GV8, its second half. -/
theorem test_gifConcat_no_frame :
    (reached (step (does [.writeReg 0 2] ((srcOf (head ++ [0x3B])).setReady true)))).map report =
      some (0x21B, 2, 0x16, 0) := by decide

/-- LV9, the initialisation. -/
theorem test_lzwRun_initialises :
    (reached (step (does [.writeReg 0 3] (cbufOf 3 [])))).map (fun t => (t.lzw.LZW_W, t.lzw.LZW_NEXT, t.lzw.LZW_PREV)) =
      some (4, 10, 0xFFFFFFFF) := by decide

/-- LV17. -/
theorem test_lzwRun_code_size :
    (reached (step (does [.writeReg 0 3] (cbufOf 9 [])))).map report = some (0x30B, 2, 0x20, 9) := by decide

/-- P4, its start. -/
theorem test_bmpRender_starts :
    (reached (step (does [.writeReg 0 4] { srcOf pixels with bmp := bmpRegs 0 2 2 24 0 0 0 }))).map (fun t =>
      (t.status.word, t.bmpWork.BMP_ROW, t.bmpWork.BMP_X, t.bmpWork.BMP_CUR)) = some (0x401, 0, 0, 0) := by decide

/-- BV21. -/
theorem test_bmpRender_overflow :
    (reached (step (does [.writeReg 0 4] { srcOf pixels with bmp := bmpRegs 0 0x10000 0x10000 24 0 0 0 }))).map report =
      some (0x40B, 2, 0x35, 0) := by decide

/-- CV7: a write to `SRC_LEN` clears `GIF_READY`, even with the same value. -/
theorem test_src_len_clears_ready :
    (reached (step (does [.writeReg 5 57] { State.reset with
      SRC_LEN := 57, status := { State.reset.status with STATE := .done, GIF_READY := true, LAST_CMD := 1 } }))).map
      (fun t => (t.status.word, t.SRC_LEN)) = some (0x102, 57) := by decide

/-! ### LZW codes -/

/-- LV2, code 4. -/
theorem test_clear :
    (reached (step (lzwOf 2 3 7 6 9 [(6, str 1 [1])] [1, 1, 1] [0x87, 0x45, 0xA8]))).map (fun t =>
      (t.lzw.LZW_W, t.lzw.LZW_NEXT, t.lzw.LZW_PREV, t.lzw.LZW_BITPOS, Table.get t.dict 6)) =
      some (3, 6, 0xFFFFFFFF, 12, none) := by decide

/-- LV3, code 5: the width comes back. -/
theorem test_clear_width :
    (reached (step (lzwOf 2 4 8 2 12 [(6, str 0 [1]), (7, str 1 [2])] [0, 1, 2] [0x80, 0xA4, 0x74]))).map (fun t =>
      (t.lzw.LZW_W, t.lzw.LZW_NEXT, t.lzw.LZW_BITPOS)) = some (3, 6, 16) := by decide

/-- LV14. -/
theorem test_eoi :
    (reached (step (lzwOf 3 4 10 0xFFFFFFFF 0 [] [] [0x90]))).map (fun t => (t.status.word, t.lzw.LZW_BITPOS)) =
      some (0x42, 4) := by decide

/-- LV1, code 2. -/
theorem test_first :
    (reached (step (lzwOf 3 4 10 0xFFFFFFFF 4 [] [] [0x81, 0xA2]))).map (fun t =>
      (t.byteAt .obuf 0, t.lzw.LZW_OLEN, t.lzw.LZW_NEXT, t.lzw.LZW_PREV)) = some (some 1, 1, 10, 1) := by decide

/-- LV2, codes 6 and 3: the code is the next assignable one. -/
theorem test_kwkwk :
    (reached (step (lzwOf 2 3 6 2 15 [] [1, 1, 1, 2] [0x87, 0x45, 0xA8]))).map (fun t =>
      (t.byteAt .obuf 4, t.byteAt .obuf 5, Table.get t.dict 6, t.lzw.LZW_NEXT, t.lzw.LZW_PREV)) =
      some (some 2, some 2, some (str 2 [2]), 7, 6) := by decide

/-- LV16: the second byte finds `OBUF` full. -/
theorem test_kwkwk_full :
    (reached (step { lzwOf 3 4 10 1 8 [] [1] [0x81, 0xA2] with cfg := { Config.default with OBUF_CAP := 2 } })).map
      (fun t => (report t, t.byteAt .obuf 1, t.lzw.LZW_OLEN, t.lzw.LZW_NEXT, t.lzw.LZW_PREV)) =
      some ((0x0B, 6, 0x23, 2), some 1, 2, 10, 1) := by decide

/-- LV3, code 4: the insertion makes `NEXT` a power of two, and the width grows. -/
theorem test_dict_grows :
    (reached (step (lzwOf 2 3 7 1 9 [(6, str 0 [1])] [0, 1] [0x80, 0xA4, 0x74]))).map (fun t =>
      (t.byteAt .obuf 2, Table.get t.dict 7, t.lzw.LZW_W, t.lzw.LZW_NEXT, t.lzw.LZW_PREV)) =
      some (some 2, some (str 1 [2]), 4, 8, 2) := by decide

/-- LV4, code 6: a two-byte string, and the insertion takes its first byte only. -/
theorem test_dict_string :
    (reached (step (lzwOf 2 4 9 3 16 [(6, str 0 [1]), (7, str 1 [2]), (8, str 2 [3])] [0, 1, 2, 3]
      [0x80, 0xA3, 0x68]))).map (fun t =>
      (t.byteAt .obuf 4, t.byteAt .obuf 5, Table.get t.dict 9, t.lzw.LZW_W)) = some (some 0, some 1, some (str 3 [0]), 4) := by
  decide

/-- LV10 and LV11. -/
theorem test_range :
    (reached (step (lzwOf 3 4 10 1 8 [] [1] [0x81, 0xC0]))).map (fun t => (report t, t.lzw.LZW_BITPOS)) =
      some ((0x0B, 4, 0x21, 12), 12) ∧
    (reached (step (lzwOf 3 4 10 0xFFFFFFFF 0 [] [] [0xA0]))).map report = some (0x0B, 4, 0x21, 10) := by decide

/-- LV5 (fewer bits than a code) and LV19 (b) (the width cap), each at its last step. -/
theorem test_fetch_ends :
    (reached (step (lzwOf 2 3 6 2 15 [] [1, 1, 1, 2] [0x87, 0x45]))).map (fun t => (t.status.word, t.lzw.LZW_BITPOS)) =
      some (0x02, 15) ∧
    (reached (step { lzwOf 3 10 512 0 0 [] [] [0, 0] with cfg := { Config.default with WMAX := 9 } })).map report =
      some (0x0B, 6, 0x22, 10) := by decide

/-! ### Container elements -/

/-- GV12, the first frame (at offset 0 here): a local table of two colours. -/
theorem test_image :
    (reached (step (gscOf .scan 0 ([0x2C, 1, 0, 2, 0, 3, 0, 4, 0, 0xC0] ++ List.replicate 6 0xAA ++ [2, 1, 0x44, 0])))).map
      (fun t => (t.frame0, t.gscPos)) =
      some ({ F0_LEFT := 1, F0_TOP := 2, F0_W := 3, F0_H := 4, F0_FLAGS := 0xC0, F0_LCT_COLORS := 2, F0_LCT_OFF := 10,
              F0_CODESIZE := 2, F0_DATA_OFF := 17 }, 17) := by decide

/-- GV12, the second frame: no trace but the cursor. -/
theorem test_image_second :
    (reached (step { gscOf .scan 0 frame with gif := { State.reset.gif with GIF_FRAME_COUNT := 1 } })).map
      (fun t => (t.frame0, t.gscPos, t.status.STATE)) = some (State.reset.frame0, 11, .busy .skip) := by decide

/-- GV13: the trailer ends the scan where it stands. -/
theorem test_trailer :
    (reached (step (gscOf .scan 13 (head ++ [0x3B, 0x99, 0x3B])))).map (fun t => (t.status.word, t.gif.GIF_POS)) =
      some (0x12, 13) := by decide

/-- GV9. -/
theorem test_badsep :
    (reached (step (gscOf .scan 0 [0x21, 0x3B]))).map report = some (0x0B, 2, 0x15, 0x21) := by decide

/-- P3's scan trace (length 2 steps over 3 bytes), and GV14: the next fetch past the end. -/
theorem test_subblock_skip :
    (reached (step (gscOf .skip 11 frame))).map (·.gscPos) = some 14 ∧
    (reached (step (gscOf .skip 30 frame))).map report = some (0x0B, 3, 0x10, 30) := by decide

/-- GV16: the third byte fits `CBUF`, the fourth does not. -/
theorem test_subblock_copy :
    (reached (step { gscOf .concat 14 frame with gscCount := 2, cfg := { Config.default with CBUF_CAP := 3 } })).map
      (fun t => (report t, t.byteAt .cbuf 2, t.byteAt .cbuf 3)) = some ((0x0B, 6, 0x17, 3), some 0x2A, none) := by decide

/-- P3 after its scan's terminator, and GV12's second: `MULTIFRAME` at two. -/
theorem test_terminator_scan :
    (reached (step (gscOf .skip 18 frame))).map (fun t => (t.gif.GIF_FRAME_COUNT, t.gif.GIF_POS, t.status.word)) =
      some (1, 19, 0x01) ∧
    (reached (step { gscOf .skip 18 frame with gif := { State.reset.gif with GIF_FRAME_COUNT := 1 } })).map
      (fun t => (t.gif.GIF_FRAME_COUNT, t.status.word)) = some (2, 0x21) := by decide

/-- P3 after `GIF_CONCAT`. -/
theorem test_terminator_concat :
    (reached (step { gscOf .concat 18 frame with
      gscCount := 5, frame0 := { State.reset.frame0 with F0_CODESIZE := 3 } })).map (fun t =>
      (t.lzw.LZW_CLEN, t.lzw.LZW_N, t.gif.GIF_POS, t.status.STATE)) = some (5, 3, 19, .done) := by decide

/-! ### Pixels -/

/-- BV3, columns 0 and 1. -/
theorem test_p1 :
    let bs : List Byte := [0, 0, 0, 0, 0xFF, 0xFF, 0xFF, 0, 0xA5, 0xC0, 0, 0]
    (reached (step (bmpOf bs (bmpRegs 8 10 1 1 0 0 2) 0 0))).map (cell 0) = some [some 0xFF, some 0xFF, some 0xFF, some 0xFF] ∧
    (reached (step (bmpOf bs (bmpRegs 8 10 1 1 0 0 2) 0 1))).map (cell 4) = some [some 0, some 0, some 0, some 0xFF] := by
  decide

/-- BV4. -/
theorem test_p1_index :
    (reached (step (bmpOf [0, 0, 0, 0, 0xFF, 0xFF, 0xFF, 0, 0xA5, 0xC0, 0, 0] (bmpRegs 8 10 1 1 0 0 1) 0 0))).map report =
      some (0x0B, 4, 0x39, 1) := by decide

/-- BV5: file row 1, columns 0 (high nibble) and 1 (low). -/
theorem test_p4 :
    (reached (step (bmpOf nibbles (bmpRegs 12 3 2 4 0 0 3) 1 0))).map (cell 0) =
      some [some 0x90, some 0x80, some 0x70, some 0xFF] ∧
    (reached (step (bmpOf nibbles (bmpRegs 12 3 2 4 0 0 3) 1 1))).map (cell 4) =
      some [some 0x60, some 0x50, some 0x40, some 0xFF] := by decide

/-- BV6: with no palette count the palette read runs past the end. -/
theorem test_p4_bounds :
    (reached (step (bmpOf nibbles (bmpRegs 12 4 1 4 0 0 0) 0 3))).map (fun t => (report t, t.bmpWork.BMP_CUR)) =
      some ((0x0B, 3, 0x3A, 60), 13) := by decide

/-- BV7. -/
theorem test_p8 :
    (reached (step (bmpOf ([0xDE, 0xAD, 0xBE, 0xEF, 0x0A, 0x0B, 0x0C, 0x99] ++ [0x1A, 0x1B, 0x1C, 0x99, 1, 0, 0x77, 0x77])
      (bmpRegs 12 2 1 8 0 4 2) 0 0))).map (cell 0) = some [some 0x1C, some 0x1B, some 0x1A, some 0xFF] := by decide

/-- BV8: decoded, and refused, outside the viewport. -/
theorem test_p8_outside :
    (reached (step (bmpOf ([0xDE, 0xAD, 0xBE, 0xEF, 0x0A, 0x0B, 0x0C, 0x99] ++ [0x1A, 0x1B, 0x1C, 0x99, 1, 5, 0x77, 0x77])
      { bmpRegs 12 2 1 8 0 4 2 with VIEW_W := 1 } 0 1))).map (fun t => (report t, t.bmpWork.BMP_CUR)) =
      some ((0x0B, 4, 0x39, 5), 13) := by decide

/-- BV9, the words `7C00` and `8421`. -/
theorem test_rgb555 :
    (reached (step (bmpOf [0, 0x7C, 0x21, 0x84] (bmpRegs 0 2 1 16 0 0 0) 0 0))).map (cell 0) =
      some [some 0xFF, some 7, some 7, some 0xFF] ∧
    (reached (step (bmpOf [0, 0x7C, 0x21, 0x84] (bmpRegs 0 2 1 16 0 0 0) 0 1))).map (cell 4) =
      some [some 0x0F, some 0x0F, some 0x0F, some 0xFF] := by decide

/-- The word `8421` with the other reading of conflict C2, `(c << 3) | (c >> 2)`, in the place of `EXPAND5`. -/
theorem test_rgb555_replicate :
    (reached (step { bmpOf [0x21, 0x84, 0, 0] (bmpRegs 0 1 1 16 0 0 0) 0 0 with
      cfg := { Config.default with EXPAND5 := .replicate } })).map (cell 0) =
      some [some 8, some 8, some 8, some 0xFF] := by decide

/-- BV10, the word `8410`. -/
theorem test_bf16 :
    (reached (step (bmpOf [0x10, 0x84, 0, 0] (maskRegs 1 16 0xF800 0x07E0 0x001F 0 0) 0 0))).map (cell 0) =
      some [some 0x83, some 0x81, some 0x83, some 0xFF] := by decide

/-- BV11: an absent green channel is 0, an absent alpha 255. -/
theorem test_bf16_absent :
    (reached (step (bmpOf [0x34, 0x12, 0, 0] (maskRegs 1 16 0x0F00 0 0x000F 0 1) 0 0))).map (cell 0) =
      some [some 0x22, some 0, some 0x44, some 0xFF] := by decide

/-- P4: file row 0, column 1. -/
theorem test_bgr24 :
    (reached (step (bmpOf pixels (bmpRegs 0 2 2 24 0 0 0) 0 1))).map (fun t =>
      (cell 12 t, t.bmpWork.BMP_ROW, t.bmpWork.BMP_X, t.bmpWork.BMP_CUR)) =
      some ([some 6, some 5, some 4, some 0xFF], 1, 0, 8) := by decide

/-- P4, its last pixel. -/
theorem test_bgr24_last :
    (reached (step (bmpOf pixels (bmpRegs 0 2 2 24 0 0 0) 1 1))).map (fun t =>
      (cell 4 t, t.status.STATE, t.bmpWork.BMP_ROW, t.bmpWork.BMP_X, t.bmpWork.BMP_CUR)) =
      some ([some 0x16, some 0x15, some 0x14, some 0xFF], .done, 2, 0, 16) := by decide

/-- BV12. -/
theorem test_bgra32 :
    (reached (step (bmpOf [1, 2, 3, 0x80] (bmpRegs 0 1 1 32 0 0 0) 0 0))).map (cell 0) =
      some [some 3, some 2, some 1, some 0x80] := by decide

/-- BV14, unbounded and 32-bit products. -/
theorem test_bf32 :
    let s := bmpOf [0x44, 0x33, 0x22, 0x11] (maskRegs 1 32 0xFF000000 0x00FF0000 0x0000FF00 0x000000FF 1) 0 0
    (reached (step s)).map (cell 0) = some [some 0x11, some 0x22, some 0x33, some 0x44] ∧
    (reached (step { s with cfg := { Config.default with BF_PROD_BITS := .bits32 } })).map (cell 0) =
      some [some 0, some 0x22, some 0x33, some 0x44] := by decide

/-- BV15, the pairs `(24, 4)` and `(8, 2)`. -/
theorem test_illegal : (reached (exec (.bmpIllegal 24 4) State.reset)).map report = some (0x0B, 5, 0x33, 4) ∧
    (reached (exec (.bmpIllegal 8 2) State.reset)).map report = some (0x0B, 2, 0x32, 2) := by decide

/-- MV3. -/
theorem test_stride : stride { State.reset with bmp := bmpRegs 0 5 1 24 0 0 0 } = 16 ∧
    stride { State.reset with bmp := bmpRegs 0 33 1 1 0 0 0 } = 8 ∧
    stride { State.reset with bmp := bmpRegs 0 4294967295 1 32 0 0 0 } = 17179869180 := by decide

/-! ### Witnesses: states and operands that meet an obligation's hypotheses, at the edge of their ranges -/

/-- The bytes of a list, as the statements name them. -/
def byte (bs : List Byte) (i : Nat) : Byte := bs.getD i 0

/-- Small capacities. -/
def tight : Config := { SRC_CAP := 16, CBUF_CAP := 3, OBUF_CAP := 4, SINK_CAP := 16, WMAX := 9, BF_PROD_BITS := .unbounded }

theorem witness_NopAcknowledges : (refusedAtStart 3 4 0x21 12 State.reset).status.word = 0x30B := by decide

theorem witness_CommandProtocolFaults : 4 < (5 : Word).toNat ∧
    ({ State.resetWith tight with SRC_LEN := 17 }).cfg.SRC_CAP < ({ State.resetWith tight with SRC_LEN := 17 }).SRC_LEN.toNat := by
  decide

/-- Both ends of the code size, `CBUF` filled to its capacity, the longest stream. -/
theorem witness_LzwRunInitialises :
    (let s := { cbufOf 2 [1, 2, 3] with cfg := tight }
    s.lzw.LZW_CLEN.toNat ≤ s.cfg.CBUF_CAP ∧ s.lzw.LZW_CLEN.toNat < 2 ^ 29 ∧ 2 ≤ s.lzw.LZW_N.toNat ∧ s.lzw.LZW_N.toNat ≤ 8) ∧
    (let s := { State.reset with lzw := { State.reset.lzw with LZW_N := 8, LZW_CLEN := 0x1FFFFFFF } }
    s.lzw.LZW_CLEN.toNat ≤ s.cfg.CBUF_CAP ∧ s.lzw.LZW_CLEN.toNat < 2 ^ 29 ∧ 2 ≤ s.lzw.LZW_N.toNat ∧
      s.lzw.LZW_N.toNat ≤ 8) := by decide

theorem witness_LzwRunRejects :
    (let s := { cbufOf 3 [1, 2, 3, 4] with cfg := tight }
    s.cfg.CBUF_CAP < s.lzw.LZW_CLEN.toNat) ∧
    (let s := { State.reset with lzw := { State.reset.lzw with LZW_CLEN := 0x20000000 } }
    ¬s.cfg.CBUF_CAP < s.lzw.LZW_CLEN.toNat ∧ 2 ^ 29 ≤ s.lzw.LZW_CLEN.toNat) ∧
    (cbufOf 1 []).lzw.LZW_N.toNat < 2 ∧ 8 < (cbufOf 9 []).lzw.LZW_N.toNat ∧ (cbufOf 9 []).lzw.LZW_CLEN.toNat < 2 ^ 29 := by
  decide

/-- The last free byte of `OBUF`, and `OBUF` full; the largest literal code. -/
theorem witness_LzwFirstEmits :
    let s := { lzwOf 2 3 6 NONE 0 [] [1, 1, 1] [0] with cfg := tight }
    s.cfg.admissible = true ∧ s.lzw.LZW_OLEN.toNat < s.cfg.OBUF_CAP ∧
      ({ lzwOf 2 3 6 NONE 0 [] [1, 1, 1, 1] [0] with cfg := tight }).lzw.LZW_OLEN.toNat = tight.OBUF_CAP ∧
      (codeCtx s).hasPrev = false ∧ 3 < 2 ^ (codeCtx s).n := by decide

theorem witness_LzwDictEmitsAndInserts :
    let s := { lzwOf 2 3 7 6 0 [(6, str 0 [1])] [0, 1] [0] with cfg := tight }
    s.cfg.admissible = true ∧ Table.get s.dict 6 = some (str 0 [1]) ∧
      Table.get s.dict s.lzw.LZW_PREV.toNat = some (str 0 [1]) ∧
      s.lzw.LZW_OLEN.toNat + (str 0 [1]).toList.length ≤ s.cfg.OBUF_CAP := by decide

theorem witness_LzwKwkwkEmitsAndInserts :
    let s := { lzwOf 2 3 6 2 0 [] [1, 1] [0] with cfg := tight }
    s.cfg.admissible = true ∧ Table.get s.dict s.lzw.LZW_PREV.toNat = some (str 2 []) ∧
      s.lzw.LZW_OLEN.toNat + (str 2 []).toList.length + 1 ≤ s.cfg.OBUF_CAP := by decide

/-- A literal, a dictionary string and the next assignable code's string, each one byte too long. -/
theorem witness_LzwOutputFull :
    (let s := { lzwOf 2 3 6 NONE 0 [] [1, 1, 1, 1] [0] with cfg := tight }
    s.cfg.admissible = true ∧ s.lzw.LZW_OLEN.toNat ≤ s.cfg.OBUF_CAP ∧
      s.cfg.OBUF_CAP < s.lzw.LZW_OLEN.toNat + [trunc8 1].length) ∧
    (let s := { lzwOf 2 3 7 6 0 [(6, str 0 [1])] [0, 1, 2] [0] with cfg := tight }
    s.lzw.LZW_OLEN.toNat ≤ s.cfg.OBUF_CAP ∧ s.cfg.OBUF_CAP < s.lzw.LZW_OLEN.toNat + (str 0 [1]).toList.length ∧
      Table.get s.dict 6 = some (str 0 [1])) ∧
    (let s := { lzwOf 2 3 6 2 0 [] [1, 1, 1] [0] with cfg := tight }
    s.lzw.LZW_OLEN.toNat ≤ s.cfg.OBUF_CAP ∧
      s.cfg.OBUF_CAP < s.lzw.LZW_OLEN.toNat + ((str 2 []).toList ++ [(str 2 []).head]).length ∧
      Table.get s.dict s.lzw.LZW_PREV.toNat = some (str 2 [])) := by decide

/-- One past the next code with a previous one; one past the end-of-information code without. -/
theorem witness_LzwRangeFaults : ctx.ok = true ∧ (ctx.hasPrev = true ∧ ctx.next < 11) ∧
    (let c := { ctx with hasPrev := false }
    c.ok = true ∧ c.hasPrev = false ∧ 2 ^ c.n + 1 < 10) := by decide

/-- The three forms of a unit's turn. -/
theorem witness_UnitTurn :
    (let s := lzwOf 2 3 6 NONE 0 [] [] [0]
    UnitTurn s s ∧ UnitTurn (does [.wait] s) s ∧ UnitTurn (does [.poll] s) (does [.poll] s) ∧
      s.status.STATE = .busy .lzw) :=
  ⟨.inl ⟨rfl, rfl⟩, .inr (.inl ⟨[], rfl, rfl⟩), .inr (.inr ⟨[], rfl, rfl, rfl⟩), rfl⟩

/-- One bit too few, a width above `WMAX`, and a code that just fits. -/
theorem witness_LzwFetchLoop :
    (let s := lzwOf 2 3 6 NONE 6 [] [] [0]
    8 * s.lzw.LZW_CLEN.toNat < s.lzw.LZW_BITPOS.toNat + s.lzw.LZW_W.toNat) ∧
    (let s := { lzwOf 2 10 512 NONE 6 [] [] [0, 0] with cfg := tight }
    s.lzw.LZW_BITPOS.toNat + s.lzw.LZW_W.toNat ≤ 8 * s.lzw.LZW_CLEN.toNat ∧ s.cfg.WMAX < s.lzw.LZW_W.toNat) ∧
    (let s := lzwOf 2 3 6 NONE 5 [] [] [0x87]
    s.lzw.LZW_BITPOS.toNat + s.lzw.LZW_W.toNat ≤ 8 * s.lzw.LZW_CLEN.toNat ∧ s.lzw.LZW_W.toNat ≤ s.cfg.WMAX ∧
      ∀ a < s.lzw.LZW_CLEN.toNat, s.byteAt .cbuf a = some (byte [0x87] a)) ∧
    (let s := { lzwOf 2 3 6 NONE 6 [] [] [0x87, 0] with cbuf := [(0, 0x87)] }
    s.lzw.LZW_BITPOS.toNat + s.lzw.LZW_W.toNat ≤ 8 * s.lzw.LZW_CLEN.toNat ∧ s.lzw.LZW_W.toNat ≤ s.cfg.WMAX ∧
      s.lzw.LZW_BITPOS.toNat / 8 ≤ 1 ∧ 8 * 1 < s.lzw.LZW_BITPOS.toNat + s.lzw.LZW_W.toNat ∧ s.byteAt .cbuf 1 = none ∧
      ∀ a' < 1, (s.byteAt .cbuf a').isSome = true) := by decide

/-- Two machines that differ in `SRC`, in a dictionary left behind and in `EOI_SEEN`. -/
theorem witness_LzwRunIsPure :
    let s := does [.writeReg 0 3] (cbufOf 2 [0xA0])
    let t := { s with src := [(0, 1)], dict := [(3, str 7 [])], status := { s.status with EOI_SEEN := true } }
    s.busy = false ∧ t.busy = false ∧ s.cfg.WMAX = t.cfg.WMAX ∧ s.cfg.OBUF_CAP = t.cfg.OBUF_CAP ∧ s.lzw.LZW_N = t.lzw.LZW_N ∧
      s.lzw.LZW_CLEN = t.lzw.LZW_CLEN ∧ s.lzw.LZW_CLEN.toNat ≤ s.cfg.CBUF_CAP ∧ 2 ≤ s.lzw.LZW_N.toNat ∧
      s.lzw.LZW_N.toNat ≤ 8 ∧ s.lzw.LZW_CLEN.toNat < 2 ^ 29 ∧
      (∀ a < s.lzw.LZW_CLEN.toNat, s.byteAt .cbuf a = t.byteAt .cbuf a) ∧
      (match core.run 2 s with
        | .next u => u.status.STATE = .done
        | .fault _ => False
        | .refused _ => False) := by
  refine ⟨rfl, rfl, rfl, rfl, rfl, rfl, by decide, by decide, by decide, by decide, fun _ _ => rfl, ?_⟩
  exact (rfl : RunState.done = RunState.done)

/-- A state in the middle of a run, with one inserted string: the invariant holds of it. -/
def midRun : State := lzwOf 2 3 7 1 9 [(6, str 0 [1])] [0, 1] [0x80, 0xA4, 0x74]

theorem witness_midRun_inv : Inv midRun := ⟨by decide, by decide, by decide, (by decide : lzwOk midRun)⟩

/-- The prefix table that stands for it: code 6 is code 0 and the byte 1. -/
theorem witness_PrefixTableSimulates :
    Inv midRun ∧ UnitTurn midRun midRun ∧ midRun.status.STATE = .busy .lzw ∧
    (∀ a < midRun.lzw.LZW_CLEN.toNat, midRun.byteAt .cbuf a = some (byte [0x80, 0xA4, 0x74] a)) ∧
    ({ n := 2, w := 3, prev := some 1, table := [(0, 1)], out := [0, 1] } : PrefixLzw).Stands midRun ∧
    (reached (step midRun)).isSome = true := by
  refine ⟨witness_midRun_inv, .inl ⟨rfl, rfl⟩, rfl, by decide, ⟨rfl, rfl, rfl, rfl, fun c x h => ?_, fun i p b h => ?_, rfl, ?_⟩, rfl⟩
  · have h9 : c < 7 := (dictOk_get (n := 2) (next := 7) (d := midRun.dict) (by decide) (by decide) h).1
    revert x
    interval_cases c <;> intro x h <;> first | cases h; rfl | cases h
  · match i, h with
    | 0, h => cases h; decide
  · decide

/-- `1/3` and `5/3`, from reset: the run, a literal, the end. -/
theorem witness_LzwRunDecodesTheStream :
    let s := does [.writeReg 0 3] (cbufOf 2 [0x34])
    Inv s ∧ s.busy = false ∧ 2 ≤ s.lzw.LZW_N.toNat ∧ s.lzw.LZW_N.toNat ≤ 8 ∧ s.lzw.LZW_CLEN.toNat ≤ s.cfg.CBUF_CAP ∧
      s.lzw.LZW_CLEN.toNat < 2 ^ 29 ∧ (∀ a < s.lzw.LZW_CLEN.toNat, s.byteAt .cbuf a = some (byte [0x34] a)) ∧
      (match core.run (2 + 1) s with
        | .next t => t.status.STATE = .done ∧ t.byteAt .obuf 0 = some 1
        | .fault _ => False
        | .refused _ => False) := by
  refine ⟨⟨by decide, by decide, by decide, trivial⟩, rfl, by decide, by decide, by decide, by decide, by decide, ?_⟩
  exact (⟨rfl, rfl⟩ : RunState.done = RunState.done ∧ some (1 : Byte) = some 1)

/-- Without a global table, the aspect byte serving as trailer (GV10), and with one. -/
theorem witness_GifOpenAcceptsHeader :
    (let bs : List Byte := [0x47, 0x49, 0x46, 0x38, 0x37, 0x61, 1, 0, 1, 0, 0, 0, 0x3B]
    (srcOf bs).SRC_LEN.toNat ≤ (srcOf bs).cfg.SRC_CAP ∧ SrcHas (srcOf bs) 0 13 (byte bs) ∧
      (byte bs 0 = 0x47 ∧ byte bs 1 = 0x49 ∧ byte bs 2 = 0x46) ∧ IsVersion (byte bs 3) (byte bs 4) (byte bs 5) 1 ∧
      (srcOf bs).byteAt .src ((srcOf bs).SRC_LEN.toNat - 1) = some 0x3B ∧ le16 (byte bs 6) (byte bs 7) ≠ 0 ∧
      le16 (byte bs 8) (byte bs 9) ≠ 0 ∧ (byte bs 10).getLsbD 7 = false) ∧
    (let bs : List Byte := [0x47, 0x49, 0x46, 0x39, 0x30, 0x62, 1, 0, 1, 0, 0x80, 0, 0] ++ List.replicate 6 9 ++ [0x3B]
    SrcHas (srcOf bs) 0 13 (byte bs) ∧ IsVersion (byte bs 3) (byte bs 4) (byte bs 5) 3 ∧
      (srcOf bs).byteAt .src ((srcOf bs).SRC_LEN.toNat - 1) = some 0x3B ∧ (byte bs 10).getLsbD 7 = true) := by
  refine ⟨⟨by decide, ⟨by decide, by decide⟩, by decide, .inl ⟨rfl, rfl, rfl, rfl⟩, by decide, by decide, by decide, by decide⟩,
    ⟨by decide, by decide⟩, .inr (.inr (by decide)), by decide, by decide⟩

/-- Two, three, five and six bytes, and a last byte that is no trailer. -/
theorem witness_GifHeaderFaultsInOrder :
    SrcHas (srcOf [0x47, 0x49]) 0 2 (byte [0x47, 0x49]) ∧
    SrcHas (srcOf [0x47, 0x49, 0x58]) 0 3 (byte [0x47, 0x49, 0x58]) ∧
    SrcHas (srcOf [0x47, 0x49, 0x46, 0x38, 0x39]) 0 5 (byte [0x47, 0x49, 0x46, 0x38, 0x39]) ∧
    (SrcHas (srcOf [0x47, 0x49, 0x46, 0x38, 0x39, 0x3B]) 0 6 (byte [0x47, 0x49, 0x46, 0x38, 0x39, 0x3B]) ∧
      ∀ ver, ¬IsVersion 0x38 0x39 0x3B ver) ∧
    (SrcHas (srcOf [0x47, 0x49, 0x46, 0x38, 0x39, 0x61]) 0 6 (byte [0x47, 0x49, 0x46, 0x38, 0x39, 0x61]) ∧
      IsVersion 0x38 0x39 0x61 2 ∧ (srcOf [0x47, 0x49, 0x46, 0x38, 0x39, 0x61]).byteAt .src 5 = some 0x61) := by
  refine ⟨⟨by decide, by decide⟩, ⟨by decide, by decide⟩, ⟨by decide, by decide⟩, ⟨⟨by decide, by decide⟩, fun ver h => ?_⟩,
    ⟨by decide, by decide⟩, .inr (.inl ⟨rfl, rfl, rfl, rfl⟩), by decide⟩
  rcases h with h | h | h
  · exact absurd h.2.1 (by decide)
  · exact absurd h.2.2.1 (by decide)
  · rcases h.2.2.2.2.1 with h | h <;> exact absurd h (by decide)

/-- Seven and twelve bytes; a screen of no width. -/
theorem witness_GifDescriptorFaults :
    (let bs : List Byte := [0x47, 0x49, 0x46, 0x38, 0x39, 0x61, 0x3B]
    SrcHas (srcOf bs) 0 7 (byte bs) ∧ 6 ≤ (srcOf bs).SRC_LEN.toNat ∧
      (srcOf bs).byteAt .src ((srcOf bs).SRC_LEN.toNat - 1) = some 0x3B) ∧
    (let bs : List Byte := [0x47, 0x49, 0x46, 0x38, 0x39, 0x61, 1, 0, 1, 0, 0, 0x3B]
    SrcHas (srcOf bs) 0 12 (byte bs) ∧ (srcOf bs).SRC_LEN.toNat < 13 ∧
      (srcOf bs).byteAt .src ((srcOf bs).SRC_LEN.toNat - 1) = some 0x3B) ∧
    (let bs : List Byte := [0x47, 0x49, 0x46, 0x38, 0x39, 0x61, 0, 0, 1, 0, 0, 0, 0x3B]
    SrcHas (srcOf bs) 0 13 (byte bs) ∧ IsVersion (byte bs 3) (byte bs 4) (byte bs 5) 2 ∧ le16 (byte bs 6) (byte bs 7) = 0 ∧
      (srcOf bs).byteAt .src ((srcOf bs).SRC_LEN.toNat - 1) = some 0x3B) := by
  refine ⟨⟨⟨by decide, by decide⟩, by decide, by decide⟩, ⟨⟨by decide, by decide⟩, by decide, by decide⟩,
    ⟨by decide, by decide⟩, .inr (.inl ⟨rfl, rfl, rfl, rfl⟩), by decide, by decide⟩

/-- A descriptor without and with a local table, up to the code-size byte, which is the last. -/
theorem witness_GifImageDescribes :
    (let s := gscOf .scan 0 [0x2C, 0, 0, 0, 0, 1, 0, 1, 0, 0, 2]
    SrcHas s (s.gscPos + 1) 9 (byte [0, 0, 0, 0, 1, 0, 1, 0, 0]) ∧ 10 < s.SRC_LEN.toNat ∧ s.byteAt .src 10 = some 2) ∧
    (let s := gscOf .scan 0 ([0x2C, 0, 0, 0, 0, 1, 0, 1, 0, 0x80] ++ [7, 7, 7, 7, 7, 7, 2])
    SrcHas s (s.gscPos + 1) 9 (byte [0, 0, 0, 0, 1, 0, 1, 0, 0x80]) ∧
      16 = (if (byte [0, 0, 0, 0, 1, 0, 1, 0, 0x80] 8).getLsbD 7 then s.gscPos + 10 + 3 * 2 ^ ((0x80 : Byte).toNat % 8 + 1)
        else s.gscPos + 10) ∧ 16 < s.SRC_LEN.toNat ∧ s.byteAt .src 16 = some 2) := by
  refine ⟨⟨⟨by decide, by decide⟩, by decide, by decide⟩, ⟨by decide, by decide⟩, by decide, by decide, by decide⟩

/-- The separator alone, all but the flags byte, and all but the code-size byte. -/
theorem witness_GifImageCutShort :
    (let s := gscOf .scan 0 [0x2C]
    s.gscPos < s.SRC_LEN.toNat ∧ SrcHas s (s.gscPos + 1) (s.SRC_LEN.toNat - (s.gscPos + 1)) (byte [])) ∧
    (let s := gscOf .scan 0 [0x2C, 0, 0, 0, 0, 1, 0, 1, 0]
    s.SRC_LEN.toNat < s.gscPos + 10 ∧
      SrcHas s (s.gscPos + 1) (s.SRC_LEN.toNat - (s.gscPos + 1)) (byte [0, 0, 0, 0, 1, 0, 1, 0])) ∧
    (let s := gscOf .scan 0 [0x2C, 0, 0, 0, 0, 1, 0, 1, 0, 0]
    SrcHas s (s.gscPos + 1) 9 (byte [0, 0, 0, 0, 1, 0, 1, 0, 0]) ∧ s.SRC_LEN.toNat ≤ s.gscPos + 10) := by
  refine ⟨⟨by decide, by decide, by decide⟩, ⟨by decide, by decide, by decide⟩, ⟨by decide, by decide⟩, by decide⟩

/-- A state at a separator position of the scan, with the invariant; and the byte after the trailer's. -/
theorem witness_GifScanEnds : ((0x3A : Byte) ≠ 0x2C ∧ (0x3A : Byte) ≠ 0x3B) ∧
    (let s := { gscOf .scan 13 (head ++ [0x3B]) with
      gif := { State.reset.gif with GIF_SCREEN_W := 1, GIF_SCREEN_H := 1, GIF_POS := 13 } }
    Inv s ∧ s.status.STATE = .busy .scan) := by
  refine ⟨by decide, ⟨by decide, by decide, by decide, ?_⟩, rfl⟩
  show scanOk _
  decide

theorem witness_GifScanSkipsSubBlocks : (gscOf .skip 11 frame).status.STATE = .busy .skip ∧
    (gscOf .skip 11 frame).gif.GIF_FRAME_COUNT + 1 ≠ 2 ∧
    (1 : Word) + 1 = 2 := by decide

theorem witness_GifConcatStarts :
    (srcOf head).SRC_LEN.toNat ≤ (srcOf head).cfg.SRC_CAP ∧ (srcOf head).status.GIF_READY = false ∧
    ((srcOf head).setReady true).gif.GIF_FRAME_COUNT = 0 ∧
    ({ (srcOf head).setReady true with gif := { State.reset.gif with GIF_FRAME_COUNT := 1 } }).gif.GIF_FRAME_COUNT ≠ 0 := by
  decide

/-- `CBUF` filled to its last byte. -/
theorem witness_GifConcatElements :
    let s := { gscOf .concat 0 [2, 7, 8, 0] with gscCount := 1, cfg := tight }
    s.status.STATE = .busy .concat ∧ SrcHas s (s.gscPos + 1) (2 : Byte).toNat (byte [7, 8]) ∧
      s.gscCount + (2 : Byte).toNat ≤ s.cfg.CBUF_CAP := ⟨rfl, ⟨by decide, by decide⟩, by decide⟩

/-- `CBUF` one byte short; `SRC` one byte short; `SRC` at its end. -/
theorem witness_GifConcatFails :
    (let s := { gscOf .concat 0 [2, 7, 8, 0] with gscCount := 2, cfg := tight }
    s.gscCount ≤ s.cfg.CBUF_CAP ∧ s.cfg.CBUF_CAP < s.gscCount + (2 : Byte).toNat ∧
      SrcHas s (s.gscPos + 1) (s.cfg.CBUF_CAP - s.gscCount + 1) (byte [7, 8])) ∧
    (let s := { gscOf .concat 0 [2, 7] with gscCount := 2, cfg := tight }
    s.gscPos < s.SRC_LEN.toNat ∧ s.SRC_LEN.toNat < s.gscPos + 1 + (2 : Byte).toNat ∧
      SrcHas s (s.gscPos + 1) (s.SRC_LEN.toNat - (s.gscPos + 1)) (byte [7]) ∧
      s.gscCount + (s.SRC_LEN.toNat - (s.gscPos + 1)) ≤ s.cfg.CBUF_CAP) ∧
    (let s := gscOf .concat 2 [1, 7]
    UnitTurn s s ∧ s.SRC_LEN.toNat ≤ s.gscPos) := by
  refine ⟨⟨by decide, by decide, by decide, by decide⟩, ⟨by decide, by decide, ⟨by decide, by decide⟩, by decide⟩,
    .inl ⟨rfl, rfl⟩, by decide⟩

/-- P3's chain, where `CBUF` and `SRC` hold just so much. -/
theorem witness_GifConcatJoinsTheChain :
    let blocks : List (List Byte) := [[0x81], [0x2A, 0xE1]]
    let s := does [.writeReg 0 2] { (srcOf [1, 0x81, 2, 0x2A, 0xE1, 0]).setReady true with
      cfg := tight, gif := { State.reset.gif with GIF_FRAME_COUNT := 1 } }
    s.cfg.admissible = true ∧ s.busy = false ∧ s.SRC_LEN.toNat ≤ s.cfg.SRC_CAP ∧ s.status.GIF_READY = true ∧
      s.gif.GIF_FRAME_COUNT ≠ 0 ∧ (∀ d ∈ blocks, 1 ≤ d.length ∧ d.length ≤ 255) ∧
      blocks.flatten.length ≤ s.cfg.CBUF_CAP ∧
      s.frame0.F0_DATA_OFF.toNat + (chainBytes blocks).length ≤ s.SRC_LEN.toNat ∧
      ∀ i < (chainBytes blocks).length,
        s.byteAt .src (s.frame0.F0_DATA_OFF.toNat + i) = (chainBytes blocks)[i]? := by decide

/-- An image that ends where `SRC` does; a full palette. -/
theorem witness_BmpRenderStarts :
    (let s := { srcOf pixels with bmp := bmpRegs 0 2 2 24 0 0 0 }
    s.SRC_LEN.toNat ≤ s.cfg.SRC_CAP ∧ modePairLegal s.bmp.BMP_BPP s.bmp.BMP_COMP = true ∧ s.bmp.BMP_WIDTH ≠ 0 ∧
      s.bmp.BMP_HEIGHT ≠ 0 ∧ s.bmp.BMP_WIDTH.toNat * s.bmp.BMP_HEIGHT.toNat < 2 ^ 32 ∧ s.bmp.BMP_BPP ≠ 1 ∧
      s.bmp.BMP_DATA_OFF.toNat + rowBytes s * s.bmp.BMP_HEIGHT.toNat = s.SRC_LEN.toNat) ∧
    (let s := { srcOf nibbles with bmp := bmpRegs 12 3 2 1 0 0 2 }
    modePairLegal s.bmp.BMP_BPP s.bmp.BMP_COMP = true ∧ s.bmp.BMP_PAL_COUNT ≠ 0 ∧
      s.bmp.BMP_PAL_COUNT.toNat = 2 ^ s.bmp.BMP_BPP.toNat ∧
      s.bmp.BMP_DATA_OFF.toNat + rowBytes s * s.bmp.BMP_HEIGHT.toNat ≤ s.SRC_LEN.toNat) := by decide

/-- One state for each of the nine checks, in the order of BV15, BV20, BV21, BV4 and BV23. -/
theorem witness_BmpStartChecksInOrder :
    (let bpp := (bmpRegs 0 1 1 2 0 0 0).BMP_BPP
    ¬(bpp = 1 ∨ bpp = 4 ∨ bpp = 8 ∨ bpp = 16 ∨ bpp = 24 ∨ bpp = 32)) ∧
    6 < (bmpRegs 0 1 1 8 7 0 0).BMP_COMP.toNat ∧
    (let g := bmpRegs 0 1 1 8 2 0 0
    g.BMP_BPP = 8 ∧ g.BMP_COMP.toNat ≤ 6 ∧ ¬(g.BMP_COMP = 2 → g.BMP_BPP = 4)) ∧
    (let g := bmpRegs 0 0 1 4 2 0 0
    g.BMP_BPP = 4 ∧ g.BMP_COMP = 2) ∧
    (let g := bmpRegs 0 0 0x10000 24 0 0 0
    g.BMP_BPP = 24 ∧ g.BMP_COMP = 0 ∧ g.BMP_WIDTH = 0) ∧
    (let g := bmpRegs 0 0x10000 0x10000 24 0 0 0
    g.BMP_WIDTH ≠ 0 ∧ 2 ^ 32 ≤ g.BMP_WIDTH.toNat * g.BMP_HEIGHT.toNat) ∧
    (let g := bmpRegs 8 10 1 1 0 0 0
    g.BMP_WIDTH.toNat * g.BMP_HEIGHT.toNat < 2 ^ 32 ∧ g.BMP_BPP = 1 ∧ g.BMP_PAL_COUNT = 0) ∧
    (let g := bmpRegs 8 10 1 1 0 0 3
    g.BMP_PAL_COUNT ≠ 0 ∧ 2 ^ g.BMP_BPP.toNat < g.BMP_PAL_COUNT.toNat) ∧
    (let s := { srcOf pixels with bmp := bmpRegs 1 2 2 24 0 0 0 }
    s.SRC_LEN.toNat < s.bmp.BMP_DATA_OFF.toNat + rowBytes s * s.bmp.BMP_HEIGHT.toNat) := by decide

/-- One pair for each of the four causes (BV15), each outside the table of rule R104. -/
theorem witness_BmpIllegalFaults :
    (¬((2 : Word) = 1 ∨ (2 : Word) = 4 ∨ (2 : Word) = 8 ∨ (2 : Word) = 16 ∨ (2 : Word) = 24 ∨ (2 : Word) = 32)) ∧
    6 < (7 : Word).toNat ∧ ¬((2 : Word) = 2 → (8 : Word) = 4) ∧
    (((4 : Word) = 1 → (24 : Word) = 16 ∨ (24 : Word) = 32) ∧ 2 ≤ (4 : Word).toNat ∧ (4 : Word).toNat ≤ 6) ∧
    modePairLegal 2 0 = false ∧ modePairLegal 8 7 = false ∧ modePairLegal 8 2 = false ∧ modePairLegal 24 4 = false := by decide

/-- The cell of the pixel at hand ends where `SINK` does; and one byte beyond. -/
theorem witness_CellFits :
    CellFits { bmpOf pixels (bmpRegs 0 2 2 24 0 0 0) 0 1 with cfg := tight } ∧
    ¬CellFits { bmpOf pixels (bmpRegs 0 2 2 24 0 0 0) 0 1 with cfg := { tight with SINK_CAP := 15 } } ∧
    PixelInside (bmpOf pixels (bmpRegs 0 2 2 24 0 0 0) 0 1) :=
  ⟨fun _ => by decide, fun h => absurd (h ⟨by decide, by decide⟩) (by decide), ⟨by decide, by decide⟩⟩

/-- The three palette modes: the last bit of a byte, a low nibble, a byte; the last index a count admits, and no count. -/
theorem witness_PalettePixelRenders :
    (let s := bmpOf ([1, 2, 3, 4, 5, 6, 7, 8] ++ [0x01, 0, 0, 0]) (bmpRegs 8 8 1 1 0 0 2) 0 7
    PaletteIndex .bmpP1 s 1 ∧ IndexAllowed s 1 ∧ SrcHas s (s.bmp.BMP_PAL_BASE.toNat + 1 * 4) 3 (byte [5, 6, 7])) ∧
    (let s := bmpOf nibbles (bmpRegs 12 3 2 4 0 0 3) 1 1
    PaletteIndex .bmpP4 s 1 ∧ IndexAllowed s 1 ∧ SrcHas s (s.bmp.BMP_PAL_BASE.toNat + 1 * 4) 3 (byte [0x40, 0x50, 0x60])) ∧
    (let s := bmpOf [1, 2, 3, 4, 5, 6, 7, 0] (bmpRegs 4 4 1 8 0 0 0) 0 3
    PaletteIndex .bmpP8 s 0 ∧ IndexAllowed s 0 ∧ SrcHas s (s.bmp.BMP_PAL_BASE.toNat + 0 * 4) 3 (byte [1, 2, 3])) := by
  refine ⟨⟨.inl ⟨rfl, byte [0x01], ⟨by decide, by decide⟩, by decide⟩, .inr (by decide), by decide, by decide⟩,
    ⟨.inr (.inl ⟨rfl, byte [0x21], ⟨by decide, by decide⟩, by decide⟩), .inr (by decide), by decide, by decide⟩,
    .inr (.inr ⟨rfl, byte [0], ⟨by decide, by decide⟩, by decide⟩), .inl rfl, by decide, by decide⟩

/-- BV4's index at the count; BV6's entry past the end; an entry cut after its second byte. -/
theorem witness_PalettePixelFaults :
    (let s := bmpOf [0, 0, 0, 0, 0xFF, 0xFF, 0xFF, 0, 0xA5, 0xC0, 0, 0] (bmpRegs 8 10 1 1 0 0 1) 0 0
    PaletteIndex .bmpP1 s 1 ∧ s.bmp.BMP_PAL_COUNT ≠ 0 ∧ s.bmp.BMP_PAL_COUNT.toNat ≤ 1) ∧
    (let s := bmpOf nibbles (bmpRegs 12 4 1 4 0 0 0) 0 3
    PaletteIndex .bmpP4 s 15 ∧ IndexAllowed s 15 ∧ s.SRC_LEN.toNat ≤ s.bmp.BMP_PAL_BASE.toNat + 15 * 4 + 0) ∧
    (let s := bmpOf [0, 0, 7, 8] (bmpRegs 0 4 1 8 0 2 0) 0 0
    PaletteIndex .bmpP8 s 0 ∧ IndexAllowed s 0 ∧ SrcHas s (s.bmp.BMP_PAL_BASE.toNat + 0 * 4) 2 (byte [7, 8]) ∧
      s.SRC_LEN.toNat ≤ s.bmp.BMP_PAL_BASE.toNat + 0 * 4 + 2) := by
  refine ⟨⟨.inl ⟨rfl, byte [0xA5], ⟨by decide, by decide⟩, by decide⟩, by decide, by decide⟩,
    ⟨.inr (.inl ⟨rfl, byte [0x2F], ⟨by decide, by decide⟩, by decide⟩), .inl rfl, by decide⟩,
    .inr (.inr ⟨rfl, byte [0], ⟨by decide, by decide⟩, by decide⟩), .inl rfl, ⟨by decide, by decide⟩, by decide⟩

/-- The last column of a row of each. -/
theorem witness_DirectPixelRenders :
    (let s := bmpOf pixels (bmpRegs 0 2 2 24 0 0 0) 1 1
    SrcHas s (pixelBase s + 3 * pixelCol s) 3 (byte [0x14, 0x15, 0x16]) ∧ CellFits s) ∧
    (let s := bmpOf [1, 2, 3, 4, 5, 6, 7, 8] (bmpRegs 0 2 1 32 0 0 0) 0 1
    SrcHas s (pixelBase s + 4 * pixelCol s) 4 (byte [5, 6, 7, 8]) ∧ CellFits s) :=
  ⟨⟨⟨by decide, by decide⟩, fun _ => by decide⟩, ⟨by decide, by decide⟩, fun _ => by decide⟩

theorem witness_Rgb555PixelRenders :
    let s := bmpOf [0, 0x7C, 0x21, 0x84] (bmpRegs 0 2 1 16 0 0 0) 0 1
    SrcHas s (pixelBase s + 2 * pixelCol s) 2 (byte [0x21, 0x84]) ∧ 0x8421 = le16 0x21 0x84 ∧ CellFits s ∧
      s.cfg.EXPAND5 = State.reset.cfg.EXPAND5 :=
  ⟨⟨by decide, by decide⟩, by decide, fun _ => by decide, rfl⟩

/-- Both modes, with and without an alpha channel. -/
theorem witness_MaskedPixelRenders :
    (let s := bmpOf [0x34, 0x12, 0, 0] (maskRegs 1 16 0x0F00 0 0x000F 0 1) 0 0
    SrcHas s (pixelBase s + 2 * pixelCol s) 2 (byte [0x34, 0x12]) ∧ CellFits s ∧ s.bmp.BMP_MASK_G = 0 ∧
      scaledAlpha s 0x1234 = 255) ∧
    (let s := bmpOf [0x44, 0x33, 0x22, 0x11] (maskRegs 1 32 0xFF000000 0x00FF0000 0x0000FF00 0x000000FF 1) 0 0
    SrcHas s (pixelBase s + 4 * pixelCol s) 4 (byte [0x44, 0x33, 0x22, 0x11]) ∧ CellFits s ∧ s.bmp.BMP_MASK_R ≠ 0 ∧
      s.bmp.BMP_MASK_G ≠ 0 ∧ s.bmp.BMP_MASK_B ≠ 0 ∧ scaledAlpha s 0x11223344 = 0x44) :=
  ⟨⟨⟨by decide, by decide⟩, fun _ => by decide, by decide, by decide⟩,
    ⟨by decide, by decide⟩, fun _ => by decide, by decide, by decide, by decide, by decide⟩

/-- BV14's red channel, where the two widths of the product differ. -/
theorem witness_BitFieldScaling : (0xFF000000 : Nat) ≠ 0 ∧ (0x11223344 : Nat) < 2 ^ 32 ∧ (0xFF000000 : Nat) < 2 ^ 32 ∧
    bfscale .unbounded 0x11223344 0xFF000000 ≠ bfscale .bits32 0x11223344 0xFF000000 := by decide

theorem witness_StrideRoundsUp : ({ State.reset with bmp := bmpRegs 0 5 1 24 0 0 0 }).bmp.BMP_BPP = 24 ∧
    ({ State.reset with bmp := bmpRegs 0 4294967295 1 32 0 0 0 }).bmp.BMP_BPP.toNat ≤ 32 := by decide

/-- P4's image, where `SRC` and `SINK` hold just so much. -/
theorem witness_Bgr24ImageRenders :
    let s := does [.writeReg 0 4] { srcOf pixels with bmp := bmpRegs 0 2 2 24 0 0 0, cfg := tight }
    s.cfg.admissible = true ∧ s.busy = false ∧ s.SRC_LEN.toNat ≤ s.cfg.SRC_CAP ∧ s.bmp.BMP_BPP = 24 ∧ s.bmp.BMP_COMP = 0 ∧
      2 = s.bmp.BMP_WIDTH.toNat ∧ 2 = s.bmp.BMP_HEIGHT.toNat ∧
      s.bmp.BMP_DATA_OFF.toNat + rowBytes s * 2 ≤ s.SRC_LEN.toNat ∧
      (∀ a < s.SRC_LEN.toNat, s.byteAt .src a = some (byte pixels a)) ∧ 2 = min s.bmp.VIEW_W.toNat 2 ∧
      2 = min s.bmp.VIEW_H.toNat 2 ∧ 2 ≤ s.bmp.SINK_STRIDE.toNat ∧
      ∀ x < 2, ∀ y < 2, (y * s.bmp.SINK_STRIDE.toNat + x) * 4 + 4 ≤ s.cfg.SINK_CAP := by decide

/-- An instruction of each site, its operand at an end of its range. -/
theorem witness_DecodeEncodeRoundTrip : Instr.wf .command (.cmdReserved 0xFFFFFFFF) = true ∧
    Instr.wf .separator (.gifBadsep 0xFF) = true ∧ Instr.wf .length (.gifSubblock 255) = true ∧
    Instr.wf (.code { ctx with off := 7 }) (.lzwRange 15) = true ∧ Instr.wf (.code ctx) (.lzwDict 7) = true ∧
    Instr.wf .mode (.bmpIllegal 0xFFFFFFFF 6) = true := by decide

theorem witness_DecodedIsWellFormed : decode (.code { ctx with off := 4 }) [0x8B] = .ok (.lzwRange 11) ∧ ctx.ok = true ∧
    decode .length [1] = .ok (.gifSubblock 1) := ⟨rfl, rfl, rfl⟩

/-- A context at each end of the code size, and a window that crosses a byte. -/
theorem witness_CodeClasses :
    (let c : CodeCtx := { n := 2, w := 3, next := 6, hasPrev := false, off := 0 }
    c.ok = true ∧ [(0x80 : Byte)].length = c.windowLen) ∧
    (let c : CodeCtx := { n := 8, w := 12, next := 4095, hasPrev := true, off := 7 }
    c.ok = true ∧ [(0 : Byte), 0, 0].length = c.windowLen) := by decide

theorem witness_ModeSelection :
    let s := { srcOf pixels with bmp := bmpRegs 0 2 2 24 1 0 0 }
    s.SRC_LEN.toNat ≤ s.cfg.SRC_CAP ∧ modePairLegal s.bmp.BMP_BPP s.bmp.BMP_COMP = false := by decide

theorem witness_ReadBitsMsbFirst : (7 : Nat) < 8 ∧ (0 : Nat) < 8 := by decide

/-- A command, a separator, a length byte and a pixel. -/
theorem witness_StepRunsDecoded :
    (let s := does [.writeReg 0 5] State.reset
    s.busy = false ∧ decode .command (leBytes 4 (5 : Word).toNat) = .ok (.cmdReserved 5)) ∧
    (let s := gscOf .scan 19 frame
    UnitTurn s s ∧ s.status.STATE = .busy .scan ∧ s.gscPos < s.SRC_LEN.toNat ∧ s.byteAt .src s.gscPos = some 0x3B ∧
      decode .separator [0x3B] = .ok .gifTrailer) ∧
    (let s := gscOf .skip 18 frame
    UnitTurn s s ∧ s.status.STATE = .busy .skip ∧ s.gscPos < s.SRC_LEN.toNat ∧ s.byteAt .src s.gscPos = some 0 ∧
      decode .length [0] = .ok .gifTerminator) ∧
    (let s := bmpOf pixels (bmpRegs 0 2 2 24 0 0 0) 0 0
    UnitTurn s s ∧ s.status.STATE = .busy .bmp) :=
  ⟨⟨rfl, rfl⟩, ⟨.inl ⟨rfl, rfl⟩, rfl, by decide, by decide, rfl⟩, ⟨.inl ⟨rfl, rfl⟩, rfl, by decide, by decide, rfl⟩,
    .inl ⟨rfl, rfl⟩, rfl⟩

/-- The first offset that does not exist, and the last that does. -/
theorem witness_SrcReadsAreBounded : Cause.kind .G_SHORT = .TruncatedData ∧ Cause.kind .B_SRC_BOUNDS = .TruncatedData ∧
    (srcOf [7, 8]).SRC_LEN.toNat ≤ 2 ∧ 1 < (srcOf [7, 8]).SRC_LEN.toNat ∧ (srcOf [7, 8]).byteAt .src 1 = some 8 ∧
    (let s := { srcOf [7, 8] with src := [(0, 7)] }
    1 < s.SRC_LEN.toNat ∧ s.byteAt .src 1 = none) ∧
    (let s := gscOf .scan 2 [7, 8]
    UnitTurn s s ∧ s.SRC_LEN.toNat ≤ s.gscPos) ∧
    (let s := { gscOf .skip 1 [7, 8] with src := [(0, 7)] }
    UnitTurn s s ∧ s.gscPos < s.SRC_LEN.toNat ∧ s.byteAt .src s.gscPos = none) :=
  ⟨rfl, rfl, by decide, by decide, by decide, by decide, ⟨.inl ⟨rfl, rfl⟩, by decide⟩, .inl ⟨rfl, rfl⟩, by decide, rfl⟩

/-- The smallest and the largest parameters. -/
theorem witness_ResetSatisfiesInv : tight.admissible = true ∧ Config.default.admissible = true ∧
    ({ SRC_CAP := 1, CBUF_CAP := 1, OBUF_CAP := 1, SINK_CAP := 1, WMAX := 9, BF_PROD_BITS := .bits32 } : Config).admissible =
      true := by decide

theorem witness_StepKeepsInv : Inv midRun ∧ (reached (step midRun)).isSome = true := ⟨witness_midRun_inv, rfl⟩

/-- In the middle of a run; and with a byte of the stream that nothing has written. -/
theorem witness_OnlyUnwrittenBytesStop : Inv midRun ∧ midRun.host = [] ∧
    (let s := { midRun with cbuf := [] }
    Inv s ∧ s.byteAt .cbuf 1 = none ∧ reached (step s) = none) :=
  ⟨witness_midRun_inv, rfl, ⟨by decide, by decide, by decide, (by decide : lzwOk { midRun with cbuf := [] })⟩, rfl, rfl⟩

theorem witness_EveryCommandEnds : Inv midRun ∧ midRun.busy = true ∧ midRun.host = [] ∧
    (∀ a < midRun.SRC_LEN.toNat, (midRun.byteAt .src a).isSome = true) ∧
    ∀ a < midRun.lzw.LZW_CLEN.toNat, (midRun.byteAt .cbuf a).isSome = true :=
  ⟨witness_midRun_inv, rfl, rfl, by decide, by decide⟩

/-- A fault, and then reset. -/
theorem witness_StickyFaultIsSticky :
    let s := does [.reset] (refusedAtStart 1 3 0x10 0 State.reset)
    s.status.STICKY_FAULT = true ∧ (reached (step s)).map (·.status.STICKY_FAULT) = some false := by decide

/-- A turn of each unit. -/
theorem witness_UnitsWriteOnlyTheirs :
    (let s := gscOf .scan 19 frame
    UnitTurn s s ∧ (reached (step s)).isSome = true) ∧
    (let s := gscOf .skip 18 frame
    UnitTurn s s ∧ (reached (step s)).isSome = true) ∧
    (let s := gscOf .concat 18 frame
    UnitTurn s s ∧ (reached (step s)).isSome = true) ∧
    (UnitTurn midRun midRun ∧ (reached (step midRun)).isSome = true) ∧
    (let s := bmpOf pixels (bmpRegs 0 2 2 24 0 0 0) 0 0
    UnitTurn s s ∧ (reached (step s)).isSome = true) :=
  ⟨⟨.inl ⟨rfl, rfl⟩, rfl⟩, ⟨.inl ⟨rfl, rfl⟩, rfl⟩, ⟨.inl ⟨rfl, rfl⟩, rfl⟩, ⟨.inl ⟨rfl, rfl⟩, rfl⟩, .inl ⟨rfl, rfl⟩, rfl⟩

/-- The reserved bits at both ends. -/
theorem witness_StatusLayout : 12 ≤ 12 ∧ 12 ≤ 31 := by decide

theorem witness_FaultCauseTable : Cause.code .B_SINK_BOUNDS = Cause.code .B_SINK_BOUNDS := rfl

theorem witness_ResetThenWaits : (does [.reset, .poll] midRun).host = .reset :: [.poll] ∧
    State.reset.host = [] ∧ State.reset.busy = false := ⟨rfl, rfl, rfl⟩

/-- A write to `SRC_LEN`, to a read-only, a reserved and an `RW` register, at the ends of the ranges; reads likewise. -/
theorem witness_HostRegisterAccess : State.reset.busy = false ∧
    (∀ i ∈ [0x01, 0x05, 0x06, 0x30, 0x31, 0x32, 0x40, 0x4E, 0x4F, 0x52],
      ∃ v, (does [.writeReg i v] State.reset).host = .writeReg i v :: [] ∧ i ≠ 0) ∧
    (∀ i ∈ [0x06, 0x0F, 0x1A, 0x1F, 0x29, 0x2F, 0x37, 0x3F, 0x52],
      0x05 < i ∧ i < 0x10 ∨ 0x19 < i ∧ i < 0x20 ∨ 0x28 < i ∧ i < 0x30 ∨ 0x36 < i ∧ i < 0x40 ∨ 0x51 < i) ∧
    (∀ i ∈ [0x00, 0x01, 0x19, 0x28, 0x36, 0x51], i ∈ (registerTable State.reset).map Prod.fst) ∧
    (∀ i ∈ [0x05, 0x30, 0x31, 0x40, 0x4E], i ∈ (writableTable 7 State.reset).map Prod.fst) ∧
    ∀ i ∈ [0x01, 0x06, 0x32, 0x4F, 0x52], i ∉ (writableTable 7 State.reset).map Prod.fst := by
  refine ⟨rfl, fun i hi => ⟨7, rfl, ?_⟩, by decide, by decide, by decide, by decide⟩
  rintro rfl
  exact absurd hi (by decide)

/-- Each action of the host, met by a running command. -/
theorem witness_BusyShutsTheHostOut : midRun.busy = true ∧
    (does [.writeReg 0 0] midRun).busy = true ∧ (does [.readReg 1] midRun).busy = true ∧
    (does [.readReg 0x32] midRun).busy = true ∧ (0x32 : Nat) ≠ 1 ∧ (does [.writeMem .cbuf 0 1] midRun).busy = true ∧
    (does [.readMem .obuf 0] midRun).busy = true := by decide

/-- A host that starts `LZW_RUN` after a `GIF_CONCAT`, lets it take one code (a clear code), and reads `STATUS`. -/
def lookInside : State :=
  does [.writeReg 0 3, .wait, .readReg 1]
    { cbufOf 2 [0x80, 0xA4, 0x74] with
      status := { STATE := .done, STICKY_FAULT := false, GIF_READY := true, MULTIFRAME := false, EOI_SEEN := true, LAST_CMD := 2 } }

/-- By rules R22, R75 and R132 it reads `BUSY` and the flags of before: `GIF_READY`, `EOI_SEEN` and `LAST_CMD` 2, though the run has
cleared `EOI_SEEN` and written `LAST_CMD`. -/
theorem test_status_while_busy : (match core.run 3 lookInside with
    | .next t => some (t.hostData, t.status.EOI_SEEN, t.status.LAST_CMD)
    | .fault _ => none
    | .refused _ => none) = some (0x251, false, 3) := by decide

theorem witness_HostSeesNothingBetween : lookInside.busy = false ∧
    ∃ t u, step lookInside = .next t ∧ (∀ j ≤ 1, ∀ v, core.run j t = .next v → v.busy = true) ∧
      core.run 1 t = .next u ∧ u.host = [.readReg 1] := by
  refine ⟨rfl, _, _, rfl, fun j hj v hv => ?_, rfl, rfl⟩
  interval_cases j <;> cases hv <;> rfl

/-- The last byte of a space, and one below it that nothing has written. -/
theorem witness_HostMemoryAccess :
    let s := { State.resetWith tight with sink := [(15, 7)] }
    s.busy = false ∧ 15 < capacity s.cfg .sink ∧ s.byteAt .sink 15 = some 7 ∧ s.byteAt .sink 14 = none := by decide

end Sys2Proof.Tests
end

section
/-! PROOFS. Memory (20_memory.md): the bit order of `ReadBitsMSB` (rule R66) and the bound on every read of `SRC` (rule R62). -/

namespace Sys2Proof.Machine

/-! ### `ReadBitsMSB` -/

/-- A byte is the one-byte window of its own number. -/
theorem beBytes_one_toNat (b : Byte) : beBytes 1 b.toNat = [b] := by
  simp [beBytes, trunc8]

/-- A field of one byte is the slice of the byte's number that ends `8 - (p + w)` bits above its least significant bit. -/
theorem streamValue_byte (b : Byte) {p w : Nat} (h : p + w ≤ 8) :
    streamValue (fun _ => b) p w = b.toNat / 2 ^ (8 - (p + w)) % 2 ^ w := by
  calc streamValue (fun _ => b) p w
      = streamValue (fun a => [b].getD a 0) p w := streamValue_congr fun a _ ha => by
        obtain rfl : a = 0 := by omega
        rfl
    _ = readBitsMSB (beBytes 1 b.toNat) p w := by rw [beBytes_one_toNat, readBitsMSB_eq]
    _ = b.toNat / 2 ^ (8 - (p + w)) % 2 ^ w := readBitsMSB_beBytes (by omega)

theorem streamValue_bit (b : Byte) {k : Nat} (hk : k < 8) : streamValue (fun _ => b) k 1 = (b.toNat >>> (7 - k)) % 2 := by
  rw [streamValue_byte b (by omega), Nat.shiftRight_eq_div_pow, pow_one, show 8 - (k + 1) = 7 - k by omega]

theorem streamValue_highNibble (b : Byte) : streamValue (fun _ => b) 0 4 = b.toNat / 16 := by
  have hb : b.toNat < 256 := b.isLt
  rw [streamValue_byte b (by decide)]
  exact Nat.mod_eq_of_lt (by omega)

theorem streamValue_lowNibble (b : Byte) : streamValue (fun _ => b) 4 4 = b.toNat % 16 := by
  rw [streamValue_byte b (by decide), Nat.sub_self, pow_zero, Nat.div_one]
  rfl

/-- Settles O43: a field of one byte is a slice of the byte's number, and the sum and its bound are the model's own laws of
`readBitsMSB`. -/
theorem readBitsMsbFirst : Obligations.ReadBitsMsbFirst := by
  refine ⟨fun bs p w => ⟨readBitsMSB_eq bs p w, readBitsMSB_lt bs p w⟩, fun b k => streamValue_bit b,
    fun b => ⟨streamValue_highNibble b, streamValue_lowNibble b⟩, ?_⟩
  decide

/-! ### Reads of `SRC` -/

/-- Fault entry with the kind and the code of the cause written as numbers (rules R261, R270). -/
theorem faultEntry_eq_faulted (c : Cause) (info : Nat) (s : State) :
    faultEntry c info s = faulted c.kind.code c.code (trunc32 info) s := rfl

/-- In each phase of `GSC` the step at a unit's turn is what comes of its fetch at the cursor. -/
theorem UnitTurn.step_gsc {s u : State} (h : UnitTurn s u)
    (hp : s.status.STATE = .busy .scan ∨ s.status.STATE = .busy .skip ∨ s.status.STATE = .busy .concat) :
    ∃ site, step s = ran (fetchGsc site u) := by
  rw [← h.state] at hp
  rw [h.step_eq]
  rcases hp with hp | hp | hp <;> rw [fetchRunning_busy hp]
  · exact ⟨.separator, rfl⟩
  · exact ⟨.length, rfl⟩
  · exact ⟨.length, rfl⟩

/-- Rule R62 at the cursor of `GSC`: at or beyond `SRC_LEN` the step faults. -/
theorem UnitTurn.step_gsc_short {s u : State} (h : UnitTurn s u)
    (hp : s.status.STATE = .busy .scan ∨ s.status.STATE = .busy .skip ∨ s.status.STATE = .busy .concat)
    (ha : s.SRC_LEN.toNat ≤ s.gscPos) : step s = .next (faulted 3 0x10 (trunc32 s.gscPos) u) := by
  obtain ⟨site, hs⟩ := h.step_gsc hp
  have hpos : u.gscPos = s.gscPos := by rw [h.eq]
  rw [hs, fetchGsc_short (by rw [h.eq]; exact ha), hpos]
  rfl

/-- Rule R38 at the cursor of `GSC`: below `SRC_LEN` a byte that nothing has written is refused. -/
theorem UnitTurn.step_gsc_unwritten {s u : State} (h : UnitTurn s u)
    (hp : s.status.STATE = .busy .scan ∨ s.status.STATE = .busy .skip ∨ s.status.STATE = .busy .concat)
    (ha : s.gscPos < s.SRC_LEN.toNat) (hb : s.byteAt .src s.gscPos = none) :
    step s = .refused (.unwrittenByte .src s.gscPos) := by
  obtain ⟨site, hs⟩ := h.step_gsc hp
  have hpos : u.gscPos = s.gscPos := by rw [h.eq]
  rw [hs, fetchGsc_unwritten (by rw [h.eq]; exact ha) (by rw [h.eq]; exact hb), hpos]
  rfl

/-- Settles O46: the three outcomes of `SrcRead`, and the same two stops where `GSC` fetches at its cursor. -/
theorem srcReadsAreBounded : Obligations.SrcReadsAreBounded := by
  refine ⟨fun s c a k hc => ⟨fun ha => ?_, fun b ha hb => srcRead_ok ha hb, fun ha hb => srcRead_unwritten ha hb⟩,
    fun s u hu hp => ⟨hu.step_gsc_short hp, hu.step_gsc_unwritten hp⟩⟩
  rw [srcRead_short ha, faultEntry_eq_faulted, hc]
  rfl

end Sys2Proof.Machine
end

section
/-! PROOFS. Encodings (30_encoding.md): the class of an LZW code (rule R92) and the pixel mode the registers select (rule
R104). -/

namespace Sys2Proof.Machine

/-! ### The class of a code -/

/-- The condition of rule R92 under which the code `v` is the instruction `i`, free of the order of the tests. -/
def CodeSelects (c : CodeCtx) (v : Nat) : Instr → Prop
  | .lzwClear => v = 2 ^ c.n
  | .lzwEoi => v = 2 ^ c.n + 1
  | .lzwFirst u => u = v ∧ c.hasPrev = false ∧ v < 2 ^ c.n
  | .lzwDict u => u = v ∧ c.hasPrev = true ∧ v < c.next ∧ v ≠ 2 ^ c.n ∧ v ≠ 2 ^ c.n + 1
  | .lzwKwkwk => c.hasPrev = true ∧ v = c.next
  | .lzwRange u => u = v ∧ (c.hasPrev = true ∧ c.next < v ∨ c.hasPrev = false ∧ 2 ^ c.n + 1 < v)
  | _ => False

/-- The class the decoder answers meets its condition. -/
theorem codeSelects_decodeCode (c : CodeCtx) (v : Nat) : CodeSelects c v (decodeCode c v) := by
  unfold decodeCode CodeCtx.clear CodeCtx.eoi
  by_cases hclear : v = 2 ^ c.n
  · rwa [if_pos hclear]
  by_cases heoi : v = 2 ^ c.n + 1
  · rwa [if_neg hclear, if_pos heoi]
  rw [if_neg hclear, if_neg heoi]
  cases hprev : c.hasPrev with
  | false =>
    rw [if_pos (by decide)]
    by_cases hlit : v < 2 ^ c.n
    · rw [if_pos hlit]
      exact ⟨rfl, hprev, hlit⟩
    · rw [if_neg hlit]
      exact ⟨rfl, .inr ⟨hprev, by omega⟩⟩
  | true =>
    rw [if_neg (by decide)]
    rcases Nat.lt_trichotomy v c.next with hlt | heq | hgt
    · rw [if_pos hlt]
      exact ⟨rfl, hprev, hlt, hclear, heoi⟩
    · rw [if_neg heq.not_lt, if_pos heq]
      exact ⟨hprev, heq⟩
    · rw [if_neg hgt.not_gt, if_neg hgt.ne']
      exact ⟨rfl, .inl ⟨hprev, hgt⟩⟩

/-- Once the next assignable code lies above the control codes, a class whose condition holds is the one the decoder answers. -/
theorem CodeSelects.decodeCode_eq {c : CodeCtx} {v : Nat} {i : Instr} (hnext : 2 ^ c.n + 2 ≤ c.next)
    (h : CodeSelects c v i) : decodeCode c v = i := by
  unfold decodeCode CodeCtx.clear CodeCtx.eoi
  cases i with
  | lzwClear =>
    have hclear : v = 2 ^ c.n := h
    rw [if_pos hclear]
  | lzwEoi =>
    have heoi : v = 2 ^ c.n + 1 := h
    rw [if_neg (by omega), if_pos heoi]
  | lzwFirst u =>
    obtain ⟨rfl, hprev, hlit⟩ := h
    rw [if_neg (by omega), if_neg (by omega), if_pos (by simp [hprev]), if_pos hlit]
  | lzwDict u =>
    obtain ⟨rfl, hprev, hlt, hclear, heoi⟩ := h
    rw [if_neg hclear, if_neg heoi, if_neg (by simp [hprev]), if_pos hlt]
  | lzwKwkwk =>
    obtain ⟨hprev, heq⟩ := h
    rw [if_neg (by omega), if_neg (by omega), if_neg (by simp [hprev]), if_neg (by omega), if_pos heq]
  | lzwRange u =>
    obtain ⟨rfl, ⟨hprev, hgt⟩ | ⟨hprev, hgt⟩⟩ := h
    · rw [if_neg (by omega), if_neg (by omega), if_neg (by simp [hprev]), if_neg (by omega), if_neg (by omega)]
    · rw [if_neg (by omega), if_neg (by omega), if_pos (by simp [hprev]), if_neg (by omega)]
  | _ => exact h.elim

/-- Rule R92 for any instruction: the bytes of a code's window decode to it exactly under its condition. -/
theorem decode_code_eq_iff {c : CodeCtx} {bs : List Byte} (hc : c.ok = true) (hl : bs.length = c.windowLen) (i : Instr) :
    decode (.code c) bs = .ok i ↔ CodeSelects c (streamValue (fun a => bs.getD a 0) c.off c.w) i := by
  obtain ⟨-, -, -, hnext, -, -⟩ := (CodeCtx.ok_iff c).1 hc
  rw [decode_code hl, readBitsMSB_eq, Except.ok.injEq]
  exact ⟨fun h => h ▸ codeSelects_decodeCode c _, fun h => h.decodeCode_eq hnext⟩

/-- Settles O41: each class is `decode_code_eq_iff` at its instruction. -/
theorem codeClasses : Obligations.CodeClasses := by
  intro c bs hc hl v
  have hiff : ∀ i, decode (.code c) bs = .ok i ↔ CodeSelects c v i := decode_code_eq_iff hc hl
  refine ⟨?_, hiff _, hiff _, (hiff _).trans ?_, (hiff _).trans ?_, hiff _, (hiff _).trans ?_⟩
  · show streamValue _ c.off c.w < 2 ^ c.w
    rw [← readBitsMSB_eq]
    exact readBitsMSB_lt bs c.off c.w
  all_goals exact and_iff_right rfl

/-! ### The pixel mode -/

/-- The condition of rule R104 under which the mode registers select the instruction `i`, free of the order of the tests. -/
def ModeSelects (bpp comp r g b : Word) : Instr → Prop
  | .bmpP1 => bpp = 1 ∧ comp = 0
  | .bmpP4 => bpp = 4 ∧ comp = 0
  | .bmpP8 => bpp = 8 ∧ comp = 0
  | .bmpRgb555 => bpp = 16 ∧ comp = 0
  | .bmpBf16 => bpp = 16 ∧ comp = 1
  | .bmpBgr24 => bpp = 24 ∧ comp = 0
  | .bmpBgra32 => bpp = 32 ∧ (comp = 0 ∨ comp = 1 ∧ (r = 0 ∨ g = 0 ∨ b = 0))
  | .bmpBf32 => bpp = 32 ∧ comp = 1 ∧ r ≠ 0 ∧ g ≠ 0 ∧ b ≠ 0
  | .bmpIllegal x y => (x = bpp ∧ y = comp) ∧ modePairLegal bpp comp = false
  | _ => False

/-- The table of rule R104 by method: no compression goes with any depth, `BitFields` with 16 and 32 bits. -/
theorem modePairLegal_eq_false_iff {bpp comp : Word} :
    modePairLegal bpp comp = false ↔ (comp = 0 → ¬DepthOk bpp) ∧ (comp = 1 → bpp ≠ 16 ∧ bpp ≠ 32) := by
  simp only [modePairLegal, DepthOk, Bool.or_eq_false_iff, Bool.and_eq_false_imp, beq_iff_eq, beq_eq_false_iff_ne, not_or,
    and_assoc, ne_eq]

/-- The mode the decoder answers meets its condition. -/
theorem modeSelects_decodeMode (bpp comp r g b : Word) : ModeSelects bpp comp r g b (decodeMode bpp comp r g b) := by
  unfold decodeMode
  by_cases h0 : comp = 0
  · rw [if_pos h0]
    split_ifs with h1 h4 h8 h16 h24 h32
    · exact ⟨h1, h0⟩
    · exact ⟨h4, h0⟩
    · exact ⟨h8, h0⟩
    · exact ⟨h16, h0⟩
    · exact ⟨h24, h0⟩
    · exact ⟨h32, .inl h0⟩
    · exact ⟨⟨rfl, rfl⟩, modePairLegal_eq_false_iff.2
        ⟨fun _ => by simp only [DepthOk, h1, h4, h8, h16, h24, h32, or_self, not_false_iff], fun _ => ⟨h16, h32⟩⟩⟩
  · rw [if_neg h0]
    split_ifs with h1 h16 h32 hz
    · exact ⟨h16, h1⟩
    · exact ⟨h32, .inr ⟨h1, hz⟩⟩
    · exact ⟨h32, h1, by simpa only [not_or] using hz⟩
    · exact ⟨⟨rfl, rfl⟩, modePairLegal_eq_false_iff.2 ⟨fun h => absurd h h0, fun _ => ⟨h16, h32⟩⟩⟩
    · exact ⟨⟨rfl, rfl⟩, modePairLegal_eq_false_iff.2 ⟨fun h => absurd h h0, fun h => absurd h h1⟩⟩

/-- A pair outside the table of rule R104 is decoded as `BMP.ILLEGAL`. -/
theorem decodeMode_illegal {bpp comp : Word} (r g b : Word) (h : modePairLegal bpp comp = false) :
    decodeMode bpp comp r g b = .bmpIllegal bpp comp := by
  obtain ⟨hdepth, hfields⟩ := modePairLegal_eq_false_iff.1 h
  unfold decodeMode
  by_cases h0 : comp = 0
  · obtain ⟨h1, h4, h8, h16, h24, h32⟩ := by simpa only [DepthOk, not_or] using hdepth h0
    rw [if_pos h0, if_neg h1, if_neg h4, if_neg h8, if_neg h16, if_neg h24, if_neg h32]
  by_cases h1 : comp = 1
  · obtain ⟨h16, h32⟩ := hfields h1
    rw [if_neg h0, if_pos h1, if_neg h16, if_neg h32]
  · rw [if_neg h0, if_neg h1]

/-- A mode whose condition holds is the one the decoder answers. -/
theorem ModeSelects.decodeMode_eq {bpp comp r g b : Word} {i : Instr} (h : ModeSelects bpp comp r g b i) :
    decodeMode bpp comp r g b = i := by
  cases i with
  | bmpP1 | bmpP4 | bmpP8 | bmpRgb555 | bmpBf16 | bmpBgr24 =>
    obtain ⟨rfl, rfl⟩ := h
    rfl
  | bmpBgra32 =>
    obtain ⟨rfl, rfl | ⟨rfl, hz⟩⟩ := h
    · rfl
    · exact if_pos hz
  | bmpBf32 =>
    obtain ⟨rfl, rfl, hr, hg, hb⟩ := h
    exact if_neg (not_or.2 ⟨hr, not_or.2 ⟨hg, hb⟩⟩)
  | bmpIllegal x y =>
    obtain ⟨⟨rfl, rfl⟩, hillegal⟩ := h
    exact decodeMode_illegal r g b hillegal
  | _ => exact h.elim

/-- Rule R104 for any instruction: the registers select it exactly under its condition. -/
theorem decodeMode_eq_iff (bpp comp r g b : Word) (i : Instr) :
    decodeMode bpp comp r g b = i ↔ ModeSelects bpp comp r g b i :=
  ⟨fun h => h ▸ modeSelects_decodeMode bpp comp r g b, ModeSelects.decodeMode_eq⟩

/-- A pair outside the table of rule R104 fails one of the start checks of `BMP_RENDER` (rule R151, checks 1 to 4). -/
theorem bmpStartFault_of_illegal {s : State} (h : modePairLegal s.bmp.BMP_BPP s.bmp.BMP_COMP = false) :
    ∃ c i, bmpStartFault s = some (c, i) := by
  cases hm : modeFault s.bmp.BMP_BPP.toNat s.bmp.BMP_COMP.toNat with
  | none => simp [modeFault_eq_none.1 hm] at h
  | some f => exact ⟨f.1, f.2, by rw [bmpStartFault, hm]⟩

/-- Settles O42: each mode is `decodeMode_eq_iff` at its instruction, and an illegal pair is refused by the mode
checks at start. -/
theorem modeSelection : Obligations.ModeSelection := by
  refine ⟨fun bpp comp r g b => ?_, fun s hc hillegal => ?_⟩
  · have hiff : ∀ i, decodeMode bpp comp r g b = i ↔ ModeSelects bpp comp r g b i := decodeMode_eq_iff bpp comp r g b
    exact ⟨hiff _, hiff _, hiff _, hiff _, hiff _, hiff _, hiff _, hiff _, (hiff _).trans (and_iff_right ⟨rfl, rfl⟩)⟩
  · obtain ⟨c, i, hfault⟩ := bmpStartFault_of_illegal hillegal
    exact ⟨_, _, _, bmpRender_refused hc hfault⟩

end Sys2Proof.Machine
end

section
/-! PROOFS. Host commands (40_host_commands.md): `NOP` (rule R135), the reserved command words (rule R140) and the check of
`SRC_LEN` at command start (rule R133). -/

namespace Sys2Proof.Machine

/-! ### `NOP` -/

/-- Rules R22, R135: acknowledged, `STATUS` keeps its four flags, shows `DONE`, and every other bit is 0. -/
theorem Status.word_acknowledged (st : Status) :
    { st with STATE := .done, LAST_CMD := 0 }.word = st.word &&& 0x78 ||| 2 := by
  apply BitVec.eq_of_getLsbD_eq
  intro i hi
  rw [BitVec.getLsbD_or, BitVec.getLsbD_and, Status.word_bit, Status.word_bit]
  interval_cases i <;> simp [RunState.code]

theorem exec_nop (s : State) : exec .nop s =
    .next { s with status := { s.status with STATE := .done, LAST_CMD := 0 }, fault := noFault } := rfl

/-- Settles O1: `exec_nop` gives the next state, `Status.word_acknowledged` its `STATUS`. -/
theorem nopAcknowledges : Obligations.NopAcknowledges := by
  refine fun s => ⟨_, exec_nop s, rfl, fun hword => ?_⟩
  rw [Status.word_acknowledged, hword]
  decide

/-! ### Faults at command start -/

/-- A fault with a word of information, raised on the state of command start (rules R133, R270), ends the command there. -/
theorem raise_commandStart (w : Word) (c : Cause) (info : Word) (s : State) :
    raise c info.toNat (commandStart w s) =
      .next (refusedAtStart (w.setWidth 4) c.kind.code c.code info s) := by
  have hinfo : trunc32 info.toNat = info := (BitVec.ofNat_toNat 32 info).trans (BitVec.setWidth_eq info)
  rw [raise, faultEntry, hinfo]
  rfl

/-- A reserved command word faults with the word (rule R140). -/
theorem exec_cmdReserved (c : Word) (s : State) :
    exec (.cmdReserved c) s = .next (refusedAtStart (c.setWidth 4) 7 0x01 c s) :=
  raise_commandStart c .U_BAD_CMD c s

/-- Rule R133: a command that reads `SRC` faults at its start on a length beyond the memory, whatever would follow. -/
theorem checkSrcLen_commandStart_refused {s : State} (h : s.cfg.SRC_CAP < s.SRC_LEN.toNat) (w : Word) (k : State → Out) :
    checkSrcLen (commandStart w s) k = .next (refusedAtStart (w.setWidth 4) 7 0x02 s.SRC_LEN s) :=
  (if_pos h).trans (raise_commandStart w .U_SRC_LEN s.SRC_LEN s)

/-- Settles O2: a reserved word is `exec_cmdReserved`; each command that reads `SRC` begins with the check of `SRC_LEN`. -/
theorem commandProtocolFaults : Obligations.CommandProtocolFaults := by
  refine fun s => ⟨fun c _ => exec_cmdReserved c s, fun h => ⟨?_, ?_, ?_⟩⟩
  · show execGifOpen s = _
    exact checkSrcLen_commandStart_refused h 1 _
  · show execGifConcat s = _
    exact checkSrcLen_commandStart_refused h 2 _
  · show execBmpRender s = _
    exact checkSrcLen_commandStart_refused h 4 _

end Sys2Proof.Machine
end

section
/-! PROOFS. The BMP pixel plane (41_bmp_pixel_plane.md): the start checks (rule R151), the stride (rule R152), the faults of a
palette pixel (rules R163, R164) and the BitFields scaling formula (rule R168). -/

namespace Sys2Proof.Machine

/-! ### The stride -/

theorem stride_eq_rowBytes (s : State) : stride s = rowBytes s := rfl

/-- Settles O37: every clause is arithmetic of the quotient by 32, the last with the width's bound. -/
theorem strideRoundsUp : Obligations.StrideRoundsUp := by
  intro s
  rw [stride_eq_rowBytes, rowBytes]
  refine ⟨rfl, Nat.mul_mod_left _ _, by omega, by omega, fun hbpp => ?_, fun hbpp => ?_⟩
  · rw [hbpp, show (24 : Word).toNat = 24 from rfl]
    omega
  · have hbits : s.bmp.BMP_BPP.toNat * s.bmp.BMP_WIDTH.toNat ≤ 32 * s.bmp.BMP_WIDTH.toNat := Nat.mul_le_mul_right _ hbpp
    have hwidth : s.bmp.BMP_WIDTH.toNat < 2 ^ 32 := s.bmp.BMP_WIDTH.isLt
    omega

/-! ### The BitFields scaling formula -/

/-- A word under a mask is at most the mask, so scaling it to a byte's range cannot exceed the byte. -/
theorem masked_scaled_le (raw mask : Nat) : (raw &&& mask) * 255 / mask ≤ 255 :=
  Nat.div_le_of_le_mul (Nat.mul_le_mul_right 255 Nat.and_le_right)

/-- Rule R168 with the exact product: the narrowing to a byte changes nothing. -/
theorem bfscale_unbounded_toNat (raw mask : Nat) :
    (bfscale .unbounded raw mask).toNat = (raw &&& mask) * 255 / mask :=
  (BitVec.toNat_ofNat _ 8).trans (Nat.mod_eq_of_lt (Nat.lt_succ_of_le (masked_scaled_le raw mask)))

/-- Rule R168 with the product modulo `2^32`, which only lowers the quotient. -/
theorem bfscale_bits32_toNat (raw mask : Nat) :
    (bfscale .bits32 raw mask).toNat = (raw &&& mask) * 255 % 2 ^ 32 / mask :=
  have hle : (raw &&& mask) * 255 % 2 ^ 32 / mask ≤ 255 :=
    (Nat.div_le_div_right (Nat.mod_le _ _)).trans (masked_scaled_le raw mask)
  (BitVec.toNat_ofNat _ 8).trans (Nat.mod_eq_of_lt (Nat.lt_succ_of_le hle))

/-- While the product fits 32 bits, both widths give the same byte. -/
theorem bfscale_bits32_eq_unbounded {raw mask : Nat} (h : raw &&& mask ≤ 0x01010101) :
    bfscale .bits32 raw mask = bfscale .unbounded raw mask := by
  have hfits : (raw &&& mask) * 255 < 2 ^ 32 := by omega
  apply BitVec.eq_of_toNat_eq
  rw [bfscale_bits32_toNat, bfscale_unbounded_toNat, Nat.mod_eq_of_lt hfits]

/-- Settles O36: the quotients are the two lemmas on `bfscale`, and where the widths differ the product has outgrown 32 bits. -/
theorem bitFieldScaling : Obligations.BitFieldScaling := by
  refine fun raw mask _ _ _ => ⟨bfscale_unbounded_toNat raw mask, bfscale_bits32_toNat raw mask, masked_scaled_le raw mask,
    fun hne => ?_⟩
  have hbig : 0x01010101 < (raw &&& mask) := by
    by_contra hle
    exact hne (bfscale_bits32_eq_unbounded (not_lt.1 hle)).symm
  have hmask : raw &&& mask ≤ mask := Nat.and_le_right
  exact ⟨hbig, by omega⟩

/-! ### The faults of a palette pixel -/

/-- A palette mode whose colour lookup ends the command ends it so, wherever the pixel stands (rule R164). -/
theorem PaletteIndex.exec_eq_of_palColour {i : Instr} {s : State} {index : Nat} {o : Out} (h : PaletteIndex i s index)
    (hpal : ∀ k, palColour index s k = o) : exec i s = o := by
  obtain ⟨pixel, hexec, hpixel⟩ := h.pixel
  rw [hexec]
  exact (hpixel _).trans (hpal _)

/-- Rule R164: the index check faults. -/
theorem palColour_refused {s : State} {index : Nat} (hcount : s.bmp.BMP_PAL_COUNT ≠ 0)
    (hindex : s.bmp.BMP_PAL_COUNT.toNat ≤ index) (k : Cell → Out) :
    palColour index s k = .next (faulted 4 0x39 (trunc32 index) s) := by
  rw [palColour, if_pos ⟨hcount, hindex⟩]
  rfl

/-- Rule R163: past the index check, the entry's three bytes are read in ascending order. -/
theorem palColour_allowed {s : State} {index : Nat} (h : IndexAllowed s index) (k : Cell → Out) :
    palColour index s k =
      srcRead .B_SRC_BOUNDS (s.bmp.BMP_PAL_BASE.toNat + index * 4 + 0) s fun b =>
        srcRead .B_SRC_BOUNDS (s.bmp.BMP_PAL_BASE.toNat + index * 4 + 1) s fun g =>
          srcRead .B_SRC_BOUNDS (s.bmp.BMP_PAL_BASE.toNat + index * 4 + 2) s fun r =>
            k { r := r, g := g, b := b, a := 255 } :=
  if_neg fun ⟨hcount, hindex⟩ => h.elim hcount hindex.not_gt

/-- Rules R62, R163: the read of the first byte the entry lacks faults. -/
theorem palColour_short {s : State} {index m : Nat} {e : Nat → Byte} (h : IndexAllowed s index) (hm : m < 3)
    (he : 0 < m → SrcHas s (s.bmp.BMP_PAL_BASE.toNat + index * 4) m e)
    (hend : s.SRC_LEN.toNat ≤ s.bmp.BMP_PAL_BASE.toNat + index * 4 + m) (k : Cell → Out) :
    palColour index s k = .next (faulted 3 0x3A (trunc32 (s.bmp.BMP_PAL_BASE.toNat + index * 4 + m)) s) := by
  rw [palColour_allowed h]
  match m with
  | 0 => exact srcRead_short hend
  | 1 =>
    have he := he (by decide)
    rw [he.read (by decide)]
    exact srcRead_short hend
  | 2 =>
    have he := he (by decide)
    rw [he.read (by decide), he.read (by decide)]
    exact srcRead_short hend

/-- Settles O32: both faults are the colour lookup's. -/
theorem palettePixelFaults : Obligations.PalettePixelFaults := fun _ _ _ hpixel =>
  ⟨fun hcount hindex => hpixel.exec_eq_of_palColour (palColour_refused hcount hindex),
    fun hallowed _ _ hm he hend => hpixel.exec_eq_of_palColour (palColour_short hallowed hm he hend)⟩

/-! ### The start checks of `BMP_RENDER` -/

/-- A start check of rule R151 that faults with a word of information refuses the command. -/
theorem bmpRender_refused_word {s : State} (hlen : s.SRC_LEN.toNat ≤ s.cfg.SRC_CAP) {c : Cause} {info : Word}
    (h : bmpStartFault s = some (c, info.toNat)) :
    exec .bmpRender s = .next (refusedAtStart 4 c.kind.code c.code info s) := by
  rw [bmpRender_refused hlen h, trunc32, BitVec.ofNat_toNat, BitVec.setWidth_eq]

/-- A pair of depth and method that fails checks (1) to (4) decides. -/
theorem bmpStartFault_of_modeFault {s : State} {f : Cause × Nat}
    (h : modeFault s.bmp.BMP_BPP.toNat s.bmp.BMP_COMP.toNat = some f) : bmpStartFault s = some f := by
  rw [bmpStartFault, h]

/-- Once checks (1) to (4) pass, checks (5) to (9) decide. -/
theorem bmpStartFault_of_mode_ok {s : State} (h : modeFault s.bmp.BMP_BPP.toNat s.bmp.BMP_COMP.toNat = none) :
    bmpStartFault s = geometryFault s := by
  rw [bmpStartFault, h]

/-- Checks (5) to (9) as conditions on the registers themselves. -/
theorem geometryFault_eq (s : State) : geometryFault s =
    if s.bmp.BMP_WIDTH = 0 ∨ s.bmp.BMP_HEIGHT = 0 then some (.B_ZERO_GEOMETRY, 0)
    else if 2 ^ 32 ≤ s.bmp.BMP_WIDTH.toNat * s.bmp.BMP_HEIGHT.toNat then some (.B_GEOMETRY_OVERFLOW, 0)
    else if s.bmp.BMP_BPP = 1 ∧ s.bmp.BMP_PAL_COUNT = 0 then some (.B_NO_PALETTE, 0)
    else if (s.bmp.BMP_BPP = 1 ∨ s.bmp.BMP_BPP = 4 ∨ s.bmp.BMP_BPP = 8) ∧
        2 ^ s.bmp.BMP_BPP.toNat < s.bmp.BMP_PAL_COUNT.toNat then
      some (.B_PALETTE_SIZE, s.bmp.BMP_PAL_COUNT.toNat)
    else if s.SRC_LEN.toNat < s.bmp.BMP_DATA_OFF.toNat + rowBytes s * s.bmp.BMP_HEIGHT.toNat then
      some (.B_DATA_REGION, s.bmp.BMP_DATA_OFF.toNat)
    else none := by
  have h0 (a : Word) : a.toNat = 0 ↔ a = 0 := (word_eq_iff (by decide)).symm
  have h1 (a : Word) : a.toNat = 1 ↔ a = 1 := (word_eq_iff (by decide)).symm
  have h4 (a : Word) : a.toNat = 4 ↔ a = 4 := (word_eq_iff (by decide)).symm
  have h8 (a : Word) : a.toNat = 8 ↔ a = 8 := (word_eq_iff (by decide)).symm
  exact if_congr (or_congr (h0 _) (h0 _)) rfl <| if_congr Iff.rfl rfl <|
    if_congr (and_congr (h1 _) (h0 _)) rfl <|
    if_congr (and_congr_left' (or_congr (h1 _) (or_congr (h4 _) (h8 _)))) rfl rfl

section Geometry

variable {s : State}

theorem geometryFault_zero (hzero : s.bmp.BMP_WIDTH = 0 ∨ s.bmp.BMP_HEIGHT = 0) :
    geometryFault s = some (.B_ZERO_GEOMETRY, 0) := by
  rw [geometryFault_eq, if_pos hzero]

variable (hsize : s.bmp.BMP_WIDTH ≠ 0 ∧ s.bmp.BMP_HEIGHT ≠ 0)
include hsize

theorem geometryFault_overflow (harea : 2 ^ 32 ≤ s.bmp.BMP_WIDTH.toNat * s.bmp.BMP_HEIGHT.toNat) :
    geometryFault s = some (.B_GEOMETRY_OVERFLOW, 0) := by
  rw [geometryFault_eq, if_neg (not_or.2 hsize), if_pos harea]

variable (harea : s.bmp.BMP_WIDTH.toNat * s.bmp.BMP_HEIGHT.toNat < 2 ^ 32)
include harea

theorem geometryFault_noPalette (hpal : s.bmp.BMP_BPP = 1 ∧ s.bmp.BMP_PAL_COUNT = 0) :
    geometryFault s = some (.B_NO_PALETTE, 0) := by
  rw [geometryFault_eq, if_neg (not_or.2 hsize), if_neg harea.not_ge, if_pos hpal]

variable (hpal : ¬(s.bmp.BMP_BPP = 1 ∧ s.bmp.BMP_PAL_COUNT = 0))
include hpal

theorem geometryFault_paletteSize (hbpp : s.bmp.BMP_BPP = 1 ∨ s.bmp.BMP_BPP = 4 ∨ s.bmp.BMP_BPP = 8)
    (hcount : 2 ^ s.bmp.BMP_BPP.toNat < s.bmp.BMP_PAL_COUNT.toNat) :
    geometryFault s = some (.B_PALETTE_SIZE, s.bmp.BMP_PAL_COUNT.toNat) := by
  rw [geometryFault_eq, if_neg (not_or.2 hsize), if_neg harea.not_ge, if_neg hpal, if_pos ⟨hbpp, hcount⟩]

theorem geometryFault_dataRegion
    (hcount : s.bmp.BMP_BPP = 1 ∨ s.bmp.BMP_BPP = 4 ∨ s.bmp.BMP_BPP = 8 →
      s.bmp.BMP_PAL_COUNT.toNat ≤ 2 ^ s.bmp.BMP_BPP.toNat)
    (hregion : s.SRC_LEN.toNat < s.bmp.BMP_DATA_OFF.toNat + rowBytes s * s.bmp.BMP_HEIGHT.toNat) :
    geometryFault s = some (.B_DATA_REGION, s.bmp.BMP_DATA_OFF.toNat) := by
  rw [geometryFault_eq, if_neg (not_or.2 hsize), if_neg harea.not_ge, if_neg hpal,
    if_neg fun ⟨hbpp, hlt⟩ => (hcount hbpp).not_gt hlt, if_pos hregion]

end Geometry

/-- Settles O29: each clause is the law of its check, carried to the command by the two lemmas on `bmpStartFault`. -/
theorem bmpStartChecksInOrder : Obligations.BmpStartChecksInOrder := by
  intro s hlen refused bpp comp count area depthOk agree mode sized bounded paletted checked
  have ofMode {c : Cause} {info : Word} (h : modeFault bpp.toNat comp.toNat = some (c, info.toNat)) :
      refused c.kind.code c.code info :=
    bmpRender_refused_word hlen (bmpStartFault_of_modeFault h)
  have ofGeometry {c : Cause} (info : Word) (h : geometryFault s = some (c, info.toNat)) (hmode : mode) :
      refused c.kind.code c.code info := by
    obtain ⟨hdepth, hagree, hcomp⟩ := hmode
    exact bmpRender_refused_word hlen ((bmpStartFault_of_mode_ok (modeFault_ok hdepth hagree hcomp)).trans h)
  exact
    ⟨fun hdepth => ofMode (modeFault_depth hdepth),
      fun hdepth hcomp => ofMode (modeFault_comp hdepth hcomp),
      fun hdepth hcomp hagree => ofMode (modeFault_agree hdepth hcomp hagree),
      fun hdepth hagree hlow hcomp => ofMode (modeFault_compressed hdepth hagree hlow hcomp),
      fun hmode hzero => ofGeometry 0 (geometryFault_zero hzero) hmode,
      fun ⟨hmode, hsize⟩ harea => ofGeometry 0 (geometryFault_overflow hsize harea) hmode,
      fun ⟨⟨hmode, hsize⟩, harea⟩ hbpp hcount =>
        ofGeometry 0 (geometryFault_noPalette hsize harea ⟨hbpp, hcount⟩) hmode,
      fun ⟨⟨⟨hmode, hsize⟩, harea⟩, hpal⟩ hbpp hcount =>
        ofGeometry _ (geometryFault_paletteSize hsize harea hpal hbpp hcount) hmode,
      fun ⟨⟨⟨⟨hmode, hsize⟩, harea⟩, hpal⟩, hcount⟩ hregion =>
        ofGeometry _ (geometryFault_dataRegion hsize harea hpal hcount hregion) hmode⟩

end Sys2Proof.Machine
end

section
/-! PROOFS. The GIF container (42_gif_container.md): the checks of `GIF_OPEN` up to the trailer (rules R191 to R193), the end of
the scan (rules R203 to R205) and the start of `GIF_CONCAT` (rule R211). -/

namespace Sys2Proof.Machine

/-! ### Fault entry with a register's or a byte's value -/

/-- The information word of a fault raised with a value of any width is the value at the register's width (rule R270). -/
theorem raise_toNat {w : Nat} (c : Cause) (v : BitVec w) (s : State) :
    raise c v.toNat s = .next (faulted c.kind.code c.code (v.setWidth 32) s) := by
  rw [raise, faultEntry_eq_faulted, trunc32, BitVec.ofNat_toNat]

/-- Rule R62: a read at `SRC_LEN` itself faults with the length. -/
theorem srcRead_at_length (c : Cause) (s : State) (k : Byte → Out) :
    srcRead c s.SRC_LEN.toNat s k = .next (faulted c.kind.code c.code s.SRC_LEN s) := by
  have h := raise_toNat c s.SRC_LEN s
  rw [BitVec.setWidth_eq] at h
  exact (srcRead_short le_rfl).trans h

theorem leNat_three (b0 b1 b2 : Byte) : leNat [b0, b1, b2] = b0.toNat + 256 * b1.toNat + 65536 * b2.toNat := by
  simp only [leNat]
  omega

/-! ### A file cut short -/

/-- Three reads in a row that run past the end of the file fault at the first missing offset (rule R62). -/
theorem SrcHas.three_reads_short {s : State} {b : Nat → Byte} (h : SrcHas s 0 s.SRC_LEN.toNat b) {a : Nat}
    (ha : a ≤ s.SRC_LEN.toNat) (hend : s.SRC_LEN.toNat < a + 3) (c : Cause) (k : Byte → Byte → Byte → Out) :
    srcRead c a s (fun x => srcRead c (a + 1) s fun y => srcRead c (a + 2) s fun z => k x y z) =
      .next (faulted c.kind.code c.code s.SRC_LEN s) := by
  have read {i : Nat} (hi : i < s.SRC_LEN.toNat) (k : Byte → Out) : srcRead c i s k = k (b i) := by
    simpa only [Nat.zero_add] using h.read hi (c := c) (k := k)
  obtain hlen | hlen | hlen : a = s.SRC_LEN.toNat ∨ a + 1 = s.SRC_LEN.toNat ∨ a + 2 = s.SRC_LEN.toNat := by omega
  · rw [hlen, srcRead_at_length]
  · rw [read (by omega), hlen, srcRead_at_length]
  · rw [read (by omega), read (by omega), hlen, srcRead_at_length]

/-! ### Signature, version and trailer -/

section Checks

variable {s : State} {b : Nat → Byte}

theorem gifSignature_short (hlen : s.SRC_LEN.toNat < 3) (h : SrcHas s 0 s.SRC_LEN.toNat b) (k : State → Out) :
    gifSignature s k = .next (faulted 3 0x10 s.SRC_LEN s) :=
  h.three_reads_short (Nat.zero_le _) hlen .G_SHORT _

theorem gifSignature_bad (h : SrcHas s 0 3 b) (hsig : ¬(b 0 = 0x47 ∧ b 1 = 0x49 ∧ b 2 = 0x46)) (k : State → Out) :
    gifSignature s k =
      .next (faulted 2 0x11 (trunc32 ((b 0).toNat + 256 * (b 1).toNat + 65536 * (b 2).toNat)) s) := by
  rw [gifSignature_known h, if_neg hsig, leNat_three]
  rfl

theorem gifSignature_ok (h : SrcHas s 0 3 b) (hsig : b 0 = 0x47 ∧ b 1 = 0x49 ∧ b 2 = 0x46) (k : State → Out) :
    gifSignature s k = k s := by
  rw [gifSignature_known h, if_pos hsig]

theorem gifVersion_short (hlow : 3 ≤ s.SRC_LEN.toNat) (hlen : s.SRC_LEN.toNat < 6) (h : SrcHas s 0 s.SRC_LEN.toNat b)
    (k : State → Out) : gifVersion s k = .next (faulted 3 0x10 s.SRC_LEN s) :=
  h.three_reads_short hlow hlen .G_SHORT _

theorem gifVersion_bad (h : SrcHas s 0 6 b) (hver : ∀ ver, ¬IsVersion (b 3) (b 4) (b 5) ver) (k : State → Out) :
    gifVersion s k =
      .next (faulted 2 0x12 (trunc32 ((b 3).toNat + 256 * (b 4).toNat + 65536 * (b 5).toNat)) s) := by
  rw [gifVersion_known h, versionCode_none hver, leNat_three]
  rfl

theorem gifVersion_ok (h : SrcHas s 0 6 b) {ver : Word} (hver : IsVersion (b 3) (b 4) (b 5) ver) (k : State → Out) :
    gifVersion s k = k { s with gif := { s.gif with GIF_VERSION := ver } } := by
  rw [gifVersion_known h, versionCode_of hver]

theorem gifTrailerCheck_bad (h0 : 0 < s.SRC_LEN.toNat) {last : Byte}
    (h : s.byteAt .src (s.SRC_LEN.toNat - 1) = some last) (hlast : last ≠ 0x3B) (k : State → Out) :
    gifTrailerCheck s k = .next (faulted 2 0x13 (last.setWidth 32) s) := by
  rw [gifTrailerCheck_known h0 h, if_neg hlast, raise_toNat]
  rfl

end Checks

/-! ### `GIF_OPEN` that ends at one of its checks -/

section Open

variable {s t : State} {o : Out} (hlen : s.SRC_LEN.toNat ≤ s.cfg.SRC_CAP)
include hlen

/-- A signature check that ends the command ends it so, whatever would follow (rule R191). -/
theorem exec_gifOpen_of_signature (h : ∀ k, gifSignature (openedGif s) k = o) : exec .gifOpen s = o :=
  (execGifOpen_checks hlen).trans (h _)

variable (hsig : ∀ k, gifSignature (openedGif s) k = k (openedGif s))
include hsig

/-- Past the signature, a version check that ends the command ends it so (rule R192). -/
theorem exec_gifOpen_of_version (h : ∀ k, gifVersion (openedGif s) k = o) : exec .gifOpen s = o :=
  ((execGifOpen_checks hlen).trans (hsig _)).trans (h _)

/-- Past the version, a trailer check that ends the command ends it so (rule R193). -/
theorem exec_gifOpen_of_trailer (hver : ∀ k, gifVersion (openedGif s) k = k t) (h : ∀ k, gifTrailerCheck t k = o) :
    exec .gifOpen s = o :=
  (((execGifOpen_checks hlen).trans (hsig _)).trans (hver _)).trans (h _)

end Open

/-- Settles O18: each clause is the law of its check, carried to the command past the checks before it. -/
theorem gifHeaderFaultsInOrder : Obligations.GifHeaderFaultsInOrder := by
  intro s b hlen
  have opened {m : Nat} (h : SrcHas s 0 m b) : SrcHas (openedGif s) 0 m b := h.congr rfl rfl
  refine ⟨fun hshort h => exec_gifOpen_of_signature hlen (gifSignature_short hshort (opened h)),
    fun h hbad => exec_gifOpen_of_signature hlen (gifSignature_bad (opened h) hbad), fun h0 h1 h2 => ?_⟩
  have signed {m : Nat} (h : SrcHas s 0 m b) (hm : 3 ≤ m) (k : State → Out) :
      gifSignature (openedGif s) k = k (openedGif s) :=
    gifSignature_ok ((opened h).mono hm) ⟨h0, h1, h2⟩ k
  refine ⟨fun hlow hshort h => ?_, fun h hbad => ?_, fun h ver last hver hlast hbad => ?_⟩
  · exact exec_gifOpen_of_version hlen (signed h hlow) (gifVersion_short hlow hshort (opened h))
  · exact exec_gifOpen_of_version hlen (signed h (by decide)) (gifVersion_bad (opened h) hbad)
  · refine exec_gifOpen_of_trailer hlen (signed h (by decide)) (gifVersion_ok (opened h) hver)
      (gifTrailerCheck_bad ?_ ?_ hbad)
    · exact Nat.lt_of_lt_of_le (by decide) h.1
    · exact hlast

/-! ### The end of the scan -/

/-- Rules R203, R205: the scan ends and `GIF_OPEN` completes. -/
theorem exec_gifTrailer (s : State) : exec .gifTrailer s = .next
    { s with
      status := { s.status with STATE := .done, GIF_READY := true }
      gif := { s.gif with GIF_POS := trunc32 s.gscPos } } := rfl

/-- Rule R204: any other separator faults with its byte. -/
theorem exec_gifBadsep (b : Byte) (s : State) :
    exec (.gifBadsep b) s = .next (faulted 2 0x15 (b.setWidth 32) s) :=
  raise_toNat .G_BAD_SEPARATOR b s

theorem decodeSeparator_bad {b : Byte} (himage : b ≠ 0x2C) (htrailer : b ≠ 0x3B) : decodeSeparator b = .gifBadsep b := by
  rw [decodeSeparator, if_neg himage, if_neg htrailer]

/-- At a separator position of the scan the unit's part of the invariant is `scanOk`. -/
theorem Inv.scanOk_of_scan {s : State} (h : Inv s) (hs : s.status.STATE = .busy .scan) : scanOk s := by
  have hunit := h.unit
  rwa [hs] at hunit

/-- Settles O22: the two meanings, the decoder's last branch, and `GIF_POS` by the invariant's `scanOk`. -/
theorem gifScanEnds : Obligations.GifScanEnds := by
  refine ⟨exec_gifTrailer, fun s b => exec_gifBadsep b s, rfl,
    fun b himage htrailer => congrArg Except.ok (decodeSeparator_bad himage htrailer), fun s hinv hscan => ?_⟩
  obtain ⟨-, -, -, hpos, -⟩ := hinv.scanOk_of_scan hscan
  exact hpos

/-! ### The start of `GIF_CONCAT` -/

/-- With a length that fits `SRC`, `GIF_CONCAT` starts on the checks of rule R211. -/
theorem exec_gifConcat_checks {s : State} (h : s.SRC_LEN.toNat ≤ s.cfg.SRC_CAP) : exec .gifConcat s =
    if s.status.GIF_READY = false then raise .U_NOT_READY 0 (commandStart 2 s)
    else if s.gif.GIF_FRAME_COUNT = 0 then raise .G_NO_FRAME 0 (commandStart 2 s)
    else .next (gscAt .concat s.frame0.F0_DATA_OFF.toNat { commandStart 2 s with gscCount := 0 }) := by
  show execGifConcat s = _
  rw [execGifConcat, checkSrcLen_ok (s := commandStart 2 s) h]
  rfl

/-- `GSC` in the concatenation at the first frame's data (rule R212): `GIF_POS` shows the offset register itself. -/
theorem gscAt_concat_dataOff (s : State) : gscAt .concat s.frame0.F0_DATA_OFF.toNat { commandStart 2 s with gscCount := 0 } =
    { s with
      status := { s.status with STATE := .busy .concat, LAST_CMD := 2 }
      fault := noFault
      gif := { s.gif with GIF_POS := s.frame0.F0_DATA_OFF }
      gscPos := s.frame0.F0_DATA_OFF.toNat
      gscCount := 0 } := by
  rw [gscAt, trunc32, BitVec.ofNat_toNat, BitVec.setWidth_eq]
  rfl

/-- Settles O24: the three branches of `exec_gifConcat_checks`. -/
theorem gifConcatStarts : Obligations.GifConcatStarts := by
  refine fun s hlen => ⟨fun hready => ?_, fun hready hcount => ?_, fun hready hcount => ?_⟩
  · rw [exec_gifConcat_checks hlen, if_pos hready]
    exact raise_commandStart 2 .U_NOT_READY 0 s
  · rw [exec_gifConcat_checks hlen, if_neg (ne_false_of_eq_true hready), if_pos hcount]
    exact raise_commandStart 2 .G_NO_FRAME 0 s
  · rw [exec_gifConcat_checks hlen, if_neg (ne_false_of_eq_true hready), if_neg hcount, gscAt_concat_dataOff]

end Sys2Proof.Machine
end

section
/-! PROOFS. The LZW decoder (43_lzw.md): the start checks and the initialisation of `LZW_RUN` (rules R221 to R224), one iteration
of the fetch loop (rules R225, R226), and the code classes that insert nothing (rules R227 to R229, R233). -/

namespace Sys2Proof.Machine

/-! ### The start of `LZW_RUN` -/

/-- Rule R221: a length beyond `CBUF`, or of 2^29 or more, decides. -/
theorem lzwStartFault_length {s : State} (hlen : s.cfg.CBUF_CAP < s.lzw.LZW_CLEN.toNat ∨ 2 ^ 29 ≤ s.lzw.LZW_CLEN.toNat) :
    lzwStartFault s = some (.U_CLEN, s.lzw.LZW_CLEN.toNat) := by
  rw [lzwStartFault, if_pos hlen]

/-- Rule R222: once the length is allowed, the code size decides. -/
theorem lzwStartFault_codeSize {s : State} (hcap : s.lzw.LZW_CLEN.toNat ≤ s.cfg.CBUF_CAP)
    (hbits : s.lzw.LZW_CLEN.toNat < 2 ^ 29) (hsize : s.lzw.LZW_N.toNat < 2 ∨ 8 < s.lzw.LZW_N.toNat) :
    lzwStartFault s = some (.L_BAD_CODE_SIZE, s.lzw.LZW_N.toNat) := by
  rw [lzwStartFault, if_neg (not_or.2 ⟨hcap.not_gt, hbits.not_ge⟩)]
  exact if_pos hsize

/-- A start check that faults with a word of information refuses the command. -/
theorem exec_lzwRun_refused {s : State} {c : Cause} {info : Word} (h : lzwStartFault s = some (c, info.toNat)) :
    exec .lzwRun s = .next (refusedAtStart 3 c.kind.code c.code info s) := by
  have hstart : lzwStartFault (commandStart 3 s) = some (c, info.toNat) := h
  show execLzwRun s = _
  rw [execLzwRun, hstart]
  exact raise_commandStart 3 c info s

/-- Past the start checks, `LZW_RUN` initialises its state and stands in its fetch loop (rules R223, R224). -/
theorem exec_lzwRun_starts {s : State} (h : lzwStartFault s = none) :
    exec .lzwRun s = .next ((lzwInit (commandStart 3 s)).setState (.busy .lzw)) := by
  have hstart : lzwStartFault (commandStart 3 s) = none := h
  show execLzwRun s = _
  rw [execLzwRun, hstart]

/-- Settles O4: the checks pass by `lzwStart_ok`, and the dictionary reads as `literals_get` says. -/
theorem lzwRunInitialises : Obligations.LzwRunInitialises := by
  intro s hcap hbits hmin hmax
  exact ⟨_, exec_lzwRun_starts (lzwStart_ok hcap hbits hmin hmax), rfl, literals_get (2 ^ s.lzw.LZW_N.toNat)⟩

/-- Settles O5: each check's fault, carried to the command by `exec_lzwRun_refused`. -/
theorem lzwRunRejects : Obligations.LzwRunRejects := fun _ =>
  ⟨fun hlen => exec_lzwRun_refused (lzwStartFault_length hlen),
    fun hcap hbits hsize => exec_lzwRun_refused (lzwStartFault_codeSize hcap hbits hsize)⟩

/-! ### The fetch loop -/

/-- `raise` with a register's value for information (rule R270). -/
theorem raise_word (c : Cause) (info : Word) (s : State) :
    raise c info.toNat s = .next (faulted c.kind.code c.code info s) := by
  rw [raise_toNat, BitVec.setWidth_eq]

section Fetch

variable {s : State}

/-- Rule R226: with fewer bits than a code left, the run ends. -/
theorem fetchCode_exhausted (h : 8 * s.lzw.LZW_CLEN.toNat < s.lzw.LZW_BITPOS.toNat + s.lzw.LZW_W.toNat) :
    fetchCode s = .effect (.next (stop s)) :=
  if_pos h

variable (hleft : s.lzw.LZW_BITPOS.toNat + s.lzw.LZW_W.toNat ≤ 8 * s.lzw.LZW_CLEN.toNat)
include hleft

/-- Rule R225: a code wider than `WMAX` faults with its width. -/
theorem fetchCode_tooWide (h : s.cfg.WMAX < s.lzw.LZW_W.toNat) :
    fetchCode s = .effect (.next (faulted 6 0x22 s.lzw.LZW_W s)) := by
  rw [fetchCode, if_neg hleft.not_gt, if_pos h, raise_word]
  rfl

/-- Rule R38: the first unwritten byte of the code's window refuses the read. -/
theorem fetchCode_unwritten (hwidth : s.lzw.LZW_W.toNat ≤ s.cfg.WMAX) {a : Nat} (hfrom : s.lzw.LZW_BITPOS.toNat / 8 ≤ a)
    (hto : 8 * a < s.lzw.LZW_BITPOS.toNat + s.lzw.LZW_W.toNat) (hnone : s.byteAt .cbuf a = none)
    (hbefore : ∀ i, s.lzw.LZW_BITPOS.toNat / 8 ≤ i → i < a → (s.byteAt .cbuf i).isSome = true) :
    fetchCode s = .effect (.refused (.unwrittenByte .cbuf a)) := by
  have hwindow : (codeCtx s).windowLen = (s.lzw.LZW_BITPOS.toNat % 8 + s.lzw.LZW_W.toNat + 7) / 8 := rfl
  have hread : cbufBytes s (s.lzw.LZW_BITPOS.toNat / 8) (codeCtx s).windowLen = .error a :=
    cbufBytes_unwritten hfrom (by omega) hnone hbefore
  rw [fetchCode, if_neg hleft.not_gt, if_neg hwidth.not_gt, hread]

end Fetch

/-- In the fetch loop, the step at the unit's turn is what comes of the fetch of a code. -/
theorem UnitTurn.step_lzw {s u : State} (h : UnitTurn s u) (hs : s.status.STATE = .busy .lzw) :
    step s = ran (fetchCode u) := by
  rw [h.step_eq, fetchRunning_busy (by rw [h.state, hs])]
  rfl

/-- In the fetch loop no end-of-information code has been seen. -/
theorem Inv.eoi_unseen {s : State} (h : Inv s) (hs : s.status.STATE = .busy .lzw) : s.status.EOI_SEEN = false := by
  have hunit : lzwOk s := h.unitAt hs
  obtain ⟨-, -, -, -, -, -, -, -, -, -, -, -, -, -, heoi⟩ := hunit
  exact heoi

/-- Settles O13: at the unit's turn the registers and `CBUF` are those of `s`, and each clause is the law of its branch of
`fetchCode`. -/
theorem lzwFetchLoop : Obligations.LzwFetchLoop := by
  intro s u hturn hs
  have hlzw : s.lzw = u.lzw := by rw [hturn.eq]
  have hcfg : s.cfg = u.cfg := by rw [hturn.eq]
  have hcbuf : s.byteAt .cbuf = u.byteAt .cbuf := by rw [hturn.eq]; rfl
  rw [hturn.step_lzw hs, hlzw, hcfg, hcbuf]
  exact
    ⟨fun hend => ⟨congrArg ran (fetchCode_exhausted hend), fun hinv => hinv.eoi_unseen hs⟩,
      fun hleft hwide => congrArg ran (fetchCode_tooWide hleft hwide),
      fun hleft hwidth _ hbytes => ran_fetchCode_known hleft hwidth hbytes,
      fun hleft hwidth _ hfrom hto hnone hbefore =>
        congrArg ran (fetchCode_unwritten hleft hwidth hfrom hto hnone hbefore)⟩

/-! ### `LZW.CLEAR` and `LZW.EOI` -/

theorem decodeCode_clear (c : CodeCtx) : decodeCode c (2 ^ c.n) = .lzwClear := if_pos rfl

theorem decodeCode_eoi (c : CodeCtx) : decodeCode c (2 ^ c.n + 1) = .lzwEoi := by
  rw [decodeCode, CodeCtx.clear, if_neg (Nat.succ_ne_self _)]
  exact if_pos rfl

/-- Settles O6: the meaning is `dictReset`, whose dictionary reads as `literals_get` says. -/
theorem lzwClearResets : Obligations.LzwClearResets :=
  ⟨decodeCode_clear, fun s => ⟨dictReset s, rfl, rfl, literals_get (2 ^ s.lzw.LZW_N.toNat)⟩⟩

/-- Rule R228: `EOI_SEEN` is set and the run ends. -/
theorem exec_lzwEoi (s : State) :
    exec .lzwEoi s = .next { s with status := { s.status with STATE := .done, EOI_SEEN := true } } := rfl

/-- Settles O7: the decoder's second test, and the meaning. -/
theorem lzwEoiStops : Obligations.LzwEoiStops := ⟨decodeCode_eoi, exec_lzwEoi⟩

/-! ### `LZW.FIRST` -/

/-- Rule R92: with no previous code, a value below `2^n` is a literal. -/
theorem decodeCode_first {c : CodeCtx} {v : Nat} (hprev : c.hasPrev = false) (hv : v < 2 ^ c.n) :
    decodeCode c v = .lzwFirst v := by
  rw [decodeCode, CodeCtx.clear, CodeCtx.eoi, if_neg (by omega), if_neg (by omega), if_pos (by rw [hprev]; rfl), if_pos hv]

/-- Rule R7: an admissible capacity of `OBUF` is a 32-bit number. -/
theorem obufCap_lt_of_admissible {cfg : Config} (h : cfg.admissible = true) : cfg.OBUF_CAP < 2 ^ 32 := by
  simp only [Config.admissible, Config.capOk, Bool.and_eq_true, decide_eq_true_eq] at h
  obtain ⟨⟨⟨-, -, hobuf⟩, -⟩, -⟩ := h
  exact hobuf

/-- Rule R64: with `OBUF` full, the first byte of a string faults with the length of the output. -/
theorem emit_cons_full {s : State} (h : s.cfg.OBUF_CAP ≤ s.lzw.LZW_OLEN.toNat) (b : Byte) (bs : List Byte)
    (k : State → Out) : emit (b :: bs) s k = .next (faulted 6 0x23 s.lzw.LZW_OLEN s) := by
  rw [emit, obufAppend, if_pos h, raise_word]
  rfl

/-- The bytes of a string that fits are the ones appended (rules R64, R234). -/
theorem emitted_appended {bs : List Byte} {s : State} (h : s.lzw.LZW_OLEN.toNat + bs.length < 2 ^ 32) :
    Appended bs bs.length s (emitted bs s) := by
  refine ⟨?_, emitted_byteAt bs s h⟩
  rw [emitted_frame]

/-- Rule R229: with room in `OBUF`, the literal is emitted and remembered. -/
theorem exec_lzwFirst_ok {s : State} (hcap : s.cfg.OBUF_CAP < 2 ^ 32) (hroom : s.lzw.LZW_OLEN.toNat < s.cfg.OBUF_CAP)
    (v : Nat) : exec (.lzwFirst v) s = .next (lzwRemember v (emitted [trunc8 v] s)) :=
  emit_ok hroom hcap

/-- Settles O8: `exec_lzwFirst_ok` with `emitted_appended`, and `emit_cons_full`. -/
theorem lzwFirstEmits : Obligations.LzwFirstEmits := by
  refine ⟨fun c v hprev hv => decodeCode_first hprev hv, fun s v hcfg => ⟨fun hroom => ?_, fun hfull => ?_⟩⟩
  · have hcap : s.cfg.OBUF_CAP < 2 ^ 32 := obufCap_lt_of_admissible hcfg
    have happ : Appended [trunc8 v] 1 s (emitted [trunc8 v] s) :=
      emitted_appended (Nat.lt_of_le_of_lt (Nat.succ_le_of_lt hroom) hcap)
    refine ⟨_, exec_lzwFirst_ok hcap hroom v, ?_, happ⟩
    rw [emitted_frame]
    rfl
  · exact emit_cons_full hfull _ _ _

/-! ### `LZW.RANGE` -/

/-- Rule R233: a code out of bounds faults with its value. -/
theorem exec_lzwRange (v : Nat) (s : State) : exec (.lzwRange v) s = .next (faulted 4 0x21 (trunc32 v) s) := rfl

/-- Settles O12: the meaning, and the class's condition in a legal context by `CodeSelects.decodeCode_eq`. -/
theorem lzwRangeFaults : Obligations.LzwRangeFaults := by
  refine ⟨fun s v => exec_lzwRange v s, fun c v hc hbounds => ?_⟩
  obtain ⟨-, -, -, hnext, -, -⟩ := (CodeCtx.ok_iff c).1 hc
  exact CodeSelects.decodeCode_eq hnext ⟨rfl, hbounds⟩

end Sys2Proof.Machine
end


section
/-! PROOFS. Fault entry (60_exceptions.md, rule R270). -/

namespace Sys2Proof.Machine

/-- Settles O54: the machine goes on in the state of fault entry, which `faultEntry_eq_faulted` writes out as the faulted one. -/
theorem faultEntryRecords : Obligations.FaultEntryRecords := by
  intro s c info
  rw [raise, faultEntry_eq_faulted, faulted]

end Sys2Proof.Machine
end

section
/-! PROOFS. Encodings (30_encoding.md): at each site the well-formed instructions are those the decoder answers, and the encoder
writes bytes that decode to them (rules R91, R92, R99, R102, R104). -/

namespace Sys2Proof.Machine

/-! ### Command words -/

theorem wf_decodeCommand (c : Word) : (decodeCommand c).wf .command = true := by
  unfold decodeCommand
  split_ifs with h0 h1 h2 h3 h4
  iterate 5 rfl
  have hne (n : Nat) (hn : n < 2 ^ 32) (h : c ≠ BitVec.ofNat 32 n) : c.toNat ≠ n := mt (word_eq_iff hn).2 h
  have h0 := hne 0 (by decide) h0
  have h1 := hne 1 (by decide) h1
  have h2 := hne 2 (by decide) h2
  have h3 := hne 3 (by decide) h3
  have h4 := hne 4 (by decide) h4
  simp only [Instr.wf, Site.isCommand, Bool.true_and, decide_eq_true_eq]
  omega

/-- A reserved command word is none of the five commands. -/
theorem decodeCommand_reserved {c : Word} (h : 4 < c.toNat) : decodeCommand c = .cmdReserved c := by
  have hne {d : Word} (hd : d.toNat ≤ 4) : c ≠ d := by rintro rfl; omega
  rw [decodeCommand, if_neg (hne (by decide)), if_neg (hne (by decide)), if_neg (hne (by decide)),
    if_neg (hne (by decide)), if_neg (hne (by decide))]

theorem exists_decodeCommand_of_wf {i : Instr} (h : i.wf .command = true) : ∃ c, decodeCommand c = i := by
  cases i with
  | nop => exact ⟨0, rfl⟩
  | gifOpen => exact ⟨1, rfl⟩
  | gifConcat => exact ⟨2, rfl⟩
  | lzwRun => exact ⟨3, rfl⟩
  | bmpRender => exact ⟨4, rfl⟩
  | cmdReserved c => exact ⟨c, decodeCommand_reserved (by simpa [Instr.wf, Site.isCommand] using h)⟩
  | _ => simp [Instr.wf, Site.isCode, Site.isSeparator, Site.isLength, Site.isMode] at h

theorem encode_decodeCommand (c : Word) : encode .command (decodeCommand c) = encodeWord c.toNat := by
  unfold decodeCommand
  split_ifs with h0 h1 h2 h3 h4
  · rw [h0]; rfl
  · rw [h1]; rfl
  · rw [h2]; rfl
  · rw [h3]; rfl
  · rw [h4]; rfl
  · rfl

/-- Four bytes are the encoding of the word they read as. -/
theorem encodeWord_wordField {bs : List Byte} (h : bs.length = 4) : encodeWord (wordField bs 0).toNat = bs := by
  have hlt := leNat_lt bs
  have hle := leBytes_leNat bs
  rw [h] at hlt hle
  rw [wordField, Nat.mul_zero, List.drop_zero, List.take_of_length_le h.le, BitVec.toNat_ofNat, encodeWord,
    Nat.mod_eq_of_lt (b := 2 ^ 32) hlt, hle]

/-! ### Separators and length bytes -/

theorem wf_decodeSeparator (b : Byte) : (decodeSeparator b).wf .separator = true := by
  unfold decodeSeparator
  split_ifs with himage htrailer
  · rfl
  · rfl
  · simp only [Instr.wf, Site.isSeparator, Bool.true_and, Bool.and_eq_true, bne_iff_ne]
    exact ⟨himage, htrailer⟩

theorem exists_decodeSeparator_of_wf {i : Instr} (h : i.wf .separator = true) : ∃ b, decodeSeparator b = i := by
  cases i with
  | gifImage => exact ⟨0x2C, rfl⟩
  | gifTrailer => exact ⟨0x3B, rfl⟩
  | gifBadsep b =>
    obtain ⟨himage, htrailer⟩ : b ≠ 0x2C ∧ b ≠ 0x3B := by simpa [Instr.wf, Site.isSeparator] using h
    exact ⟨b, decodeSeparator_bad himage htrailer⟩
  | _ => simp [Instr.wf, Site.isCode, Site.isCommand, Site.isLength, Site.isMode] at h

theorem encode_decodeSeparator (b : Byte) : encode .separator (decodeSeparator b) = [b] := by
  unfold decodeSeparator
  split_ifs with himage htrailer
  · rw [himage]; rfl
  · rw [htrailer]; rfl
  · rfl

theorem wf_decodeLength (b : Byte) : (decodeLength b).wf .length = true := by
  unfold decodeLength
  split_ifs with hzero
  · rfl
  · simpa only [Instr.wf, Site.isLength, Bool.true_and, bne_iff_ne] using hzero

theorem exists_decodeLength_of_wf {i : Instr} (h : i.wf .length = true) : ∃ b, decodeLength b = i := by
  cases i with
  | gifTerminator => exact ⟨0, rfl⟩
  | gifSubblock len => exact ⟨len, if_neg (by simpa [Instr.wf, Site.isLength] using h)⟩
  | _ => simp [Instr.wf, Site.isCode, Site.isCommand, Site.isSeparator, Site.isMode] at h

theorem encode_decodeLength (b : Byte) : encode .length (decodeLength b) = [b] := by
  unfold decodeLength
  split_ifs with hzero
  · rw [hzero]; rfl
  · rfl

/-! ### Codes -/

/-- In a legal context a code instruction is well-formed exactly when some code of the width in force selects it. -/
theorem wf_code_iff {c : CodeCtx} (hc : c.ok = true) (i : Instr) :
    i.wf (.code c) = true ↔ ∃ v < 2 ^ c.w, CodeSelects c v i := by
  obtain ⟨hclear, heoi, hnext⟩ := CodeCtx.controls_lt hc
  cases i with
  | lzwClear => exact iff_of_true (by simpa [Instr.wf, Site.isCode] using hc) ⟨_, hclear, rfl⟩
  | lzwEoi => exact iff_of_true (by simpa [Instr.wf, Site.isCode] using hc) ⟨_, heoi, rfl⟩
  | lzwFirst u =>
    simp only [Instr.wf, Site.isCode, hc, Bool.true_and, Bool.and_eq_true, Bool.not_eq_true', decide_eq_true_eq]
    exact ⟨fun ⟨hprev, hlit⟩ => ⟨u, hlit.trans hclear, rfl, hprev, hlit⟩, fun ⟨_, _, rfl, hprev, hlit⟩ => ⟨hprev, hlit⟩⟩
  | lzwDict u =>
    simp only [Instr.wf, Site.isCode, hc, Bool.true_and, Bool.and_eq_true, decide_eq_true_eq, bne_iff_ne]
    exact ⟨fun ⟨⟨⟨hprev, hlt⟩, hclear⟩, heoi⟩ => ⟨u, hlt.trans hnext, rfl, hprev, hlt, hclear, heoi⟩,
      fun ⟨_, _, rfl, hprev, hlt, hclear, heoi⟩ => ⟨⟨⟨hprev, hlt⟩, hclear⟩, heoi⟩⟩
  | lzwKwkwk =>
    simp only [Instr.wf, Site.isCode, hc, Bool.true_and]
    exact ⟨fun hprev => ⟨_, hnext, hprev, rfl⟩, fun ⟨_, _, hprev, _⟩ => hprev⟩
  | lzwRange u =>
    have hcond : (if c.hasPrev = true then decide (c.next < u) else decide (c.eoi < u)) = true ↔
        c.hasPrev = true ∧ c.next < u ∨ c.hasPrev = false ∧ c.eoi < u := by
      cases c.hasPrev <;> simp
    simp only [Instr.wf, Site.isCode, hc, Bool.true_and, Bool.and_eq_true, decide_eq_true_eq, hcond]
    exact ⟨fun ⟨hu, h⟩ => ⟨u, hu, rfl, h⟩, fun ⟨_, hu, rfl, h⟩ => ⟨hu, h⟩⟩
  | _ => simp [Instr.wf, CodeSelects, Site.isCommand, Site.isSeparator, Site.isLength, Site.isMode]

/-- The encoding of an instruction is the window of the code that selects it. -/
theorem CodeSelects.encode_eq {c : CodeCtx} {v : Nat} {i : Instr} (h : CodeSelects c v i) :
    encode (.code c) i = beBytes c.windowLen (v * 2 ^ (8 * c.windowLen - (c.off + c.w))) := by
  cases i with
  | lzwClear | lzwEoi =>
    obtain rfl := h
    rfl
  | lzwFirst u | lzwDict u | lzwRange u =>
    obtain ⟨rfl, -⟩ := h
    rfl
  | lzwKwkwk =>
    obtain ⟨-, rfl⟩ := h
    rfl
  | _ => exact h.elim

/-- Rule R92: the code read from an instruction's encoding is the one that selects it. -/
theorem CodeSelects.streamValue_encode {c : CodeCtx} {v : Nat} {i : Instr} (h : CodeSelects c v i) (hv : v < 2 ^ c.w) :
    streamValue (fun a => (encode (.code c) i).getD a 0) c.off c.w = v := by
  rw [← readBitsMSB_eq, h.encode_eq, readBitsMSB_encode hv]

/-- An instruction well-formed at a code site is well-formed in a legal context. -/
theorem ctx_ok_of_wf_code {c : CodeCtx} {i : Instr} (h : i.wf (.code c) = true) : c.ok = true := by
  cases i with
  | lzwClear | lzwEoi | lzwFirst | lzwDict | lzwKwkwk | lzwRange =>
    simp only [Instr.wf, Site.isCode, Bool.and_eq_true] at h
    exact h.1
  | _ => simp [Instr.wf, Site.isCommand, Site.isSeparator, Site.isLength, Site.isMode] at h

theorem decode_encode_code {c : CodeCtx} {i : Instr} (h : i.wf (.code c) = true) :
    decode (.code c) (encode (.code c) i) = .ok i := by
  have hc := ctx_ok_of_wf_code h
  obtain ⟨v, hv, hsel⟩ := (wf_code_iff hc i).1 h
  have hlen : (encode (.code c) i).length = c.windowLen := by rw [hsel.encode_eq, beBytes_length]
  rw [decode_code_eq_iff hc hlen, hsel.streamValue_encode hv]
  exact hsel

/-! ### Modes -/

theorem wf_decodeMode (bpp comp r g b : Word) : (decodeMode bpp comp r g b).wf .mode = true := by
  have h := modeSelects_decodeMode bpp comp r g b
  cases hi : decodeMode bpp comp r g b with
  | bmpP1 | bmpP4 | bmpP8 | bmpRgb555 | bmpBf16 | bmpBgr24 | bmpBgra32 | bmpBf32 => rfl
  | bmpIllegal x y =>
    rw [hi] at h
    obtain ⟨⟨rfl, rfl⟩, hillegal⟩ := h
    simp [Instr.wf, Site.isMode, hillegal]
  | _ => rw [hi] at h; exact h.elim

/-- The register image the encoder gives a mode selects it (rule R104; log 16). -/
theorem decode_encode_mode {i : Instr} (h : i.wf .mode = true) : decode .mode (encode .mode i) = .ok i := by
  cases i with
  | bmpP1 => exact decode_mode 1 0 0 0 0
  | bmpP4 => exact decode_mode 4 0 0 0 0
  | bmpP8 => exact decode_mode 8 0 0 0 0
  | bmpRgb555 => exact decode_mode 16 0 0 0 0
  | bmpBf16 => exact decode_mode 16 1 0xF800 0x07E0 0x001F
  | bmpBgr24 => exact decode_mode 24 0 0 0 0
  | bmpBgra32 => exact decode_mode 32 0 0 0 0
  | bmpBf32 => exact decode_mode 32 1 0x00FF0000 0x0000FF00 0x000000FF
  | bmpIllegal bpp comp =>
    have hillegal : modePairLegal bpp comp = false := by simpa [Instr.wf, Site.isMode] using h
    exact (decode_mode bpp comp 0 0 0).trans (congrArg Except.ok (decodeMode_illegal 0 0 0 hillegal))
  | _ => simp [Instr.wf, Site.isCode, Site.isCommand, Site.isSeparator, Site.isLength] at h

/-! ### Every site -/

/-- Settles O39, site by site: at the first three the instruction is what some bytes decode to and its encoding is those bytes;
at a code it is `decode_encode_code`, at a mode `decode_encode_mode`. -/
theorem decodeEncodeRoundTrip : Obligations.DecodeEncodeRoundTrip := by
  intro site i h
  cases site with
  | command =>
    obtain ⟨c, rfl⟩ := exists_decodeCommand_of_wf h
    rw [encode_decodeCommand, decode_command]
  | separator =>
    obtain ⟨b, rfl⟩ := exists_decodeSeparator_of_wf h
    rw [encode_decodeSeparator]
    rfl
  | length =>
    obtain ⟨b, rfl⟩ := exists_decodeLength_of_wf h
    rw [encode_decodeLength]
    rfl
  | code c => exact decode_encode_code h
  | mode => exact decode_encode_mode h

/-- Exactly the byte strings of the site's length decode, each to the site's reading of it. -/
theorem decode_eq_ok_iff {site : Site} {bs : List Byte} {i : Instr} :
    decode site bs = .ok i ↔ bs.length = site.byteLen ∧ decodeAt site bs = i := by
  unfold decode
  split_ifs with h <;> simp [h]

theorem decode_isOk_iff (site : Site) (bs : List Byte) : (∃ i, decode site bs = .ok i) ↔ bs.length = site.byteLen := by
  simp [decode_eq_ok_iff]

theorem wf_decodeAt {site : Site} (hctx : ∀ c, site = .code c → c.ok = true) (bs : List Byte) :
    (decodeAt site bs).wf site = true := by
  cases site with
  | command => exact wf_decodeCommand _
  | separator => exact wf_decodeSeparator _
  | length => exact wf_decodeLength _
  | code c => exact (wf_code_iff (hctx c rfl) _).2 ⟨_, readBitsMSB_lt bs c.off c.w, codeSelects_decodeCode c _⟩
  | mode => exact wf_decodeMode _ _ _ _ _

/-- At a site of one reading, the bytes are the encoding of what they decode to. -/
theorem encode_decodeAt {site : Site} (hsite : site = .command ∨ site = .separator ∨ site = .length) {bs : List Byte}
    (hlen : bs.length = site.byteLen) : encode site (decodeAt site bs) = bs := by
  rcases hsite with rfl | rfl | rfl
  · exact (encode_decodeCommand _).trans (encodeWord_wordField hlen)
  · obtain ⟨b, rfl⟩ := List.length_eq_one_iff.1 hlen
    exact encode_decodeSeparator b
  · obtain ⟨b, rfl⟩ := List.length_eq_one_iff.1 hlen
    exact encode_decodeLength b

/-- Settles O40: `decode_isOk_iff`, `wf_decodeAt`, `encode_decodeAt`, and at a code `CodeSelects.streamValue_encode`. -/
theorem decodedIsWellFormed : Obligations.DecodedIsWellFormed := by
  refine fun site bs => ⟨decode_isOk_iff site bs, fun i hi => ?_⟩
  obtain ⟨hlen, rfl⟩ := decode_eq_ok_iff.1 hi
  refine ⟨fun hctx => wf_decodeAt hctx bs, fun hsite => encode_decodeAt hsite hlen, ?_⟩
  rintro c rfl -
  have hread : readBitsMSB bs c.off c.w = streamValue (fun a => bs.getD a 0) c.off c.w := readBitsMSB_eq bs c.off c.w
  rw [← hread]
  exact (codeSelects_decodeCode c _).streamValue_encode (readBitsMSB_lt bs c.off c.w)

/-- Settles O44: each word evaluated, a command word and a mode through the decoder's laws `decode_command` and `decode_mode`. -/
theorem wordsDecode : Obligations.WordsDecode :=
  ⟨decode_command 3, decode_command 9, rfl, rfl, rfl, rfl, by decide, by decide, decode_mode 24 0 0 0 0⟩

end Sys2Proof.Machine
end

section
/-! PROOFS. Invariants (10_state.md): the invariant holds after reset and every step keeps it, from it a step stops on unwritten
bytes only and a command ends within its bound (rules R38, R304), and what no step writes (rules R61, R131, R272). -/

namespace Sys2Proof.Machine

/-! ### The base case -/

/-- Settles O47: `reset_inv` for the parameters of `State.reset` and for any admissible ones. -/
theorem resetSatisfiesInv : Obligations.ResetSatisfiesInv := ⟨reset_inv (by decide), fun _ h => reset_inv h⟩

/-! ### The host's actions keep the invariant -/

section Host

variable {s : State} (h : Inv s)
include h

/-- While no command runs the invariant says nothing of a unit. -/
theorem Inv.of_waiting {t : State} (hb : s.busy = false) (hbase : Base t) (hst : t.status = s.status)
    (hfault : t.fault = s.fault) : Inv t := by
  have hstatus := h.status
  refine ⟨hbase.cfg, hbase.mem, ⟨?_, ?_, hbase.multi, hbase.ready⟩, ?_⟩
  · rw [hst, hfault]; exact hstatus.1
  · rw [hst, hfault]; exact hstatus.2.1
  · rw [hst]
    rw [State.busy] at hb
    cases hs : s.status.STATE with
    | busy ph => rw [hs] at hb; cases hb
    | idle | done | fault => trivial

theorem Inv.writeIndex (hb : s.busy = false) (i : Nat) (v : Word) : Inv (s.writeIndex i v) := by
  rw [State.writeIndex]
  split
  · exact h
  · exact setReg_inv h hb _ v

theorem hostWriteReg_inv (i : Nat) (v : Word) : Ends Inv (ran (hostWriteReg i v s)) := by
  unfold hostWriteReg
  split_ifs with hb hcmd
  · exact h
  · rw [ran_command]
    exact command_inv h.keepStatus.base v
  · exact h.writeIndex (Bool.not_eq_true _ ▸ hb) i v

theorem hostReadReg_inv (i : Nat) : Ends Inv (hostReadReg i s) := by
  unfold hostReadReg
  split_ifs
  · exact h.setHost _ _
  · trivial
  · exact h.setHost _ _

theorem hostWriteMem_inv (sp : Space) (off : Nat) (b : Byte) : Ends Inv (hostWriteMem sp off b s) := by
  unfold hostWriteMem
  split_ifs with hb hoff
  · trivial
  · trivial
  · exact h.of_waiting (Bool.not_eq_true _ ▸ hb) (h.base.writeByte (Nat.lt_of_not_le hoff) b)
      (State.writeByte_status ..) (State.writeByte_fault ..)

theorem hostReadMem_inv (sp : Space) (off : Nat) : Ends Inv (hostReadMem sp off s) := by
  unfold hostReadMem
  split_ifs
  · trivial
  · trivial
  · split
    · trivial
    · exact h.setHost _ _

/-- Taking the host's next action off its script leaves the invariant as it is. -/
theorem Inv.popHost (rest : List HostAction) : Inv { s with host := rest } := h.setHost rest s.hostData

theorem running_ends_inv : Ends Inv (ran (fetchRunning s)) := ends_iff.2 fun _ ht => running_inv h ht

/-- The step lemma of the invariant, by whose turn the step is. -/
theorem step_ends_inv : Ends Inv (step s) := by
  rw [step_eq, fetch]
  cases s.host with
  | nil => exact running_ends_inv h
  | cons a rest =>
    cases a with
    | wait => exact running_ends_inv (h.popHost rest)
    | poll =>
      show Ends Inv (ran (if s.busy then _ else _))
      split_ifs
      · exact running_ends_inv h
      · exact h.setHost _ _
    | writeReg i v => exact hostWriteReg_inv (h.popHost rest) i v
    | readReg i => exact hostReadReg_inv (h.popHost rest) i
    | writeMem sp off b => exact hostWriteMem_inv (h.popHost rest) sp off b
    | readMem sp off => exact hostReadMem_inv (h.popHost rest) sp off
    | reset => exact (reset_inv h.cfg).setHost _ _

end Host

/-- Settles O48, by `step_ends_inv`. -/
theorem stepKeepsInv : Obligations.StepKeepsInv := fun _ _ hinv hstep => (step_ends_inv hinv).next hstep

/-! ### Progress -/

/-- With no host action left a step is the running unit's. -/
theorem step_of_host_nil {s : State} (h : s.host = []) : step s = ran (fetchRunning s) :=
  UnitTurn.step_eq (.inl ⟨h, rfl⟩)

/-- A waiting machine's step answers it unchanged (rule R291). -/
theorem step_waits {s : State} (h : s.host = []) (hb : s.busy = false) : step s = .next s := by
  rw [step_of_host_nil h, fetchRunning_waits hb, ran_effect]

/-- Settles O49: a waiting machine waits, and what a running unit's element answers is `unit_goes`. -/
theorem onlyUnwrittenBytesStop : Obligations.OnlyUnwrittenBytesStop := by
  intro s hinv hhost
  cases hb : s.busy with
  | false => exact .inl ⟨s, step_waits hhost hb⟩
  | true =>
    have hgoes : Goes s (step s) := step_of_host_nil hhost ▸ unit_goes hinv hb
    cases hstep : step s with
    | next t => exact .inl ⟨t, rfl⟩
    | fault r =>
      rw [hstep] at hgoes
      exact hgoes.elim
    | refused r =>
      rw [hstep] at hgoes
      obtain ⟨sp, off, rfl, hnone, -⟩ := hgoes
      exact .inr ⟨sp, off, rfl, hnone⟩

/-- A running command has at least one element left. -/
theorem workLeft_pos {s : State} (hinv : Inv s) (hb : s.busy = true) : 0 < workLeft s := by
  obtain ⟨ph, hs⟩ := State.busy_phase hb
  have hunit := hinv.unitAt hs
  rw [workLeft, hs]
  cases ph with
  | start => exact hunit.elim
  | scan | skip | concat | lzw => exact Nat.succ_pos _
  | bmp =>
    obtain ⟨-, -, hx, hrow, -⟩ := hunit
    have hrows : (s.bmpWork.BMP_ROW.toNat + 1) * s.bmp.BMP_WIDTH.toNat ≤
        s.bmp.BMP_HEIGHT.toNat * s.bmp.BMP_WIDTH.toNat := Nat.mul_le_mul_right _ hrow
    rw [Nat.add_mul, Nat.one_mul, Nat.mul_comm s.bmp.BMP_HEIGHT.toNat] at hrows
    show 0 < s.bmp.BMP_WIDTH.toNat * s.bmp.BMP_HEIGHT.toNat -
      (s.bmpWork.BMP_ROW.toNat * s.bmp.BMP_WIDTH.toNat + s.bmpWork.BMP_X.toNat)
    omega

/-- Everything a running command may read is written. -/
def Readable (s : State) : Prop :=
  (∀ a < s.SRC_LEN.toNat, (s.byteAt .src a).isSome = true) ∧ ∀ a < s.lzw.LZW_CLEN.toNat, (s.byteAt .cbuf a).isSome = true

/-- Where everything it reads is written, a running unit's element answers a next state. -/
theorem unit_goes_readable {s : State} (hinv : Inv s) (hb : s.busy = true) (hhost : s.host = []) (hread : Readable s) :
    ∃ t, step s = .next t ∧ Inv t ∧ Progress s t := by
  have hgoes : Goes s (step s) := step_of_host_nil hhost ▸ unit_goes hinv hb
  cases hstep : step s with
  | next t =>
    rw [hstep] at hgoes
    exact ⟨t, rfl, hgoes⟩
  | fault r =>
    rw [hstep] at hgoes
    exact hgoes.elim
  | refused r =>
    rw [hstep] at hgoes
    obtain ⟨sp, off, -, hnone, ⟨rfl, hoff⟩ | ⟨rfl, hoff⟩⟩ := hgoes
    · have hsome := hread.1 off hoff
      rw [hnone] at hsome
      cases hsome
    · have hsome := hread.2 off hoff
      rw [hnone] at hsome
      cases hsome

/-- A command that still runs after an element finds all it may read written. -/
theorem Readable.progress {s t : State} (hread : Readable s) (hprog : Progress s t) (hb : t.busy = true) : Readable t := by
  obtain ⟨-, hlen, hclen, hkept⟩ := hprog.runs hb
  refine ⟨fun a ha => hkept _ _ (hread.1 a ?_), fun a ha => hkept _ _ (hread.2 a ?_)⟩
  · rwa [← hlen]
  · rwa [← hclen]

/-- Settles O50, by induction on a bound of the work left: each element leaves less of it, and all there is to read stays
written. -/
theorem everyCommandEnds : Obligations.EveryCommandEnds := by
  have ends (n : Nat) : ∀ s : State, workLeft s ≤ n → Inv s → s.busy = true → s.host = [] → Readable s →
      ∃ (k : Nat) (t : State), k ≤ workLeft s ∧ core.run k s = (.next t : Out) ∧
        (t.status.STATE = .done ∨ t.status.STATE = .fault) := by
    induction n with
    | zero => exact fun s hn hinv hb _ _ => absurd (workLeft_pos hinv hb) hn.not_gt
    | succ n ih =>
      intro s hn hinv hb hhost hread
      obtain ⟨u, hstep, hinv', hprog⟩ := unit_goes_readable hinv hb hhost hread
      cases hb' : u.busy with
      | false => exact ⟨1, u, workLeft_pos hinv hb, core_run_next hstep, hprog.ended hb'⟩
      | true =>
        have hless := (hprog.runs hb').1
        obtain ⟨k, t, hk, hrun, hend⟩ :=
          ih u (by omega) hinv' hb' (hprog.host.trans hhost) (hread.progress hprog hb')
        exact ⟨k + 1, t, by omega, (core_run_next hstep).trans hrun, hend⟩
  exact fun s hinv hb hhost hsrc hcbuf => ends (workLeft s) s le_rfl hinv hb hhost ⟨hsrc, hcbuf⟩

/-! ### What no step writes -/

/-- Settles O51, by `step_keeps`. -/
theorem stickyFaultIsSticky : Obligations.StickyFaultIsSticky := by
  intro s t hstep hset hclear
  by_contra hnoreset
  rw [not_exists] at hnoreset
  have hkept : t.status.STICKY_FAULT = true :=
    step_keeps (J := fun u => u.status.STICKY_FAULT = true) (fun _ _ hu _ himp => himp hu) hset hnoreset hstep
  exact Bool.noConfusion (hclear.symm.trans hkept)

theorem step_reset {s : State} {rest : List HostAction} (h : s.host = .reset :: rest) :
    step s = .next (hostReset { s with host := rest }) := by
  rw [step_eq, fetch, h]
  rfl

/-- No step changes a parameter: reset keeps them, and every other step by `step_keeps`. -/
theorem step_cfg {s t : State} (hstep : step s = .next t) : t.cfg = s.cfg := by
  by_cases hreset : ∃ rest, s.host = .reset :: rest
  · obtain ⟨rest, hhost⟩ := hreset
    rw [step_reset hhost] at hstep
    cases hstep
    rfl
  · rw [not_exists] at hreset
    exact step_keeps (J := fun u => u.cfg = s.cfg) (fun _ _ hu hcfg _ => hcfg.trans hu) rfl hreset hstep

/-- `t` is `s` but for what the scan writes. -/
def ScanFrame (s t : State) : Prop :=
  t = { s with status := t.status, fault := t.fault, gif := t.gif, frame0 := t.frame0, gscPos := t.gscPos }

/-- `t` is `s` but for what the concatenation writes. -/
def ConcatFrame (s t : State) : Prop :=
  t = { s with
    status := t.status
    fault := t.fault
    cbuf := t.cbuf
    gif := { s.gif with GIF_POS := t.gif.GIF_POS }
    lzw := { s.lzw with LZW_CLEN := t.lzw.LZW_CLEN, LZW_N := t.lzw.LZW_N }
    gscPos := t.gscPos
    gscCount := t.gscCount }

/-- `t` is `s` but for what `LZW_RUN` writes. -/
def LzwFrame (s t : State) : Prop :=
  t = { s with
    status := t.status
    fault := t.fault
    obuf := t.obuf
    dict := t.dict
    lzw := { t.lzw with LZW_CLEN := s.lzw.LZW_CLEN, LZW_N := s.lzw.LZW_N } }

/-- `t` is `s` but for what `BMP_RENDER` writes. -/
def BmpFrame (s t : State) : Prop :=
  t = { s with status := t.status, fault := t.fault, sink := t.sink, bmpWork := t.bmpWork }

section Frames

variable {s : State}

theorem decodeSeparator_frame (b : Byte) : Ends (ScanFrame s) (exec (decodeSeparator b) s) := by
  unfold decodeSeparator
  split_ifs
  · exact gifImage_answers (fun _ _ => rfl) (fun _ _ _ => trivial) fun _ _ _ _ => rfl
  · exact rfl
  · exact rfl

theorem frameEnd_frame (p : Nat) : ScanFrame s (frameEnd p s) := by
  unfold frameEnd
  dsimp only
  split_ifs <;> rfl

theorem decodeLength_scanFrame (hs : isConcat s = false) (b : Byte) : Ends (ScanFrame s) (exec (decodeLength b) s) := by
  unfold decodeLength
  split_ifs
  · show Ends (ScanFrame s) (execGifTerminator s)
    rw [execGifTerminator, if_neg (ne_true_of_eq_false hs)]
    exact frameEnd_frame _
  · show Ends (ScanFrame s) (execGifSubblock b s)
    rw [execGifSubblock, if_neg (ne_true_of_eq_false hs)]
    exact rfl

theorem decodeLength_concatFrame (hs : isConcat s = true) (b : Byte) : Ends (ConcatFrame s) (exec (decodeLength b) s) := by
  unfold decodeLength
  split_ifs
  · show Ends (ConcatFrame s) (execGifTerminator s)
    rw [execGifTerminator, if_pos hs]
    exact rfl
  · show Ends (ConcatFrame s) (execGifSubblock b s)
    rw [execGifSubblock, if_pos hs]
    refine copyData_answers (J := fun t => t = { s with cbuf := t.cbuf }) rfl (fun _ _ t ht _ => ?_) (fun _ _ t ht => ?_)
      (fun _ _ _ _ _ => trivial) fun t ht _ _ _ => ?_
    · rw [ht]; rfl
    · rw [ht]; rfl
    · rw [ht]; rfl

/-- Appending, inserting and remembering stay within what `LZW_RUN` writes. -/
theorem LzwFrame.put {t : State} (ht : LzwFrame s t) (b : Byte) : LzwFrame s (obufPut b t) := by
  rw [ht]; rfl

theorem LzwFrame.insert {t : State} (ht : LzwFrame s t) (x : Str) (v : Nat) :
    LzwFrame s (lzwRemember v (dictInsert x t)) := by
  rw [ht]; rfl

theorem LzwFrame.remember {t : State} (ht : LzwFrame s t) (v : Nat) : LzwFrame s (lzwRemember v t) := by
  rw [ht]; rfl

theorem LzwFrame.fault {t : State} (ht : LzwFrame s t) (c : Cause) (i : Nat) : LzwFrame s (faultEntry c i t) := by
  rw [ht]; rfl

theorem emit_lzwFrame {bs : List Byte} {t : State} {k : State → Out} (ht : LzwFrame s t)
    (hk : ∀ u, LzwFrame s u → Ends (LzwFrame s) (k u)) : Ends (LzwFrame s) (emit bs t k) :=
  emit_keeps ht (fun b _ hu => hu.put b) (fun i _ hu => hu.fault _ i) hk

theorem dictRead_lzwFrame {c : Nat} {t : State} {k : Str → Out} (hk : ∀ x, Ends (LzwFrame s) (k x)) :
    Ends (LzwFrame s) (dictRead c t k) :=
  dictRead_answers (fun _ => trivial) fun x _ => hk x

theorem decodeCode_frame (c : CodeCtx) (v : Nat) : Ends (LzwFrame s) (exec (decodeCode c v) (pastCode s)) := by
  have hpast : LzwFrame s (pastCode s) := rfl
  have hsel := codeSelects_decodeCode c v
  cases hi : decodeCode c v with
  | lzwClear => exact rfl
  | lzwEoi => exact rfl
  | lzwFirst u => exact emit_lzwFrame hpast fun t ht => ht.remember u
  | lzwDict u =>
    exact dictRead_lzwFrame fun cur => emit_lzwFrame hpast fun t ht => dictRead_lzwFrame fun prev => ht.insert _ u
  | lzwKwkwk => exact dictRead_lzwFrame fun prev => emit_lzwFrame hpast fun t ht => ht.insert _ _
  | lzwRange u => exact rfl
  | _ => rw [hi] at hsel; exact hsel.elim

theorem sinkPut_bmpFrame (off : Nat) (px : Cell) : BmpFrame s (sinkPut off px s) := rfl

theorem BmpFrame.bmpNext {t : State} (ht : BmpFrame s t) (fr col : Nat) : BmpFrame s (Machine.bmpNext fr col t) := by
  rw [bmpNext_frame, ht]; rfl

theorem renderPixel_frame {pixel : Nat → Nat → State → (Cell → Out) → Out}
    (hp : pixel ∈ [pixelP1, pixelP4, pixelP8, pixelRgb555, pixelBf16, pixelBgr24, pixelBgra32, pixelBf32]) :
    Ends (BmpFrame s) (renderPixel pixel s) := by
  refine pixel_answers (fun _ _ => rfl) (fun _ _ _ => trivial) (fun px => ?_) hp
  split_ifs
  · exact sinkWrite_answers (fun _ => rfl) fun _ => (sinkPut_bmpFrame _ px).bmpNext _ _
  · exact BmpFrame.bmpNext (t := s) rfl _ _

theorem decodeMode_frame (bpp comp r g b : Word) : Ends (BmpFrame s) (exec (decodeMode bpp comp r g b) s) := by
  have hsel := modeSelects_decodeMode bpp comp r g b
  cases hi : decodeMode bpp comp r g b with
  | bmpP1 => exact renderPixel_frame (pixel := pixelP1) (by simp)
  | bmpP4 => exact renderPixel_frame (pixel := pixelP4) (by simp)
  | bmpP8 => exact renderPixel_frame (pixel := pixelP8) (by simp)
  | bmpRgb555 => exact renderPixel_frame (pixel := pixelRgb555) (by simp)
  | bmpBf16 => exact renderPixel_frame (pixel := pixelBf16) (by simp)
  | bmpBgr24 => exact renderPixel_frame (pixel := pixelBgr24) (by simp)
  | bmpBgra32 => exact renderPixel_frame (pixel := pixelBgra32) (by simp)
  | bmpBf32 => exact renderPixel_frame (pixel := pixelBf32) (by simp)
  | bmpIllegal x y =>
    show Ends (BmpFrame s) (execBmpIllegal x y s)
    unfold execBmpIllegal
    split
    · exact rfl
    · trivial
  | _ => rw [hi] at hsel; exact hsel.elim

/-- In the fetch loop the turn writes what `LZW_RUN` may write. -/
theorem fetchCode_frame : Ends (LzwFrame s) (ran (fetchCode s)) :=
  code_ends rfl (fun _ _ => rfl) fun v => decodeCode_frame _ v

end Frames

/-- Settles O52: parameters by `step_cfg`, and at a unit's turn the frame of each element it may fetch. -/
theorem unitsWriteOnlyTheirs : Obligations.UnitsWriteOnlyTheirs := by
  refine ⟨fun s t hstep => step_cfg hstep, fun s u t hturn hstep => ?_⟩
  rw [hturn.step_eq] at hstep
  rw [← hturn.state]
  refine ⟨fun hs => ?_, fun hs => ?_, fun hs => ?_, fun hs => ?_⟩
  · rcases hs with hs | hs <;> rw [fetchRunning_busy hs] at hstep
    · exact (gsc_ends (site := .separator) (fun _ _ => rfl) decodeSeparator_frame).next hstep
    · have hconcat : isConcat u = false := by simp [isConcat, hs]
      exact (gsc_ends (site := .length) (fun _ _ => rfl) (decodeLength_scanFrame hconcat)).next hstep
  · have hconcat : isConcat u = true := by simp [isConcat, hs]
    rw [fetchRunning_busy hs] at hstep
    exact (gsc_ends (site := .length) (fun _ _ => rfl) (decodeLength_concatFrame hconcat)).next hstep
  · rw [fetchRunning_busy hs] at hstep
    exact fetchCode_frame.next hstep
  · rw [fetchRunning_busy hs, fetchUnit, ran_mode] at hstep
    exact (decodeMode_frame _ _ _ _ _).next hstep

end Sys2Proof.Machine
end

section
/-! PROOFS. Runs of `LZW_RUN` (43_lzw.md): the classes that insert (rules R230 to R232), a string that does not fit `OBUF` (rule
R234), the purity of a run (rule R220), and the prefix-table decoder beside the machine (rules R235, R238). -/

namespace Sys2Proof.Machine

/-! ### A code that emits and inserts -/

/-- What `LZW.DICT` and `LZW.KWKWK` leave: the string is appended, the entry inserted, the code remembered. -/
theorem emitted_inserted {cur : Str} {s : State} (h : s.lzw.LZW_OLEN.toNat + cur.toList.length < 2 ^ 32) (new : Str)
    (v : Nat) : EmittedInserted cur new v s (lzwRemember v (dictInsert new (emitted cur.toList s))) := by
  have happ : Appended cur.toList cur.toList.length s (emitted cur.toList s) := emitted_appended h
  refine ⟨?_, happ, fun c => ?_⟩
  · rw [emitted_frame]
    rfl
  · rw [emitted_frame]
    exact Table.get_set s.dict s.lzw.LZW_NEXT.toNat new c

section Insert

variable {s : State} (hcap : s.cfg.OBUF_CAP < 2 ^ 32) {prev : Str}
  (hprev : Table.get s.dict s.lzw.LZW_PREV.toNat = some prev)
include hcap hprev

/-- Rule R230: with room for the code's string, the previous string is extended by its first byte. -/
theorem exec_lzwDict_ok {v : Nat} {cur : Str} (hcur : Table.get s.dict v = some cur)
    (hroom : s.lzw.LZW_OLEN.toNat + cur.toList.length ≤ s.cfg.OBUF_CAP) :
    exec (.lzwDict v) s = .next (lzwRemember v (dictInsert (prev.snoc cur.head) (emitted cur.toList s))) := by
  have hprev' : Table.get (emitted cur.toList s).dict (emitted cur.toList s).lzw.LZW_PREV.toNat = some prev := by
    rw [emitted_frame]
    exact hprev
  show execLzwDict v s = _
  rw [execLzwDict, dictRead_ok hcur, emit_ok hroom hcap, dictRead_ok hprev']

/-- Rule R231: with room for it, the previous string extended by its own first byte is emitted and inserted. -/
theorem exec_lzwKwkwk_ok (hroom : s.lzw.LZW_OLEN.toNat + (prev.snoc prev.head).toList.length ≤ s.cfg.OBUF_CAP) :
    exec .lzwKwkwk s = .next (lzwRemember s.lzw.LZW_NEXT.toNat
      (dictInsert (prev.snoc prev.head) (emitted (prev.snoc prev.head).toList s))) := by
  show execLzwKwkwk s = _
  rw [execLzwKwkwk, dictRead_ok hprev]
  exact emit_ok hroom hcap

end Insert

/-- Settles O9, by `exec_lzwDict_ok` and `emitted_inserted`. -/
theorem lzwDictEmitsAndInserts : Obligations.LzwDictEmitsAndInserts := by
  intro s v cur prev hcfg hcur hprev hroom
  have hcap : s.cfg.OBUF_CAP < 2 ^ 32 := obufCap_lt_of_admissible hcfg
  exact ⟨_, exec_lzwDict_ok hcap hprev hcur hroom, emitted_inserted (hroom.trans_lt hcap) _ v⟩

/-- Settles O10, by `exec_lzwKwkwk_ok` and `emitted_inserted`. -/
theorem lzwKwkwkEmitsAndInserts : Obligations.LzwKwkwkEmitsAndInserts := by
  intro s prev hcfg hprev hroom
  have hcap : s.cfg.OBUF_CAP < 2 ^ 32 := obufCap_lt_of_admissible hcfg
  have hroom' : s.lzw.LZW_OLEN.toNat + (prev.snoc prev.head).toList.length ≤ s.cfg.OBUF_CAP := by
    rwa [Str.snoc_toList, List.length_append, ← Nat.add_assoc]
  exact ⟨_, exec_lzwKwkwk_ok hcap hprev hroom', emitted_inserted (hroom'.trans_lt hcap) _ _⟩

/-! ### A string that does not fit -/

/-- The first `m` bytes of a string, appended alone (rule R234). -/
theorem emitted_take_appended {bs : List Byte} {m : Nat} {s : State} (hm : m ≤ bs.length)
    (h : s.lzw.LZW_OLEN.toNat + m < 2 ^ 32) : Appended bs m s (emitted (bs.take m) s) := by
  have hlen : (bs.take m).length = m := List.length_take_of_le hm
  have happ : Appended (bs.take m) m s (emitted (bs.take m) s) := by
    simpa only [hlen] using emitted_appended (bs := bs.take m) (s := s) (by rwa [hlen])
  obtain ⟨holen, hbytes⟩ := happ
  refine ⟨holen, fun a => ?_⟩
  rw [hbytes]
  split_ifs with ha
  · exact List.getElem?_take_of_lt (by omega)
  · rfl

/-- A string that does not fit `OBUF` faults at the capacity with what fits appended, whatever would follow. -/
theorem emit_overflows {bs : List Byte} {s : State} (hcap : s.cfg.OBUF_CAP < 2 ^ 32)
    (hle : s.lzw.LZW_OLEN.toNat ≤ s.cfg.OBUF_CAP) (hover : s.cfg.OBUF_CAP < s.lzw.LZW_OLEN.toNat + bs.length)
    (k : State → Out) :
    ∃ u, emit bs s k = .next (faulted 6 0x23 (trunc32 s.cfg.OBUF_CAP) u) ∧ PartlyEmitted bs s u := by
  refine ⟨_, emit_full hle hover hcap, ?_, emitted_take_appended (by omega) (by omega)⟩
  rw [emitted_frame]

/-- Settles O11: each of the three classes comes to emitting its string, which overflows. -/
theorem lzwOutputFull : Obligations.LzwOutputFull := by
  intro s i bs hcfg hle hover hclass
  have hfull := emit_overflows (obufCap_lt_of_admissible hcfg) hle hover
  rcases hclass with ⟨v, rfl, rfl⟩ | ⟨v, cur, rfl, hcur, rfl⟩ | ⟨prev, rfl, hprev, rfl⟩
  · exact hfull _
  · show ∃ u, execLzwDict v s = _ ∧ _
    rw [execLzwDict, dictRead_ok hcur]
    exact hfull _
  · show ∃ u, execLzwKwkwk s = _ ∧ _
    rw [execLzwKwkwk, dictRead_ok hprev]
    exact hfull _

/-! ### The command's first step -/

/-- The step that takes a write of `LZW_RUN` to `CMD`, with parameters that pass the start checks. -/
theorem step_lzwRun {s : State} (hhost : s.host = [.writeReg 0 3]) (hb : s.busy = false) (hstart : lzwStartFault s = none) :
    step s = .next ((lzwInit (commandStart 3 { s with host := [], statusBefore := s.status })).setState (.busy .lzw)) := by
  rw [step_command hb hhost]
  exact exec_lzwRun_starts hstart

/-! ### Purity -/

/-- Two machines alike in the operands of `LZW_RUN` are alike after its start (rules R220, R224). -/
theorem lzwInit_twin {s t : State} (hs : s.host = []) (ht : t.host = []) (hwmax : s.cfg.WMAX = t.cfg.WMAX)
    (hcap : s.cfg.OBUF_CAP = t.cfg.OBUF_CAP) (hn : s.lzw.LZW_N = t.lzw.LZW_N) (hclen : s.lzw.LZW_CLEN = t.lzw.LZW_CLEN)
    (hcbuf : ∀ a < s.lzw.LZW_CLEN.toNat, s.byteAt .cbuf a = t.byteAt .cbuf a) :
    LzwTwin ((lzwInit (commandStart 3 s)).setState (.busy .lzw)) ((lzwInit (commandStart 3 t)).setState (.busy .lzw)) := by
  refine ⟨hs, ht, ⟨hwmax, hcap, ?_, ?_, rfl, rfl, rfl, hcbuf, fun a ha => absurd ha (Nat.not_lt_zero a)⟩, .inr (.inr rfl)⟩
  · show (lzwInit _).lzw = (lzwInit _).lzw
    simp only [lzwInit, dictReset, commandStart, State.setEoi, hn, hclen]
  · show literals (2 ^ s.lzw.LZW_N.toNat) = literals (2 ^ t.lzw.LZW_N.toNat)
    rw [hn]

/-- Settles O14: the starts leave twins by `lzwInit_twin`, and a run keeps them so by `LzwTwin.run_twin`. -/
theorem lzwRunIsPure : Obligations.LzwRunIsPure := by
  intro s t k s' hs ht hsb htb hwmax hcap hn hclen hslen htlen hmin hmax hbits hcbuf hrun
  have hsstep := step_lzwRun hs hsb (lzwStart_ok hslen hbits hmin hmax)
  have htstep := step_lzwRun ht htb (lzwStart_ok htlen (hclen ▸ hbits) (hn ▸ hmin) (hn ▸ hmax))
  have htwin := lzwInit_twin (s := { s with host := [], statusBefore := s.status })
    (t := { t with host := [], statusBefore := t.status }) rfl rfl hwmax hcap hn hclen hcbuf
  obtain ⟨t', hrun', htwin'⟩ := htwin.run_twin k s' ((core_run_next hsstep).symm.trans hrun)
  exact ⟨t', (core_run_next htstep).trans hrun', htwin'.alike⟩

/-! ### The prefix-table decoder -/

/-- The decoder stands for no more of the state than the LZW registers, `DICT` and `OBUF`. -/
theorem PrefixLzw.Stands.setHost {m : PrefixLzw} {s : State} (h : m.Stands s) (x : List HostAction) :
    m.Stands { s with host := x } :=
  ⟨h.n, h.w, h.next, h.prev, h.string, h.prefixes, h.olen, h.out⟩

/-- Settles O15: the start by `PrefixLzw.start_stands`, and a code by `PrefixLzw.code_follows` in the state of the turn. -/
theorem prefixTableSimulates : Obligations.PrefixTableSimulates := by
  refine ⟨fun s t hmax hmin hlen hbits hexec => PrefixLzw.start_stands hexec (lzwStart_ok hlen hbits hmin hmax),
    fun s u t m f hinv hturn hs hbytes hstands hstep => ?_⟩
  rw [hturn.step_lzw hs] at hstep
  rw [hturn.eq] at hstep
  have hfollows := (PrefixLzw.code_follows (hinv.popHost u.host) hs hbytes (hstands.setHost u.host)).next hstep
  rcases hfollows with ⟨hstate, -, -, hnext, -⟩ | ⟨hstate, -, hsame⟩ | hstate
  · exact ⟨fun _ => hnext, fun hdone => by rw [hstate] at hdone; cases hdone⟩
  · exact ⟨fun hbusy => (by rw [hstate] at hbusy; cases hbusy), fun _ => hsame⟩
  · exact ⟨fun hbusy => (by rw [hstate] at hbusy; cases hbusy), fun hdone => by rw [hstate] at hdone; cases hdone⟩

/-- Settles O16: `PrefixLzw.start_stands` after the command's first step, and `lzw_run_stands` for the rest of the run. -/
theorem lzwRunDecodesTheStream : Obligations.LzwRunDecodesTheStream := by
  intro s t k f hinv hhost hb hmin hmax hlen hbits hbytes hrun hdone
  have hstart : lzwStartFault s = none := lzwStart_ok hlen hbits hmin hmax
  have hstep := step_lzwRun hhost hb hstart
  have hinv' := (step_ends_inv hinv).next hstep
  have hstands := PrefixLzw.start_stands (exec_lzwRun_starts (s := { s with host := [], statusBefore := s.status }) hstart) hstart
  have hend := lzw_run_stands (8 * s.lzw.LZW_CLEN.toNat) f t k _ _ (8 * s.lzw.LZW_CLEN.toNat) hinv' rfl rfl rfl hbytes
    hstands (Nat.le_add_right _ _) ((core_run_next hstep).symm.trans hrun) hdone
  exact ⟨_, rfl, hend.olen, hend.out⟩

end Sys2Proof.Machine
end

section
/-! PROOFS. The GIF container's records and chains (42_gif_container.md): the screen descriptor (rules R194 to R196), an image
descriptor (rules R198 to R200), the sub-blocks of the scan (rules R201, R202) and of the concatenation (rules R212 to R214). -/

namespace Sys2Proof.Machine

/-! ### A 16-bit field cut short -/

/-- Rule R62: a 16-bit read that runs past the end of the file faults at the first missing offset. -/
theorem SrcHas.read16_short {s : State} {a : Nat} {b : Nat → Byte} (h : SrcHas s a (s.SRC_LEN.toNat - a) b) {i : Nat}
    (hlow : a + i ≤ s.SRC_LEN.toNat) (hend : s.SRC_LEN.toNat < a + i + 2) (c : Cause) (k : Nat → Out) :
    srcRead16 c (a + i) s k = .next (faulted c.kind.code c.code s.SRC_LEN s) := by
  unfold srcRead16
  obtain hlen | hlen : a + i = s.SRC_LEN.toNat ∨ a + i + 1 = s.SRC_LEN.toNat := by omega
  · rw [hlen, srcRead_at_length]
  · rw [h.read (by omega), hlen, srcRead_at_length]

/-- Rule R62: the read of the first missing byte faults. -/
theorem srcRead_at_end {s : State} {a i : Nat} (hlen : s.SRC_LEN.toNat = a + i) (c : Cause) (k : Byte → Out) :
    srcRead c (a + i) s k = .next (faulted c.kind.code c.code s.SRC_LEN s) := by
  rw [← hlen, srcRead_at_length]

/-! ### The screen descriptor -/

section Screen

variable {s : State} {b : Nat → Byte}

theorem gifTrailerCheck_ok (h0 : 0 < s.SRC_LEN.toNat) (h : s.byteAt .src (s.SRC_LEN.toNat - 1) = some 0x3B)
    (k : State → Out) : gifTrailerCheck s k = k s := by
  rw [gifTrailerCheck_known h0 h, if_pos rfl]

/-- The state in which `GIF_OPEN` begins rule R193: the version is written (rule R192). -/
def versionedGif (ver : Word) (s : State) : State :=
  { openedGif s with gif := { (openedGif s).gif with GIF_VERSION := ver } }

/-- Past signature, version and trailer, `GIF_OPEN` reads the screen descriptor. -/
theorem exec_gifOpen_at_screen (hlen : s.SRC_LEN.toNat ≤ s.cfg.SRC_CAP) (h : SrcHas s 0 6 b)
    (hsig : b 0 = 0x47 ∧ b 1 = 0x49 ∧ b 2 = 0x46) {ver : Word} (hver : IsVersion (b 3) (b 4) (b 5) ver)
    (hlast : s.byteAt .src (s.SRC_LEN.toNat - 1) = some 0x3B) :
    exec .gifOpen s =
      gifScreen (versionedGif ver s) fun fl s => gifGeometry s fun s => .next (gifGlobalTable fl s) := by
  have hopened : SrcHas (openedGif s) 0 6 b := h.congr rfl rfl
  refine (execGifOpen_checks hlen).trans ?_
  rw [gifSignature_ok (hopened.mono (by decide)) hsig, gifVersion_ok hopened hver]
  exact gifTrailerCheck_ok (s := versionedGif ver s) (Nat.lt_of_lt_of_le (by decide) h.1) hlast _

/-- The screen record once the descriptor's bytes below `n` are read, the other registers as they were (rule R194). -/
def screenRead (b : Nat → Byte) (n : Nat) (g : GifRegs) : GifRegs :=
  { g with
    GIF_SCREEN_W := if 8 ≤ n then trunc32 (le16 (b 6) (b 7)) else g.GIF_SCREEN_W
    GIF_SCREEN_H := if 10 ≤ n then trunc32 (le16 (b 8) (b 9)) else g.GIF_SCREEN_H
    GIF_FLAGS := if 11 ≤ n then (b 10).setWidth 32 else g.GIF_FLAGS
    GIF_BG := if 12 ≤ n then (b 11).setWidth 32 else g.GIF_BG }

/-- A descriptor cut short faults at the end of the file, with what was read before the cut in its registers. -/
theorem gifScreen_short (hlow : 6 ≤ s.SRC_LEN.toNat) (hshort : s.SRC_LEN.toNat < 13) (h : SrcHas s 0 s.SRC_LEN.toNat b)
    (k : Byte → State → Out) :
    gifScreen s k = .next (faulted 3 0x10 s.SRC_LEN { s with gif := screenRead b s.SRC_LEN.toNat s.gif }) := by
  have known (g : GifRegs) : SrcHas { s with gif := g } 0 (s.SRC_LEN.toNat - 0) b := h.congr rfl rfl
  have read16 (g : GifRegs) {i : Nat} (hi : i + 1 < s.SRC_LEN.toNat) (k : Nat → Out) :
      srcRead16 .G_SHORT i { s with gif := g } k = k (le16 (b i) (b (i + 1))) := by
    simpa only [Nat.zero_add] using (known g).read16 hi (c := .G_SHORT) (k := k)
  have short16 (g : GifRegs) {i : Nat} (hi : i ≤ s.SRC_LEN.toNat) (hend : s.SRC_LEN.toNat < i + 2) (k : Nat → Out) :
      srcRead16 .G_SHORT i { s with gif := g } k = .next (faulted 3 0x10 s.SRC_LEN { s with gif := g }) := by
    have hshort := (known g).read16_short (i := i) (by rwa [Nat.zero_add]) (by rwa [Nat.zero_add]) .G_SHORT k
    rwa [Nat.zero_add] at hshort
  have read (g : GifRegs) {i : Nat} (hi : i < s.SRC_LEN.toNat) (k : Byte → Out) :
      srcRead .G_SHORT i { s with gif := g } k = k (b i) := by
    simpa only [Nat.zero_add] using (known g).read hi (c := .G_SHORT) (k := k)
  have short (g : GifRegs) {i : Nat} (hi : s.SRC_LEN.toNat = i) (k : Byte → Out) :
      srcRead .G_SHORT i { s with gif := g } k = .next (faulted 3 0x10 s.SRC_LEN { s with gif := g }) := by
    rw [← hi]
    exact srcRead_at_length .G_SHORT { s with gif := g } k
  unfold gifScreen screenRead
  by_cases h8 : 8 ≤ s.SRC_LEN.toNat
  swap
  · rw [if_neg h8, if_neg (by omega), if_neg (by omega), if_neg (by omega)]
    exact short16 s.gif hlow (by omega) _
  rw [if_pos h8]
  refine (read16 s.gif (i := 6) (by omega) _).trans ?_
  by_cases h10 : 10 ≤ s.SRC_LEN.toNat
  swap
  · rw [if_neg h10, if_neg (by omega), if_neg (by omega)]
    exact short16 _ h8 (by omega) _
  rw [if_pos h10]
  refine (read16 _ (i := 8) (by omega) _).trans ?_
  by_cases h11 : 11 ≤ s.SRC_LEN.toNat
  swap
  · rw [if_neg h11, if_neg (by omega)]
    exact short _ (by omega) _
  rw [if_pos h11]
  refine (read _ (i := 10) (by omega) _).trans ?_
  by_cases h12 : 12 ≤ s.SRC_LEN.toNat
  swap
  · rw [if_neg h12]
    exact short _ (by omega) _
  rw [if_pos h12]
  refine (read _ (i := 11) (by omega) _).trans ?_
  exact short _ (by omega) _

/-- Rule R195: a screen of nonzero width and height is accepted. -/
theorem gifGeometry_ok (hw : s.gif.GIF_SCREEN_W ≠ 0) (hh : s.gif.GIF_SCREEN_H ≠ 0) (k : State → Out) :
    gifGeometry s k = k s := by
  rw [gifGeometry, if_neg (not_or.2 ⟨hw, hh⟩)]

theorem gifGeometry_zero (hzero : s.gif.GIF_SCREEN_W = 0 ∨ s.gif.GIF_SCREEN_H = 0) (k : State → Out) :
    gifGeometry s k = .next (faulted 2 0x14 0 s) := by
  rw [gifGeometry, if_pos hzero]
  rfl

/-- Rules R196, R197: the global colour table is recorded and stepped over, and the scan begins. -/
theorem gifGlobalTable_eq (fl : Byte) (s : State) : gifGlobalTable fl s =
    { s with
      status := { s.status with STATE := .busy .scan }
      gif := { s.gif with
        GIF_GCT_COLORS := if fl.getLsbD 7 then trunc32 (2 ^ (fl.toNat % 8 + 1)) else s.gif.GIF_GCT_COLORS
        GIF_GCT_OFF := if fl.getLsbD 7 then 13 else s.gif.GIF_GCT_OFF
        GIF_POS := trunc32 (if fl.getLsbD 7 then 13 + 3 * 2 ^ (fl.toNat % 8 + 1) else 13) }
      gscPos := if fl.getLsbD 7 then 13 + 3 * 2 ^ (fl.toNat % 8 + 1) else 13 } := by
  unfold gifGlobalTable hasTable
  by_cases h7 : fl.getLsbD 7 = true
  · simp only [if_pos h7]
    rfl
  · simp only [if_neg h7]
    rfl

end Screen

/-- Settles O17: the checks pass one by one, and `gifGlobalTable_eq` gives the state at the first separator. -/
theorem gifOpenAcceptsHeader : Obligations.GifOpenAcceptsHeader := by
  intro s b ver hlen h h0 h1 h2 hver hlast hw hh
  rw [exec_gifOpen_at_screen hlen (h.mono (by decide)) ⟨h0, h1, h2⟩ hver hlast,
    gifScreen_known (s := versionedGif ver s) (h.congr rfl rfl),
    gifGeometry_ok (mt trunc32_le16_eq_zero.1 hw) (mt trunc32_le16_eq_zero.1 hh), gifGlobalTable_eq]
  rfl

/-- Settles O19: the descriptor's reads by `gifScreen_short`, the geometry check by `gifGeometry_zero`. -/
theorem gifDescriptorFaults : Obligations.GifDescriptorFaults := by
  intro s b ver hlen hlow h0 h1 h2 hver hlast
  refine ⟨fun hshort h => ?_, fun h hzero => ?_⟩
  · rw [exec_gifOpen_at_screen hlen (h.mono hlow) ⟨h0, h1, h2⟩ hver hlast]
    exact gifScreen_short (s := versionedGif ver s) hlow hshort (h.congr rfl rfl) _
  · rw [exec_gifOpen_at_screen hlen (h.mono (by decide)) ⟨h0, h1, h2⟩ hver hlast,
      gifScreen_known (s := versionedGif ver s) (h.congr rfl rfl)]
    exact gifGeometry_zero (hzero.imp trunc32_le16_eq_zero.2 trunc32_le16_eq_zero.2) _

/-! ### An image descriptor -/

/-- The frame-0 record once a descriptor with the bytes `b`, at the cursor, and its table's place are read: the first
descriptor's only (rules R198, R199). -/
def describedFrame (b : Nat → Byte) (s : State) : State :=
  { s with frame0 :=
    if s.gif.GIF_FRAME_COUNT = 0 then
      { s.frame0 with
        F0_LEFT := trunc32 (le16 (b 0) (b 1))
        F0_TOP := trunc32 (le16 (b 2) (b 3))
        F0_W := trunc32 (le16 (b 4) (b 5))
        F0_H := trunc32 (le16 (b 6) (b 7))
        F0_FLAGS := (b 8).setWidth 32
        F0_LCT_COLORS := if (b 8).getLsbD 7 then trunc32 (2 ^ ((b 8).toNat % 8 + 1)) else s.frame0.F0_LCT_COLORS
        F0_LCT_OFF := if (b 8).getLsbD 7 then trunc32 (s.gscPos + 10) else s.frame0.F0_LCT_OFF }
    else s.frame0 }

/-- With the descriptor inside the file, `GIF.IMAGE` comes to reading the code-size byte behind the local table. -/
theorem exec_gifImage_known {s : State} {b : Nat → Byte} (h : SrcHas s (s.gscPos + 1) 9 b) {q : Nat}
    (hq : q = if (b 8).getLsbD 7 then s.gscPos + 10 + 3 * 2 ^ ((b 8).toNat % 8 + 1) else s.gscPos + 10) :
    exec .gifImage s = srcRead .G_SHORT q (describedFrame b s) fun cs =>
      .next { (frameCode cs q (describedFrame b s)).setState (.busy .skip) with gscPos := q + 1 } := by
  have hpos : frameCodePos (b 8) (s.gscPos + 10) = q := hq.symm
  show execGifImage s = _
  rw [execGifImage, h.read16 (i := 0) (by decide), h.read16 (i := 2) (by decide), h.read16 (i := 4) (by decide),
    h.read16 (i := 6) (by decide), h.read (i := 8) (by decide)]
  simp only [frameTable_frameGeometry, hpos]
  rfl

/-- Settles O20, by `exec_gifImage_known` and the code-size byte. -/
theorem gifImageDescribes : Obligations.GifImageDescribes := by
  intro s b cs q h hq hlt hcs
  rw [exec_gifImage_known h hq, srcRead_ok (s := describedFrame b s) hlt hcs, frameCode_eq]
  unfold describedFrame
  by_cases hfirst : s.gif.GIF_FRAME_COUNT = 0
  · simp only [if_pos hfirst]
    rfl
  · simp only [if_neg hfirst]
    rfl

/-- A descriptor cut before the end of its flags byte faults at the end of the file and records nothing. -/
theorem exec_gifImage_short {s : State} {b : Nat → Byte} (hlow : s.gscPos < s.SRC_LEN.toNat)
    (hshort : s.SRC_LEN.toNat < s.gscPos + 10) (h : SrcHas s (s.gscPos + 1) (s.SRC_LEN.toNat - (s.gscPos + 1)) b) :
    exec .gifImage s = .next (faulted 3 0x10 s.SRC_LEN s) := by
  have field {i : Nat} {k : Nat → Out} (hi : s.gscPos + 1 + i ≤ s.SRC_LEN.toNat)
      (hk : ∀ v, s.gscPos + 1 + (i + 2) ≤ s.SRC_LEN.toNat → k v = .next (faulted 3 0x10 s.SRC_LEN s)) :
      srcRead16 .G_SHORT (s.gscPos + 1 + i) s k = .next (faulted 3 0x10 s.SRC_LEN s) := by
    by_cases hend : s.SRC_LEN.toNat < s.gscPos + 1 + i + 2
    · exact h.read16_short hi hend .G_SHORT k
    · rw [h.read16 (by omega)]
      exact hk _ (by omega)
  show execGifImage s = _
  unfold execGifImage
  refine field (i := 0) (by omega) fun left h2 => field (i := 2) h2 fun top h4 => field (i := 4) h4 fun wd h6 =>
    field (i := 6) h6 fun ht h8 => ?_
  exact srcRead_at_end (a := s.gscPos + 1) (i := 8) (by omega) .G_SHORT _

/-- Settles O21: before the flags byte by `exec_gifImage_short`; after it the code-size byte's read faults. -/
theorem gifImageCutShort : Obligations.GifImageCutShort := by
  intro s b
  refine ⟨fun hlow hshort h => exec_gifImage_short hlow hshort h, fun q h hq hend => ?_⟩
  rw [exec_gifImage_known h hq, srcRead_short (s := describedFrame b s) hend]
  rfl

/-! ### The sub-blocks of the scan -/

theorem isConcat_eq_false {s : State} (h : s.status.STATE = .busy .skip) : isConcat s = false := by
  rw [isConcat, h]
  rfl

theorem isConcat_eq_true {s : State} (h : s.status.STATE = .busy .concat) : isConcat s = true := by
  rw [isConcat, h]
  rfl

/-- A register incremented by one (rule R8). -/
theorem trunc32_toNat_succ (v : Word) : trunc32 (v.toNat + 1) = v + 1 := by
  apply BitVec.eq_of_toNat_eq
  rw [BitVec.toNat_ofNat, BitVec.toNat_add]
  rfl

/-- Settles O23: outside a concatenation a sub-block moves the cursor, and the terminator is `frameEnd`. -/
theorem gifScanSkipsSubBlocks : Obligations.GifScanSkipsSubBlocks := by
  intro s hs
  have hscan : ¬isConcat s = true := ne_true_of_eq_false (isConcat_eq_false hs)
  refine ⟨fun len => ?_, ?_⟩
  · show execGifSubblock len s = _
    rw [execGifSubblock, if_neg hscan]
  · show execGifTerminator s = _
    rw [execGifTerminator, if_neg hscan, frameEnd, trunc32_toNat_succ]
    by_cases htwo : s.gif.GIF_FRAME_COUNT + 1 = 2
    · simp only [if_pos htwo]
      rfl
    · simp only [if_neg htwo]
      rfl

/-! ### The concatenation -/

/-- A unit that goes on in its phase leaves `STATUS` as it is. -/
theorem gscAt_of_busy {s : State} {ph : Phase} (h : s.status.STATE = .busy ph) (p : Nat) :
    gscAt ph p s = { s with gif := { s.gif with GIF_POS := trunc32 p }, gscPos := p } := by
  rw [gscAt, State.setState, ← h]

section Concat

variable {s : State} (hs : s.status.STATE = .busy .concat)
include hs

/-- Rule R212: a sub-block is copied behind what is there, its first `m` known bytes first. -/
theorem exec_gifSubblock_copies {len : Byte} {m r : Nat} {b : Nat → Byte} (hlen : len.toNat = m + r)
    (h : SrcHas s (s.gscPos + 1) m b) (hroom : s.gscCount + m ≤ s.cfg.CBUF_CAP) :
    exec (.gifSubblock len) s =
      copyData r (s.gscPos + 1 + m) (s.gscCount + m) (copied b m s.gscCount s) fun t =>
        .next (gscAt .concat (s.gscPos + 1 + (m + r)) { t with gscCount := t.gscCount + (m + r) }) := by
  show execGifSubblock len s = _
  rw [execGifSubblock, if_pos (isConcat_eq_true hs), hlen]
  exact copyData_known h hroom

/-- Rule R213: the terminator hands over the length and the code size, and the command ends. -/
theorem exec_gifTerminator_concat : exec .gifTerminator s = .next (concatEnd (s.gscPos + 1) s) := by
  show execGifTerminator s = _
  rw [execGifTerminator, if_pos (isConcat_eq_true hs)]

end Concat

/-- Rule R62 after some bytes are copied: the end of `SRC` is where it was. -/
theorem srcRead_copied_at_length (b : Nat → Byte) (m n : Nat) (s : State) (c : Cause) (k : Byte → Out) :
    srcRead c s.SRC_LEN.toNat (copied b m n s) k = .next (faulted c.kind.code c.code s.SRC_LEN (copied b m n s)) := by
  have hlen : (copied b m n s).SRC_LEN = s.SRC_LEN := by rw [copied_frame]
  have hread := srcRead_at_length c (copied b m n s) k
  rwa [hlen] at hread

theorem copied_copied (b : Nat → Byte) (m : Nat) (s : State) : Copied b m s s (copied b m s.gscCount s) :=
  ⟨copied_frame b m s.gscCount s, copied_byteAt b m s.gscCount s⟩

/-- Settles O25: the whole sub-block is copied, and the terminator is `concatEnd`. -/
theorem gifConcatElements : Obligations.GifConcatElements := by
  intro s hs
  refine ⟨fun len b h hroom =>
    ⟨_, exec_gifSubblock_copies hs (m := len.toNat) (r := 0) rfl h hroom, ?_, copied_byteAt b _ _ s⟩,
    exec_gifTerminator_concat hs⟩
  have hframe := copied_frame b len.toNat s.gscCount s
  generalize copied b len.toNat s.gscCount s = t at hframe
  rw [hframe]
  exact gscAt_of_busy (s := { s with cbuf := t.cbuf, gscCount := s.gscCount + len.toNat }) hs _

/-- Settles O26: after what fits is copied the next write of `CBUF`, or the next read of `SRC`, faults; a length byte beyond the
end of `SRC` is `UnitTurn.step_gsc_short`. -/
theorem gifConcatFails : Obligations.GifConcatFails := by
  intro s b hs
  refine ⟨fun len hle hover h => ?_, fun len hpos hend h hroom => ?_,
    fun u hturn => hturn.step_gsc_short (.inr (.inr hs))⟩
  · obtain ⟨r, hr⟩ : ∃ r, len.toNat = s.cfg.CBUF_CAP - s.gscCount + (r + 1) :=
      ⟨len.toNat - (s.cfg.CBUF_CAP - s.gscCount) - 1, by omega⟩
    refine ⟨_, ?_, copied_copied b _ s⟩
    have hframe := copied_frame b (s.cfg.CBUF_CAP - s.gscCount) s.gscCount s
    have hread : SrcHas (copied b (s.cfg.CBUF_CAP - s.gscCount) s.gscCount s) (s.gscPos + 1)
        (s.cfg.CBUF_CAP - s.gscCount + 1) b := h.congr (by rw [hframe]) (by rw [hframe])
    have hcap : (copied b (s.cfg.CBUF_CAP - s.gscCount) s.gscCount s).cfg = s.cfg := by rw [hframe]
    rw [exec_gifSubblock_copies hs hr (h.mono (Nat.le_succ _)) (by omega), copyData, hread.read (Nat.lt_succ_self _),
      Nat.add_sub_cancel' hle, cbufWrite, if_pos (by rw [hcap])]
    rfl
  · obtain ⟨r, hr⟩ : ∃ r, len.toNat = s.SRC_LEN.toNat - (s.gscPos + 1) + (r + 1) :=
      ⟨len.toNat - (s.SRC_LEN.toNat - (s.gscPos + 1)) - 1, by omega⟩
    refine ⟨_, ?_, copied_copied b _ s⟩
    rw [exec_gifSubblock_copies hs hr h hroom, copyData, Nat.add_sub_cancel' hpos, srcRead_copied_at_length]
    rfl

/-- The step that takes a write of `GIF_CONCAT` to `CMD`, past the checks of rule R211. -/
theorem step_gifConcat {s : State} (hhost : s.host = [.writeReg 0 2]) (hb : s.busy = false)
    (hlen : s.SRC_LEN.toNat ≤ s.cfg.SRC_CAP) (hready : s.status.GIF_READY = true) (hcount : s.gif.GIF_FRAME_COUNT ≠ 0) :
    step s = .next (gscAt .concat s.frame0.F0_DATA_OFF.toNat
      { commandStart 2 { s with host := [], statusBefore := s.status } with gscCount := 0 }) := by
  rw [step_command hb hhost]
  refine (exec_gifConcat_checks (s := { s with host := [], statusBefore := s.status }) hlen).trans ?_
  rw [if_neg (ne_false_of_eq_true hready), if_neg hcount]

/-- Settles O27: the command's first step by `step_gifConcat`, the chain by `concat_run`. -/
theorem gifConcatJoinsTheChain : Obligations.GifConcatJoinsTheChain := by
  intro s blocks _ hhost hb hlen hready hcount hblocks hroom hsrc hbytes
  obtain ⟨t, hrun, hframe, hcbuf⟩ := concat_run gifConcatElements blocks (gscAt .concat s.frame0.F0_DATA_OFF.toNat
    { commandStart 2 { s with host := [], statusBefore := s.status } with gscCount := 0 }) rfl rfl hblocks
    ((Nat.zero_add _).le.trans hroom) hsrc hbytes
  refine ⟨t, (core_run_next (step_gifConcat hhost hb hlen hready hcount)).trans hrun, ?_, fun a => ?_⟩
  · simp only [gscAt_gscCount, Nat.zero_add] at hframe
    exact hframe
  · rw [hcbuf a]
    simp only [gscAt_gscCount, Nat.zero_le, true_and, Nat.zero_add, Nat.sub_zero]
    rfl

end Sys2Proof.Machine
end

section
/-! PROOFS. The BMP pixel plane (41_bmp_pixel_plane.md): the start of `BMP_RENDER` (rules R151, R153), pairs that select no mode,
a pixel of each mode (rules R160 to R172), and a whole 24-bit image. -/

namespace Sys2Proof.Machine

/-! ### The start -/

/-- The working registers at the first pixel (rule R153): `BMP_CUR` is the offset register itself. -/
theorem bmpAt_zero (s : State) :
    bmpAt 0 0 s = { s with bmpWork := { BMP_CUR := s.bmp.BMP_DATA_OFF, BMP_X := 0, BMP_ROW := 0 } } := by
  have hfirst : trunc32 (sampleOffset s 0 0) = s.bmp.BMP_DATA_OFF := by
    rw [sampleOffset, rowBase, Nat.zero_mul, Nat.mul_zero, Nat.zero_div, Nat.add_zero, trunc32, BitVec.ofNat_toNat,
      BitVec.setWidth_eq]
  rw [bmpAt, hfirst]
  rfl

/-- Rule R151: past its checks `BMP_RENDER` stands at the first pixel. -/
theorem exec_bmpRender_starts {s : State} (hlen : s.SRC_LEN.toNat ≤ s.cfg.SRC_CAP) (hok : bmpStartFault s = none) :
    exec .bmpRender s = .next (bmpAt 0 0 ((commandStart 4 s).setState (.busy .bmp))) := by
  show execBmpRender s = _
  rw [execBmpRender, checkSrcLen_ok (s := commandStart 4 s) hlen, show bmpStartFault (commandStart 4 s) = none from hok]

/-- Settles O28: the nine checks pass, so the command stands at the first pixel. -/
theorem bmpRenderStarts : Obligations.BmpRenderStarts := by
  intro s hlen hmode hwidth hheight harea hpal hcount hregion
  have hok : bmpStartFault s = none := by
    rw [bmpStartFault_of_mode_ok (modeFault_eq_none.2 hmode), geometryFault_eq, if_neg (not_or.2 ⟨hwidth, hheight⟩),
      if_neg harea.not_ge, if_neg fun ⟨hbpp, hzero⟩ => hpal hbpp hzero, if_neg fun ⟨hbpp, hlt⟩ => (hcount hbpp).not_gt hlt,
      if_neg hregion.not_gt]
  rw [exec_bmpRender_starts hlen hok, bmpAt_zero]
  rfl

/-! ### The pairs that select no mode -/

/-- Rule R151, checks (1) to (4): a pair that fails one faults with that check's cause. -/
theorem exec_bmpIllegal_of_modeFault {bpp comp : Word} {c : Cause} {info : Nat}
    (h : modeFault bpp.toNat comp.toNat = some (c, info)) (s : State) : exec (.bmpIllegal bpp comp) s = raise c info s := by
  show execBmpIllegal bpp comp s = _
  rw [execBmpIllegal, h]

theorem exec_bmpIllegal_word {bpp comp : Word} {c : Cause} {info : Word}
    (h : modeFault bpp.toNat comp.toNat = some (c, info.toNat)) (s : State) :
    exec (.bmpIllegal bpp comp) s = .next (faulted c.kind.code c.code info s) :=
  (exec_bmpIllegal_of_modeFault h s).trans (raise_word c info s)

/-- Settles O30: each check by its law of `modeFault`; a pair that is no mode fails one of them. -/
theorem bmpIllegalFaults : Obligations.BmpIllegalFaults := by
  refine fun s bpp comp => ⟨fun hdepth => exec_bmpIllegal_word (modeFault_depth hdepth) s,
    fun hdepth hcomp => exec_bmpIllegal_word (modeFault_comp hdepth hcomp) s,
    fun hdepth hcomp hagree => exec_bmpIllegal_word (modeFault_agree hdepth hcomp hagree) s,
    fun hdepth hagree hlow hcomp => exec_bmpIllegal_word (modeFault_compressed hdepth hagree hlow hcomp) s, fun hno => ?_⟩
  cases hfault : modeFault bpp.toNat comp.toNat with
  | none => exact absurd (modeFault_eq_none.1 hfault) (ne_true_of_eq_false hno)
  | some f =>
    obtain ⟨c, info⟩ := f
    exact ⟨_, _, _, exec_bmpIllegal_of_modeFault hfault s⟩

/-! ### The pixels -/

/-- Settles O31: the index's colour is the palette entry. -/
theorem palettePixelRenders : Obligations.PalettePixelRenders := by
  intro s i index e hindex hallowed hentry
  obtain ⟨pixel, hexec, hpixel⟩ := hindex.pixel
  rw [hexec]
  exact renderPixel_renders fun k => (hpixel k).trans (palColour_ok hallowed hentry k)

section Direct

variable {s : State} {base col : Nat} {p : Nat → Byte}

theorem pixelBgr24_known (h : SrcHas s (base + 3 * col) 3 p) (k : Cell → Out) :
    pixelBgr24 base col s k = k { r := p 2, g := p 1, b := p 0, a := 255 } := by
  simp only [pixelBgr24]
  rw [h.read_zero (by decide), h.read (by decide), h.read (by decide)]

theorem pixelBgra32_known (h : SrcHas s (base + 4 * col) 4 p) (k : Cell → Out) :
    pixelBgra32 base col s k = k { r := p 2, g := p 1, b := p 0, a := p 3 } := by
  simp only [pixelBgra32]
  rw [h.read_zero (by decide), h.read (by decide), h.read (by decide), h.read (by decide)]

theorem pixelRgb555_known (h : SrcHas s (base + 2 * col) 2 p) (k : Cell → Out) :
    pixelRgb555 base col s k = k (rgb555Cell s (le16 (p 0) (p 1))) :=
  h.read16 (i := 0) (by decide)

theorem pixelBf16_known (h : SrcHas s (base + 2 * col) 2 p) (k : Cell → Out) :
    pixelBf16 base col s k = k (maskedCell s ((p 0).toNat + 256 * (p 1).toNat)) :=
  h.read16 (i := 0) (by decide)

theorem pixelBf32_known (h : SrcHas s (base + 4 * col) 4 p) (k : Cell → Out) : pixelBf32 base col s k =
    k (maskedCell s ((p 0).toNat + 256 * (p 1).toNat + 65536 * (p 2).toNat + 16777216 * (p 3).toNat)) := by
  obtain ⟨hend, hbytes⟩ := h
  rw [pixelBf32, srcRead32_ok (a := base + 4 * col) (by omega) (hbytes 0 (by decide)) (hbytes 1 (by decide))
    (hbytes 2 (by decide)) (hbytes 3 (by decide))]
  congr 2
  omega

end Direct

/-- Settles O33: the bytes at hand are the cell. -/
theorem directPixelRenders : Obligations.DirectPixelRenders := by
  rintro s i p px (⟨rfl, h, rfl⟩ | ⟨rfl, h, rfl⟩)
  · exact renderPixel_renders (pixelBgr24_known h)
  · exact renderPixel_renders (pixelBgra32_known h)

/-- The table of `State.reset` is the default of rule R166. -/
theorem expand5_of_reset {cfg : Config} (h : cfg.EXPAND5 = State.reset.cfg.EXPAND5) (c : Nat) :
    expand5 cfg c = trunc8 (8 * (c % 32) + 7) := by
  rw [expand5, h]
  exact orOnes_get ⟨c % 32, Nat.mod_lt _ (by decide)⟩

/-- Settles O34: the cell is `rgb555Cell`, by the reset table with `expand5_of_reset`. -/
theorem rgb555PixelRenders : Obligations.Rgb555PixelRenders := by
  rintro s p v h rfl
  obtain ⟨hfits, hover⟩ := renderPixel_renders (pixelRgb555_known h)
  refine ⟨fun hf => ?_, hover⟩
  obtain ⟨t, hexec, hrendered⟩ := hfits hf
  refine ⟨t, hexec, hrendered, fun hreset => ?_⟩
  rwa [rgb555Cell, expand5_of_reset hreset, expand5_of_reset hreset, expand5_of_reset hreset] at hrendered

/-- The cell of a BitFields word by the scaling formula. -/
theorem maskedCell_eq (s : State) (v : Nat) : maskedCell s v =
    { r := if s.bmp.BMP_MASK_R ≠ 0 then scaled s v s.bmp.BMP_MASK_R else 0
      g := if s.bmp.BMP_MASK_G ≠ 0 then scaled s v s.bmp.BMP_MASK_G else 0
      b := if s.bmp.BMP_MASK_B ≠ 0 then scaled s v s.bmp.BMP_MASK_B else 0
      a := scaledAlpha s v } := by
  rw [maskedCell, channel_eq, channel_eq, channel_eq, alphaChannel_eq]

/-- Settles O35: the cell is `maskedCell`; with 32 bits no colour mask is zero. -/
theorem maskedPixelRenders : Obligations.MaskedPixelRenders := by
  rintro s i p v px (⟨rfl, h, rfl, rfl⟩ | ⟨rfl, h, hr, hg, hb, rfl, rfl⟩)
  · rw [← maskedCell_eq]
    exact renderPixel_renders (pixelBf16_known h)
  · have hcell := maskedCell_eq s ((p 0).toNat + 256 * (p 1).toNat + 65536 * (p 2).toNat + 16777216 * (p 3).toNat)
    rw [if_pos hr, if_pos hg, if_pos hb] at hcell
    rw [← hcell]
    exact renderPixel_renders (pixelBf32_known h)

/-! ### A whole image -/

/-- The state at the first pixel of a run of `BMP_RENDER` that the host starts with its last action. -/
def renderStarted (s : State) : State :=
  { s with
    status := { s.status with STATE := .busy .bmp, LAST_CMD := 4 }
    fault := noFault
    host := []
    statusBefore := s.status
    bmpWork := { BMP_CUR := s.bmp.BMP_DATA_OFF, BMP_X := 0, BMP_ROW := 0 } }

/-- The step that takes a write of `BMP_RENDER` to `CMD` with a 24-bit image in `SRC`. -/
theorem step_bmpRender_bgr24 {s : State} (hhost : s.host = [.writeReg 0 4]) (hb : s.busy = false)
    (hlen : s.SRC_LEN.toNat ≤ s.cfg.SRC_CAP) (hbpp : s.bmp.BMP_BPP = 24) (hcomp : s.bmp.BMP_COMP = 0)
    (hw : s.bmp.BMP_WIDTH.toNat ≠ 0) (hh : s.bmp.BMP_HEIGHT.toNat ≠ 0)
    (harea : s.bmp.BMP_WIDTH.toNat * s.bmp.BMP_HEIGHT.toNat < 2 ^ 32)
    (hregion : s.bmp.BMP_DATA_OFF.toNat + rowBytes s * s.bmp.BMP_HEIGHT.toNat ≤ s.SRC_LEN.toNat) :
    step s = .next (renderStarted s) := by
  have hne {a : Word} (h : a.toNat ≠ 0) : a ≠ 0 := fun hzero => h (congrArg BitVec.toNat hzero)
  have h1 : s.bmp.BMP_BPP ≠ 1 := by rw [hbpp]; decide
  have hlow : ¬(s.bmp.BMP_BPP = 1 ∨ s.bmp.BMP_BPP = 4 ∨ s.bmp.BMP_BPP = 8) := by rw [hbpp]; decide
  have hmode : modePairLegal s.bmp.BMP_BPP s.bmp.BMP_COMP = true := by rw [hbpp, hcomp]; decide
  rw [step_command hb hhost]
  exact bmpRenderStarts { s with host := [], statusBefore := s.status } hlen hmode (hne hw) (hne hh) harea
    (fun h => absurd h h1) (fun h => absurd h hlow) hregion

/-- Settles O38: the start by `step_bmpRender_bgr24`, the pixels by `bgr24_run`. -/
theorem bgr24ImageRenders : Obligations.Bgr24ImageRenders := by
  rintro s f w h vw vh _ hhost hb hlen hbpp hcomp rfl rfl hw hh harea hregion hsrc hvw hvh hstride hcells
  have hfirst (n : Nat) : (renderStarted s).bmpWork.BMP_ROW.toNat * s.bmp.BMP_WIDTH.toNat +
      (renderStarted s).bmpWork.BMP_X.toNat ≤ n := by simp [renderStarted]
  obtain ⟨t, hrun, hframe, hinside, houtside⟩ := bgr24_run directPixelRenders f _ _ vw vh
    (s.bmp.BMP_WIDTH.toNat * s.bmp.BMP_HEIGHT.toNat) (renderStarted s) rfl rfl hbpp hcomp rfl rfl (Nat.pos_of_ne_zero hw)
    (Nat.pos_of_ne_zero hh) (by simp [renderStarted]) hregion hsrc hvw hvh hstride hcells
  refine ⟨t, (core_run_next (step_bmpRender_bgr24 hhost hb hlen hbpp hcomp hw hh harea hregion)).trans hrun, hframe,
    fun x hx y hy => hinside x hx y hy (hfirst _), fun a ha => houtside a fun x hx y hy _ => ha x hx y hy⟩

end Sys2Proof.Machine
end

section
/-! PROOFS. The host and the registers: the layout of `STATUS` and the table of causes (10_state.md, 60_exceptions.md), reset and
the commands straight after it (70_reset_and_hazards.md), the step of each host action (rules R20, R60, R61, R75, R132), and the
instruction a step runs. -/

namespace Sys2Proof.Machine

/-! ### `STATUS` and the causes -/

/-- Settles O53, by the laws of `Status.word`. -/
theorem statusLayout : Obligations.StatusLayout := by
  refine fun st => ⟨st.word_state, ?_, ?_, ?_, ?_, ?_, ?_, st.word_lastCmd, fun k hk => ?_⟩ <;> rw [Status.word_bit]
  case refine_7 => simp (disch := omega) only [if_neg]
  all_goals rfl

/-- A table with a row for every cause, in which no code comes twice, tells the causes apart by their codes. -/
theorem causes_of_rows {rows : List (Cause × Word × Word)} (hrow : ∀ c : Cause, (c, c.code, c.kind.code) ∈ rows)
    (hcodes : (rows.map fun row => row.2.1).Nodup) (c : Cause) :
    (c, c.code, c.kind.code) ∈ rows ∧ ∀ d : Cause, c.code = d.code → c = d :=
  ⟨hrow c, fun d hcode => congrArg Prod.fst (List.inj_on_of_nodup_map hcodes (hrow c) (hrow d) hcode)⟩

/-- Settles O55: every cause has its row, and the codes of the rows are distinct. -/
theorem faultCauseTable : Obligations.FaultCauseTable :=
  causes_of_rows (fun c => by cases c <;> decide) (by decide)

/-! ### Reset -/

/-- Rule R290: the word `STATUS` reads straight after reset. -/
theorem Status.word_resetWith (cfg : Config) : (State.resetWith cfg).status.word = 0 := by
  show Status.word State.reset.status = 0
  decide

/-- Settles O3: every length is 0, so each command ends at its first check but for `NOP`. -/
theorem commandsAfterReset : Obligations.CommandsAfterReset := by
  intro cfg
  have hlen : (State.resetWith cfg).SRC_LEN.toNat ≤ (State.resetWith cfg).cfg.SRC_CAP := Nat.zero_le _
  refine ⟨rfl, ?_, ?_, ?_, ?_⟩
  · obtain ⟨hshort, -⟩ := gifHeaderFaultsInOrder (State.resetWith cfg) (fun _ => 0) hlen
    exact hshort (Nat.zero_lt_succ 2) ⟨le_rfl, fun i hi => absurd hi (Nat.not_lt_zero i)⟩
  · obtain ⟨hready, -⟩ := gifConcatStarts (State.resetWith cfg) hlen
    exact hready rfl
  · obtain ⟨-, hsize⟩ := lzwRunRejects (State.resetWith cfg)
    exact hsize (Nat.zero_le _) (Nat.two_pow_pos 29) (.inl Nat.two_pos)
  · obtain ⟨hdepth, -⟩ := bmpStartChecksInOrder (State.resetWith cfg) hlen
    exact hdepth (show ¬DepthOk 0 by decide)

/-- After reset every register reads 0, a reserved index with the others (rule R290). -/
theorem State.readIndex_resetWith (cfg : Config) (i : Nat) : (State.resetWith cfg).readIndex i = 0 := by
  rw [State.readIndex]
  cases Reg.ofIndex i with
  | none => rfl
  | some r =>
    cases r
    case STATUS => exact Status.word_resetWith cfg
    all_goals rfl

/-- After reset no byte of any memory is written (rule R37). -/
theorem byteAt_resetWith (cfg : Config) (sp : Space) (a : Nat) : (State.resetWith cfg).byteAt sp a = none := by
  cases sp <;> rfl

/-- Settles O56: the step is `hostReset`, the reset state but for the host's side; a waiting machine is `step_waits`. -/
theorem resetThenWaits : Obligations.ResetThenWaits := by
  refine ⟨fun s rest hhost => ?_, State.readIndex_resetWith _, fun s hhost hb => step_waits hhost hb⟩
  refine ⟨_, step_reset hhost, rfl, fun i => ?_, fun sp a => ?_, rfl, rfl, rfl⟩
  · exact State.readIndex_resetWith s.cfg i
  · exact byteAt_resetWith s.cfg sp a

/-! ### The step of a host action -/

section Idle

variable {s : State} {rest : List HostAction} (hb : s.busy = false)
include hb

/-- Rule R20: a host write to a register other than `CMD`. -/
theorem step_writeReg {i : Nat} {v : Word} (hhost : s.host = .writeReg i v :: rest) (hi : i ≠ 0) :
    step s = .next (State.writeIndex { s with host := rest } i v) := by
  rw [step_eq, fetch, hhost]
  exact congrArg ran ((if_neg (ne_true_of_eq_false hb)).trans (if_neg hi))

/-- Rule R20: a host read of a register. -/
theorem step_readReg {i : Nat} (hhost : s.host = .readReg i :: rest) :
    step s = .next { s with host := rest, hostData := s.readIndex i } := by
  rw [step_eq, fetch, hhost]
  exact if_neg (ne_true_of_eq_false hb)

variable {sp : Space} {a : Nat} (ha : a < capacity s.cfg sp)
include ha

/-- Rule R60: a host write of a byte. -/
theorem step_writeMem {b : Byte} (hhost : s.host = .writeMem sp a b :: rest) :
    step s = .next (State.writeByte sp a b { s with host := rest }) := by
  rw [step_eq, fetch, hhost]
  exact (if_neg (ne_true_of_eq_false hb)).trans (if_neg ha.not_ge)

theorem hostReadMem_written {b : Byte} (hbyte : s.byteAt sp a = some b) :
    hostReadMem sp a s = .next { s with hostData := b.setWidth 32 } := by
  rw [hostReadMem, if_neg (ne_true_of_eq_false hb), if_neg ha.not_ge, hbyte]

/-- Rule R38: a host read of a byte that nothing has written is refused. -/
theorem hostReadMem_unwritten (hnone : s.byteAt sp a = none) : hostReadMem sp a s = .refused (.unwrittenByte sp a) := by
  rw [hostReadMem, if_neg (ne_true_of_eq_false hb), if_neg ha.not_ge, hnone]

end Idle

section Busy

variable {s : State} {rest : List HostAction} (hb : s.busy = true)
include hb

/-- Rule R132: while a command runs a register write is ignored. -/
theorem step_writeReg_busy {i : Nat} {v : Word} (hhost : s.host = .writeReg i v :: rest) :
    step s = .next { s with host := rest } := by
  rw [step_eq, fetch, hhost]
  exact congrArg ran (if_pos hb)

/-- Rule R75: of the registers the host may read `STATUS` only. -/
theorem step_readReg_busy {i : Nat} (hi : i ≠ 1) (hhost : s.host = .readReg i :: rest) :
    step s = .refused .hostAccessWhileBusy := by
  rw [step_eq, fetch, hhost]
  exact (if_pos hb).trans (if_neg hi)

theorem step_writeMem_busy {sp : Space} {a : Nat} {b : Byte} (hhost : s.host = .writeMem sp a b :: rest) :
    step s = .refused .hostAccessWhileBusy := by
  rw [step_eq, fetch, hhost]
  exact if_pos hb

theorem step_readMem_busy {sp : Space} {a : Nat} (hhost : s.host = .readMem sp a :: rest) :
    step s = .refused .hostAccessWhileBusy := by
  rw [step_eq, fetch, hhost]
  exact if_pos hb

end Busy

/-! ### The register file -/

/-- An `RW` index is not reserved (section 8 of 10_state.md). -/
theorem Reg.ofIndex_ne_none_of_RW {i : Nat} (h : i = 0x05 ∨ i = 0x30 ∨ i = 0x31 ∨ 0x40 ≤ i ∧ i ≤ 0x4E) :
    Reg.ofIndex i ≠ none := by
  have key : ∀ k < 0x4F, k = 0x05 ∨ k = 0x30 ∨ k = 0x31 ∨ 0x40 ≤ k ∧ k ≤ 0x4E → Reg.ofIndex k ≠ none := by decide
  exact key i (by omega) h

/-- What each index reads after a host write, `STATUS` aside (rules R20, R25). -/
theorem State.readIndex_writeIndex (s : State) (i j : Nat) (v : Word) (hj : j ≠ 1) :
    (s.writeIndex i v).readIndex j =
      if j = i ∧ (i = 0x05 ∨ i = 0x30 ∨ i = 0x31 ∨ 0x40 ≤ i ∧ i ≤ 0x4E) then v else s.readIndex j := by
  cases hri : Reg.ofIndex i with
  | none =>
    rw [if_neg fun ⟨_, hrw⟩ => Reg.ofIndex_ne_none_of_RW hrw hri, State.writeIndex, hri]
  | some r =>
    obtain rfl := Reg.index_of_ofIndex hri
    rw [State.writeIndex, hri]
    cases hrj : Reg.ofIndex j with
    | none =>
      have hne : j ≠ r.index := by
        rintro rfl
        exact Option.some_ne_none r (hri.symm.trans hrj)
      rw [if_neg fun ⟨hji, _⟩ => hne hji, State.readIndex, State.readIndex, hrj]
    | some r' =>
      obtain rfl := Reg.index_of_ofIndex hrj
      have hstatus : r' ≠ .STATUS := fun h => hj (congrArg Reg.index h)
      have hindex : r' = r ↔ r'.index = r.index :=
        ⟨congrArg Reg.index, fun h => Option.some.inj (hrj.symm.trans (h ▸ hri))⟩
      simp only [State.readIndex, hrj, State.reg_setReg s r r' v hstatus, hindex, Reg.access_RW]

/-- What a host write touches (rules R20, R25). -/
theorem State.writeIndex_frame (s : State) (i : Nat) (v : Word) :
    s.writeIndex i v =
      { s with
        status := if i = 0x05 then { s.status with GIF_READY := false } else s.status
        SRC_LEN := (s.writeIndex i v).SRC_LEN
        lzw := (s.writeIndex i v).lzw
        bmp := (s.writeIndex i v).bmp } := by
  cases hr : Reg.ofIndex i with
  | none =>
    rw [if_neg fun h => Reg.ofIndex_ne_none_of_RW (.inl h) hr, State.writeIndex, hr]
  | some r =>
    obtain rfl := Reg.index_of_ofIndex hr
    have hsrc : (r = .SRC_LEN) = (r.index = 0x05) := by
      cases r <;> decide
    rw [State.writeIndex, hr]
    simp only [← hsrc]
    exact State.setReg_frame s r v

/-- Settles O57: a write is `writeIndex`, a read `readIndex`. -/
theorem hostRegisterAccess : Obligations.HostRegisterAccess := by
  refine fun s rest i hb => ⟨fun v hhost hi => ⟨_, step_writeReg hb hhost hi, fun j hj => ?_, ?_, ?_, fun w hw => ?_,
    fun hw => ?_⟩, fun hhost => ⟨step_readReg hb hhost, fun w hw => State.readIndex_of_mem hw, fun hreserved => ?_⟩⟩
  · exact State.readIndex_writeIndex { s with host := rest } i j v hj
  · rw [State.writeIndex_frame]
  · rw [State.writeIndex_frame]
  · exact State.writeIndex_of_mem hw
  · exact State.writeIndex_of_not_mem hw
  · rw [State.readIndex, Reg.ofIndex_reserved hreserved]

/-- Settles O58: the steps of the host while a command runs; the word it may read is laid out by `statusLayout`. -/
theorem busyShutsTheHostOut : Obligations.BusyShutsTheHostOut := by
  refine fun s rest hb => ⟨fun i v hhost => step_writeReg_busy hb hhost, fun hhost => ?_,
    fun i hi hhost => step_readReg_busy hb hi hhost, fun sp a b hhost => step_writeMem_busy hb hhost,
    fun sp a hhost => step_readMem_busy hb hhost⟩
  obtain ⟨ph, hph⟩ := State.busy_phase hb
  have hcode : s.status.STATE.code = 1 := by rw [hph, RunState.code]
  obtain ⟨-, -, hsticky, hready, hmulti, heoi, -, hlast, -⟩ := statusLayout { s.statusBefore with STATE := s.status.STATE }
  exact ⟨_, step_readStatus hb hhost, rfl, (Status.word_state _).trans hcode, hsticky, hready, hmulti, heoi, hlast⟩

/-! ### The memories -/

/-- A write of a byte touches the memories only. -/
theorem writeByte_frame (s : State) (sp : Space) (a : Nat) (b : Byte) :
    s.writeByte sp a b =
      { s with
        src := (s.writeByte sp a b).src
        cbuf := (s.writeByte sp a b).cbuf
        obuf := (s.writeByte sp a b).obuf
        sink := (s.writeByte sp a b).sink } := by
  cases sp <;> rfl

/-- Settles O59, by the steps of a memory access and `byteAt_writeByte`. -/
theorem hostMemoryAccess : Obligations.HostMemoryAccess := by
  refine fun s rest sp a hb ha => ⟨fun b hhost => ⟨_, step_writeMem hb ha hhost, ?_, fun sp' a' => ?_⟩,
    fun b hhost hbyte => ?_, fun hhost hnone => ?_⟩
  · exact writeByte_frame { s with host := rest } sp a b
  · exact byteAt_writeByte { s with host := rest } sp sp' a a' b
  · rw [step_eq, fetch, hhost]
    exact hostReadMem_written (s := { s with host := rest }) hb ha hbyte
  · rw [step_eq, fetch, hhost]
    exact hostReadMem_unwritten (s := { s with host := rest }) hb ha hnone

/-- Settles O60: the fields of before the command are kept as long as it runs, and a read of `STATUS` shows them. -/
theorem hostSeesNothingBetween : Obligations.HostSeesNothingBetween := by
  refine ⟨fun s t u c k rest rest' hb hhost hstep hbusy hrun hread => ?_, fun s t hs hstep ht => step_statusBefore hs hstep ht⟩
  have hu : u.busy = true := hbusy k le_rfl u hrun
  have hbefore : u.statusBefore = s.status :=
    (run_statusBefore k t u hbusy hrun).trans (step_command_statusBefore hb hhost hstep)
  rw [step_readStatus hu hread, State.statusWhileBusy_eq hu, hbefore]

/-! ### The instruction a step runs -/

/-- At the cursor of `GSC` a unit's turn runs what its byte decodes to. -/
theorem UnitTurn.ran_fetchGsc {s u : State} (h : UnitTurn s u) {b : Byte} (hpos : s.gscPos < s.SRC_LEN.toNat)
    (hbyte : s.byteAt .src s.gscPos = some b) {site : Site} {i : Instr} (hdecode : decode site [b] = .ok i) :
    ran (fetchGsc site u) = exec i u := by
  rw [fetchGsc_ok (s := u) (b := b) (by rw [h.eq]; exact hpos) (by rw [h.eq]; exact hbyte), ran, hdecode]

/-- In the phase `ph` a unit's turn fetches what `fetchUnit` says. -/
theorem UnitTurn.step_eq_fetchUnit {s u : State} (h : UnitTurn s u) {ph : Phase} (hs : s.status.STATE = .busy ph) :
    step s = ran (fetchUnit ph u) := by
  rw [h.step_eq, fetchRunning_busy (ph := ph) (by rw [h.state]; exact hs)]

/-- Settles O45: a command by `step_command`, a unit's element by the fetch of its phase. -/
theorem stepRunsDecoded : Obligations.StepRunsDecoded := by
  refine ⟨fun s c rest i hb hhost hdecode => ?_, fun s u b i hturn hs hpos hbyte hdecode => ?_,
    fun s u b i hturn hs hpos hbyte hdecode => ?_, fun s u hturn hs => ?_⟩
  · obtain rfl : decodeCommand c = i := Except.ok.inj ((decode_command c).symm.trans hdecode)
    exact step_command hb hhost
  · exact (hturn.step_eq_fetchUnit hs).trans (hturn.ran_fetchGsc hpos hbyte hdecode)
  · rcases hs with hs | hs <;> exact (hturn.step_eq_fetchUnit hs).trans (hturn.ran_fetchGsc hpos hbyte hdecode)
  · have hbmp : u.bmp = s.bmp := by rw [hturn.eq]
    rw [hturn.step_eq_fetchUnit hs, fetchUnit, ran_mode, hbmp]

end Sys2Proof.Machine
end
